-- ==== Sys2Proof/Word.lean ====
section
/-!
DEFINITION. The two word types of the block: a byte, and the 16-bit value of a length or checksum
field (R7, R52).
-/

namespace Sys2Proof

/-- A byte: 8 bits, value 0 to 255 (R7). -/
abbrev Byte := BitVec 8

/-- A 16-bit field: a length or a checksum (R34, R52). -/
abbrev Half := BitVec 16

end Sys2Proof
end

