-- ==== Sys2Proof/Config.lean ====
section
/-!
DEFINITION. What an implementation fixes and what the environment supplies: the parameters of R5 as one
configuration record, the checksum functions, the handlers of R104 and the transmit callback of R132.
Everything here is plain data; what the spec leaves open stands as constants with no body.
-/

namespace Sys2Proof

/-- The customary five-field parameterisation of a 16-bit CRC (R75). -/
structure CrcParams where
  /-- generator polynomial, without the leading term -/
  poly : Half
  /-- initial value -/
  init : Half
  /-- reflect each input byte -/
  refin : Bool
  /-- reflect the 16-bit result -/
  refout : Bool
  /-- final XOR -/
  xorout : Half
  deriving DecidableEq, Repr

/-- `CRC16_FN` of R5, as data. R5 leaves the function open: `params` names a member of the family of R75,
`external k` names any other function, of which nothing is known (`Config.externalCrc`; assumption 2). -/
inductive CrcFn where
  | params (p : CrcParams)
  | external (k : Nat)
  deriving DecidableEq, Repr

/-- The implementation parameters of R5: the arguments a model takes, held beside the sessions and never
written (R26; assumption 1). -/
structure Config where
  /-- `MARKER`: the byte that opens every frame -/
  marker : Byte
  /-- `CRC16_FN`: one function for both directions (R71) -/
  crc : CrcFn
  /-- `B_RX`: receive buffer capacity in bytes -/
  bRx : Nat
  /-- `B_TX`: transmit buffer capacity in bytes -/
  bTx : Nat
  /-- `RET_W`: width of a handler's signed return value -/
  retW : Nat
  deriving DecidableEq, Repr

/-- The constraints R5 puts on the parameters. -/
abbrev Config.Valid (c : Config) : Prop := 6 ≤ c.bRx ∧ 8 ≤ c.bTx ∧ 2 ≤ c.retW

/-- CRC-16/CCITT-FALSE, the spec's default instance (R72, R75). -/
def CrcParams.ccittFalse : CrcParams :=
  { poly := 0x1021, init := 0xFFFF, refin := false, refout := false, xorout := 0x0000 }

/-- The defaults of R5's last column, the spec's own choices D1 to D4 and D21 (DESIGN CHOICE,
assumption 1). -/
def Config.default : Config :=
  { marker := 0xA5, crc := .params CrcParams.ccittFalse, bRx := 64, bTx := 64, retW := 32 }

/-- The checksum function named `external k`: total and deterministic (R70, R73), otherwise unknown. -/
opaque Config.externalCrc : Nat → List Byte → Half

/-- Response status: the two-valued type of R53 and R104. -/
inductive Status where
  | ok
  | error
  deriving DecidableEq, Repr, Inhabited

/-- What a handler leaves when it returns (R104). An out-parameter it did not set is `none` and keeps its
default (OK, None, 0; D13). `ret` holds the `RET_W` bits of the signed return value (assumption 14).
`outputLen` is a natural number: R104 bounds it by the capacity alone. -/
structure HandlerOutcome where
  ret : Nat
  status : Option Status
  errorCode : Option Byte
  outputLen : Option Nat
  /-- the bytes stored through the output view, from its start -/
  written : List Byte
  deriving DecidableEq, Repr, Inhabited

/-- The obligations of a handler or transmit callback that no length shows (R104, R132, R169, R184, R185). -/
inductive Breach where
  /-- it wrote outside the view it was handed -/
  | wroteOutsideView
  /-- it called an operation on the same session, or changed the table in use -/
  | reentered
  /-- it kept a view beyond its return -/
  | keptView
  /-- it did not return -/
  | didNotReturn
  deriving DecidableEq, Repr, Inhabited

/-- How a handler's run ends: it returns an outcome, or it breaks an obligation. -/
inductive HandlerResult where
  | returned (o : HandlerOutcome)
  | breached (b : Breach)
  deriving DecidableEq, Repr, Inhabited

/-- A handler as data (R26 makes handlers parameters; assumption 3). `external k` is an arbitrary pure
function of the request view, `Config.externalHandler k`. `fixed` ignores the request; `echo` is the ECHO
fixture of `95_test_vectors.md` section 1. -/
inductive Handler where
  | external (k : Nat)
  | fixed (r : HandlerResult)
  | echo
  deriving DecidableEq, Repr

/-- The handler named `external k`: a pure function of command id, payload and capacity (R104), otherwise
unknown. -/
opaque Config.externalHandler : Nat → Byte → List Byte → Nat → HandlerResult

/-- What the 16-bit field `output_len` (R17) holds after a handler within its contract reports a length of more
than 65535, which only an `OUT_CAP` above 65535 allows: the spec states no value (assumption 13). -/
opaque Config.longOutputLen : Nat → Half

/-- The transmit callback as data: it returns, having read the frame (R132, U13), or it breaks an
obligation of R184 or R185. The block reads nothing from it (D32). -/
inductive Callback where
  | conforming
  | breaching (b : Breach)
  deriving DecidableEq, Repr, Inhabited

end Sys2Proof
end

