-- ==== Sys2Proof/Syntax.lean ====
section
/-!
DEFINITION. The instruction set: one constructor per row of spec/opcode_table.json (R60, R62). An operation
carries the operands R60 gives it; a session or server instance is named by the host's handle for it
(assumption 7).
-/

namespace Sys2Proof

/-- The connection a frame arrives on: which server instance and session its transport calls PROCESS with,
and the transmit callback it passes (R131, R132, R134). -/
structure Link where
  server : Nat
  session : Nat
  callback : Callback
  deriving DecidableEq, Repr

/-- The rows of the opcode table. The first five are frames arriving on a session's input (R50, R51, R57;
assumption 10), the others the operations of the host interface (R60). -/
inductive Instr where
  /-- REQ: a request frame, with the checksum field it carries (R50) -/
  | req (link : Link) (cmd : Byte) (payload : List Byte) (crc : Half)
  /-- RSP.OK: a response frame with status 0 (R51) -/
  | rspOk (link : Link) (cmd err : Byte) (output : List Byte) (crc : Half)
  /-- RSP.ERR: a response frame with status 1 other than the two rows below (R51) -/
  | rspErr (link : Link) (cmd err : Byte) (output : List Byte) (crc : Half)
  /-- RSP.ERR.UNKNOWN: status 1, error code 1, length 0 (R154) -/
  | rspErrUnknown (link : Link) (cmd : Byte) (crc : Half)
  /-- RSP.ERR.INTERNAL: status 1, error code 4, length 0 (R155) -/
  | rspErrInternal (link : Link) (cmd : Byte) (crc : Half)
  /-- CRC16: `none` is the undefined or null input of R70 -/
  | crc16 (bytes : Option (List Byte))
  /-- SESSION_INIT (R130) -/
  | sessionInit (s : Nat)
  /-- DEC_RESET (R81) -/
  | decReset (s : Nat)
  /-- FEED.AM (R85) -/
  | feedAm (s : Nat) (chunk : List Byte)
  /-- FEED.ALF (R86) -/
  | feedAlf (s : Nat) (chunk : List Byte)
  /-- FEED.AP (R88) -/
  | feedAp (s : Nat) (chunk : List Byte)
  /-- FEED.AC (R89) -/
  | feedAc (s : Nat) (chunk : List Byte)
  /-- FEED.CP (R90) -/
  | feedCp (s : Nat) (chunk : List Byte)
  /-- TABLE_INIT (R100) -/
  | tableInit (t : Nat)
  /-- REGISTER: `none` is the null handler (R101) -/
  | register (t : Nat) (cmd : Byte) (handler : Option Handler)
  /-- LOOKUP (R102) -/
  | lookup (t : Nat) (cmd : Byte)
  /-- DISPATCH (R105) -/
  | dispatch (t s : Nat)
  /-- ENCODE_RESPONSE (R115) -/
  | encodeResponse (s : Nat)
  /-- ENCODE_REQUEST (R117) -/
  | encodeRequest (cmd : Byte) (payload : List Byte)
  /-- PROCESS (R134) -/
  | process (t s : Nat) (input : List Byte) (callback : Callback)
  deriving DecidableEq, Repr

end Sys2Proof
end

