-- ==== Sys2Proof/WellFormed.lean ====
section
/-!
DEFINITION. The checks on an instruction as syntax: a length fits its 16-bit field, and a frame is written
as the most specific row that fits it (the table's note on RSP.ERR).
-/

namespace Sys2Proof

/-- A byte sequence whose length fits a 16-bit length field (R50, R51, R117). -/
def lengthFits (bytes : List Byte) : Bool := decide (bytes.length ≤ 65535)

/-- The two images that have rows of their own: error code 1 or 4 with no output (R154, R155). -/
def hasOwnErrorRow (err : Byte) (output : List Byte) : Bool :=
  (err == 1 || err == 4) && output.isEmpty

/-- An instruction that some word of the table stands for. Operand handles, command ids, checksums and
chunks have no constraint: every value is legal (R55, R57, R131). -/
def Instr.wellFormed : Instr → Bool
  | .req _ _ payload _ => lengthFits payload
  | .rspOk _ _ _ output _ => lengthFits output
  | .rspErr _ _ err output _ => lengthFits output && !hasOwnErrorRow err output
  | .rspErrUnknown _ _ _ => true
  | .rspErrInternal _ _ _ => true
  | .crc16 _ => true
  | .sessionInit _ => true
  | .decReset _ => true
  | .feedAm _ _ => true
  | .feedAlf _ _ => true
  | .feedAp _ _ => true
  | .feedAc _ _ => true
  | .feedCp _ _ => true
  | .tableInit _ => true
  | .register _ _ _ => true
  | .lookup _ _ => true
  | .dispatch _ _ => true
  | .encodeResponse _ => true
  | .encodeRequest _ payload => lengthFits payload
  | .process _ _ _ _ => true

end Sys2Proof
end

