-- ==== Sys2Proof/Decode.lean ====
section
/-!
DEFINITION. The encodings of R50, R51, R60 and R62: byte order, the transactions of the host interface, the
decoder from a transaction to an instruction, the encoder back, and the two readings of an opcode-table word
the host asks for. The spec encodes an operation's select bits and a frame's bytes; it gives operands no
encoding, so a transaction carries them beside the word (assumption 6).
-/

namespace Sys2Proof

/-- `BE16(hi, lo)` (R7, R34). -/
def be16 (hi lo : Byte) : Half := hi ++ lo

/-- `hi8(v) = v[15:8]` (R7). -/
def hi8 (v : Half) : Byte := v.extractLsb' 8 8

/-- `lo8(v) = v[7:0]` (R7). -/
def lo8 (v : Half) : Byte := v.extractLsb' 0 8

/-- The two bytes of a 16-bit field, most significant first (R34). -/
def halfBytes (v : Half) : List Byte := [hi8 v, lo8 v]

/-- The 16-bit length field of a byte sequence (R50, R51). -/
def lengthField (bytes : List Byte) : Half := BitVec.ofNat 16 bytes.length

/-- The request frame image (R50). -/
def reqImage (marker cmd : Byte) (payload : List Byte) (crc : Half) : List Byte :=
  marker :: cmd :: (halfBytes (lengthField payload) ++ (payload ++ halfBytes crc))

/-- The status byte of a response (R53). -/
def statusByte : Status → Byte
  | .ok => 0
  | .error => 1

/-- The response frame image (R51). -/
def rspImage (marker cmd : Byte) (status : Status) (err : Byte) (output : List Byte) (crc : Half) :
    List Byte :=
  marker :: cmd :: statusByte status :: err ::
    (halfBytes (lengthField output) ++ (output ++ halfBytes crc))

/-- The formats of the table's `format` column: frames REQ and RSP, operations OP (R62). A response's first
bytes also fit a request's; the format, not the bytes, tells them apart (R57). -/
inductive Format where
  | req
  | rsp
  | op
  deriving DecidableEq, Repr

/-- The operands a transaction carries beside its word. An operation reads those R60 gives it. -/
structure Args where
  server : Nat
  session : Nat
  cmd : Byte
  /-- `none` is the null handler -/
  handler : Option Handler
  /-- the byte-sequence operand; `none` is an undefined one -/
  bytes : Option (List Byte)
  callback : Callback
  deriving DecidableEq, Repr

/-- One transaction of the host interface (R6): a word in one of the three formats, and its operands. -/
structure Command where
  fmt : Format
  word : List Byte
  args : Args
  deriving DecidableEq, Repr

/-- Why a transaction is no instruction. -/
inductive DecodeError where
  /-- the word has not the number of bytes its format and length field give it -/
  | wrongLength
  /-- the first byte of a frame is not `MARKER` (R50, R51) -/
  | notMarker (b : Byte)
  /-- a status byte of 2 to 255 (R53, R57) -/
  | undefinedStatus (b : Byte)
  /-- operation selects 0xB to 0xF, and bytes that are no select at all (R60, R169) -/
  | unassignedSelect (b : Byte)
  /-- phase codes 5 to 7 (R58, R169) -/
  | undefinedPhase (b : Byte)
  /-- the select of FEED without its three phase bits (R60): the phase register supplies them -/
  | phaseMissing
  /-- an undefined byte sequence where the operation takes a defined one (R83, R117, R134) -/
  | operandUndefined
  /-- a payload longer than a length field can say (R117) -/
  | payloadTooLong
  deriving DecidableEq, Repr

/-- The connection of a frame's transaction. -/
def Args.link (a : Args) : Link := { server := a.server, session := a.session, callback := a.callback }

/-- The operands that are all zero: handle 0, no bytes, handler number 0 (assumption 6). -/
def Args.zero : Args :=
  { server := 0, session := 0, cmd := 0, handler := some (.external 0), bytes := some [],
    callback := .conforming }

/-- Split the bytes after a frame's header into the declared `n` payload bytes and the checksum field. -/
def splitBody (n : Nat) (body : List Byte) : Option (List Byte × Half) :=
  match body.drop n with
  | [c1, c0] => some (body.take n, be16 c1 c0)
  | _ => none

/-- A request frame (R50). -/
def decodeReq (marker : Byte) (a : Args) : List Byte → Except DecodeError Instr
  | m :: cmd :: l1 :: l0 :: body =>
    if m ≠ marker then .error (.notMarker m) else
    match splitBody (be16 l1 l0).toNat body with
    | some (payload, crc) => .ok (.req a.link cmd payload crc)
    | none => .error .wrongLength
  | _ => .error .wrongLength

/-- The row of a response with status 1: the most specific that fits (R154, R155, R51). -/
def errorRow (l : Link) (cmd err : Byte) (output : List Byte) (crc : Half) : Instr :=
  if err = 1 ∧ output = [] then .rspErrUnknown l cmd crc
  else if err = 4 ∧ output = [] then .rspErrInternal l cmd crc
  else .rspErr l cmd err output crc

/-- A response frame (R51, R53). -/
def decodeRsp (marker : Byte) (a : Args) : List Byte → Except DecodeError Instr
  | m :: cmd :: st :: err :: l1 :: l0 :: body =>
    if m ≠ marker then .error (.notMarker m) else
    match splitBody (be16 l1 l0).toNat body with
    | none => .error .wrongLength
    | some (output, crc) =>
      if st = 0 then .ok (.rspOk a.link cmd err output crc)
      else if st = 1 then .ok (errorRow a.link cmd err output crc)
      else .error (.undefinedStatus st)
  | _ => .error .wrongLength

/-- The byte-sequence operand, where it must be defined. -/
def Args.definedBytes (a : Args) : Except DecodeError (List Byte) :=
  match a.bytes with
  | some bs => .ok bs
  | none => .error .operandUndefined

/-- The operation-select codes of R60: bits 3 to 0 alone, or for FEED 0011 followed by the phase bits. -/
def decodeOp (a : Args) : List Byte → Except DecodeError Instr
  | [b] =>
    match b.toNat with
    | 0x0 => .ok (.crc16 a.bytes)
    | 0x1 => .ok (.sessionInit a.session)
    | 0x2 => .ok (.decReset a.session)
    | 0x3 => .error .phaseMissing
    | 0x4 => .ok (.tableInit a.server)
    | 0x5 => .ok (.register a.server a.cmd a.handler)
    | 0x6 => .ok (.lookup a.server a.cmd)
    | 0x7 => .ok (.dispatch a.server a.session)
    | 0x8 => .ok (.encodeResponse a.session)
    | 0x9 => do
      let p ← a.definedBytes
      if lengthFits p then .ok (.encodeRequest a.cmd p) else .error .payloadTooLong
    | 0xA => do .ok (.process a.server a.session (← a.definedBytes) a.callback)
    | 0x18 => do .ok (.feedAm a.session (← a.definedBytes))
    | 0x19 => do .ok (.feedAlf a.session (← a.definedBytes))
    | 0x1A => do .ok (.feedAp a.session (← a.definedBytes))
    | 0x1B => do .ok (.feedAc a.session (← a.definedBytes))
    | 0x1C => do .ok (.feedCp a.session (← a.definedBytes))
    | 0x1D => .error (.undefinedPhase b)
    | 0x1E => .error (.undefinedPhase b)
    | 0x1F => .error (.undefinedPhase b)
    | _ => .error (.unassignedSelect b)
  | _ => .error .wrongLength

/-- The decoder: total on any transaction, rejecting by name. -/
def decode (marker : Byte) (c : Command) : Except DecodeError Instr :=
  match c.fmt with
  | .req => decodeReq marker c.args c.word
  | .rsp => decodeRsp marker c.args c.word
  | .op => decodeOp c.args c.word

/-- The operands of a frame that arrives on a connection. -/
def Link.args (l : Link) : Args :=
  { Args.zero with server := l.server, session := l.session, callback := l.callback }

/-- A transaction of format OP: its select code and operands (R60). -/
def opCommand (code : Byte) (a : Args) : Command := { fmt := .op, word := [code], args := a }

/-- The operands of a FEED: its session and chunk. -/
def feedArgs (s : Nat) (chunk : List Byte) : Args := { Args.zero with session := s, bytes := some chunk }

/-- The encoder, from the tables of R50, R51 and R60. -/
def encode (marker : Byte) : Instr → Command
  | .req l cmd payload crc => { fmt := .req, word := reqImage marker cmd payload crc, args := l.args }
  | .rspOk l cmd err output crc =>
    { fmt := .rsp, word := rspImage marker cmd .ok err output crc, args := l.args }
  | .rspErr l cmd err output crc =>
    { fmt := .rsp, word := rspImage marker cmd .error err output crc, args := l.args }
  | .rspErrUnknown l cmd crc =>
    { fmt := .rsp, word := rspImage marker cmd .error 1 [] crc, args := l.args }
  | .rspErrInternal l cmd crc =>
    { fmt := .rsp, word := rspImage marker cmd .error 4 [] crc, args := l.args }
  | .crc16 bytes => opCommand 0b0000 { Args.zero with bytes := bytes }
  | .sessionInit s => opCommand 0b0001 { Args.zero with session := s }
  | .decReset s => opCommand 0b0010 { Args.zero with session := s }
  | .feedAm s chunk => opCommand 0b0011000 (feedArgs s chunk)
  | .feedAlf s chunk => opCommand 0b0011001 (feedArgs s chunk)
  | .feedAp s chunk => opCommand 0b0011010 (feedArgs s chunk)
  | .feedAc s chunk => opCommand 0b0011011 (feedArgs s chunk)
  | .feedCp s chunk => opCommand 0b0011100 (feedArgs s chunk)
  | .tableInit t => opCommand 0b0100 { Args.zero with server := t }
  | .register t cmd handler => opCommand 0b0101 { Args.zero with server := t, cmd := cmd, handler := handler }
  | .lookup t cmd => opCommand 0b0110 { Args.zero with server := t, cmd := cmd }
  | .dispatch t s => opCommand 0b0111 { Args.zero with server := t, session := s }
  | .encodeResponse s => opCommand 0b1000 { Args.zero with session := s }
  | .encodeRequest cmd payload => opCommand 0b1001 { Args.zero with cmd := cmd, bytes := some payload }
  | .process t s input callback =>
    opCommand 0b1010 { Args.zero with server := t, session := s, bytes := some input, callback := callback }

/-- The `n` low bytes of a number, most significant first: the table reads a frame's header as one
big-endian number (R62). -/
def bytesBE : Nat → Nat → List Byte
  | 0, _ => []
  | n + 1, w => BitVec.ofNat 8 (w >>> (8 * n)) :: bytesBE n w

/-- The zero bytes that follow a frame's header: the length it declares, and the checksum field. -/
def zeroTail : List Byte → List Byte
  | [l1, l0] => List.replicate ((be16 l1 l0).toNat + 2) 0
  | _ :: bs => zeroTail bs
  | [] => []

/-- The transaction of an opcode-table word: 4 header bytes are a request, 6 a response, anything else an
operation's select bits, right-aligned; everything the table gives no bits is zero (assumption 6). -/
def tableCommand (nbits w : Nat) : Command :=
  let header := bytesBE ((nbits + 7) / 8) w
  match header.length with
  | 4 => { fmt := .req, word := header ++ zeroTail header, args := Args.zero }
  | 6 => { fmt := .rsp, word := header ++ zeroTail header, args := Args.zero }
  | _ => { fmt := .op, word := header, args := Args.zero }

/-- The instruction the decoder reads from an opcode-table word, under the default marker the table is
written for (R62, D1). -/
def decodeTableWord (nbits w : Nat) : Option Instr :=
  (decode Config.default.marker (tableCommand nbits w)).toOption

end Sys2Proof
end

