-- ==== Sys2Proof/Machine/State.lean ====
section
/-!
DEFINITION. The machine's state as plain data: sessions (R10, R12 to R17), server instances (R11), the
configuration record (R26) and the host interface's port, result and transmitted frames; the reasons a step
can stop; and the state after reset (R25, R175, R176).
-/

namespace Sys2Proof.Machine

/-- The contents of a buffer: (offset, byte) pairs, offsets strictly rising, no byte 0. An unlisted offset
reads as 0, the value SESSION_INIT gives every byte (R25; assumption 18). -/
abbrev Memory := List Host.Cell

/-- `phase`, in the order of R12. -/
inductive Phase where
  | awaitMarker
  | awaitLengthField
  | awaitPayload
  | awaitChecksum
  | complete
  deriving DecidableEq, Repr

/-- `decoder_state` (R10): the phase and the two counters, natural numbers that never wrap (R12 to R14). -/
structure Decoder where
  phase : Phase
  accumulated : Nat
  expected : Nat
  deriving DecidableEq, Repr

/-- `current_request` (R17), without its constant fields. -/
structure CurrentRequest where
  cmdId : Byte
  payloadLen : Half
  status : Status
  errorCode : Byte
  outputLen : Half
  deriving DecidableEq, Repr

/-- A session (R10). -/
structure Session where
  /-- `sess_init`: SESSION_INIT has run -/
  sessInit : Bool
  decoder : Decoder
  /-- `receive_buffer` -/
  rx : Memory
  /-- `transmit_buffer` -/
  tx : Memory
  /-- `current_request` -/
  req : CurrentRequest
  deriving DecidableEq, Repr

/-- A binding of the dispatch table: command id and handler (R11). -/
abbrev Binding := Byte × Handler

/-- A server instance (R11). -/
structure Server where
  /-- `srv_init`: TABLE_INIT has run -/
  srvInit : Bool
  table : List Binding
  deriving DecidableEq, Repr

/-- A session on which SESSION_INIT has not run: R25 calls its other fields unspecified, and no operation
reads them (assumption 8). -/
def Session.blank : Session :=
  { sessInit := false
    decoder := { phase := .awaitMarker, accumulated := 0, expected := 0 }
    rx := []
    tx := []
    req := { cmdId := 0, payloadLen := 0, status := .ok, errorCode := 0, outputLen := 0 } }

/-- A server instance on which TABLE_INIT has not run (R25; assumption 8). -/
def Server.blank : Server := { srvInit := false, table := [] }

/-- The failure kinds of FEED (R59, R150). -/
inductive FeedError where
  | badMarker
  | frameTooLong
  | checksumError
  deriving DecidableEq, Repr

/-- FEED's result: the number of bytes consumed, or a failure without a count (R80). -/
inductive FeedResult where
  | ok (n : Nat)
  | err (kind : FeedError)
  deriving DecidableEq, Repr

/-- The failure kinds of REGISTER (R59, R150). -/
inductive RegisterError where
  | nullHandler
  | notInitialised
  deriving DecidableEq, Repr

/-- REGISTER's result (R101). -/
inductive RegisterResult where
  | ok
  | err (kind : RegisterError)
  deriving DecidableEq, Repr

/-- What the last operation returned: R60's result column. -/
inductive OpResult where
  /-- the operation returns nothing -/
  | none
  /-- CRC16 -/
  | checksum (v : Half)
  /-- FEED -/
  | feed (r : FeedResult)
  /-- REGISTER -/
  | register (r : RegisterResult)
  /-- LOOKUP: a handler, or `none` for NotFound -/
  | lookup (h : Option Handler)
  /-- ENCODE_RESPONSE: the encoded length -/
  | encodedLength (n : Nat)
  /-- ENCODE_REQUEST: the frame -/
  | frame (bytes : List Byte)
  deriving DecidableEq, Repr

/-- One call of the transmit callback: `transmit_callback(frame, tlen)` (R132), and the session it was for. -/
structure Transmission where
  session : Nat
  frame : List Byte
  tlen : Nat
  deriving DecidableEq, Repr

/-- The two buffers of a session (R30). -/
inductive Space where
  | rx
  | tx
  deriving DecidableEq, Repr

/-- The machine's faults. -/
inductive Fault where
  /-- An access to a buffer at or beyond its capacity, which R37 says never happens. Raised by the checked
  reads and writes of Machine/Ops.lean. Safe: the machine stops; a statement says that no step from a state
  of the invariant raises it. -/
  | outOfBounds (space : Space) (offset : Nat)
  deriving DecidableEq, Repr

/-- The situations to which the spec gives no meaning (R169: "a model refuses each"). All are safe: there is
no next state. -/
inductive Refusal where
  /-- Raised by exec's arm of an instruction that has no meaning yet (safe). -/
  | notModelled (mnemonic : String)
  /-- Raised by step on a transaction that is no instruction: an unassigned select, an undefined phase code,
  a malformed frame word, an undefined operand (R58, R60, R169). -/
  | undecodable (e : DecodeError)
  /-- Raised by a session operation on a session SESSION_INIT has not run on (R169, D23). -/
  | sessionNotInitialised
  /-- Raised by LOOKUP, DISPATCH and PROCESS on a server instance TABLE_INIT has not run on (R169, D23). -/
  | serverNotInitialised
  /-- Raised by CRC16 on an undefined or null input (R70, U1). -/
  | inputUndefined
  /-- Raised by a FEED form whose phase bits are not the session's phase (R60; assumption 16). -/
  | phaseMismatch
  /-- Raised by FEED.CP (R90). -/
  | feedInComplete
  /-- Raised by FEED where `DecInv` does not hold: a failed FEED was not followed by a reset (R83). -/
  | feedPrecondition
  /-- Raised by PROCESS entered in phase Complete (R169). -/
  | processInComplete
  /-- Raised by PROCESS entered where `DecInv` does not hold (R134). -/
  | processPrecondition
  /-- Raised by DISPATCH and PROCESS when a handler reports more output than its capacity (R104, D16). -/
  | handlerOutputTooLong
  /-- Raised by DISPATCH and PROCESS when a handler writes more bytes than its capacity (R104, R169). -/
  | handlerWroteTooMuch
  /-- Raised by DISPATCH and PROCESS when a handler breaks another obligation (R104, R169, D22). -/
  | handlerBreach (b : Breach)
  /-- Raised by PROCESS when the transmit callback breaks an obligation (R169, R184, R185). -/
  | callbackBreach (b : Breach)
  /-- Raised by ENCODE_RESPONSE when `output_len` exceeds `OUT_CAP` (R116, D16). -/
  | responseTooLong
  /-- Raised by ENCODE_REQUEST when the payload is longer than 65535 bytes (R117). -/
  | payloadTooLong
  deriving DecidableEq, Repr

/-- Why an operation stops. -/
inductive Stop where
  | fault (f : Fault)
  | refuse (r : Refusal)
  deriving DecidableEq, Repr

/-- What an operation answers: a value, or the reason it stops. -/
abbrev Res (α : Type) := Except Stop α

/-- The state inside one PROCESS call (R24, R134): the session, the input cursor `cur`, and the frames handed
to the callback so far, oldest first. -/
structure Run where
  sess : Session
  cur : Nat
  frames : List (List Byte)
  deriving DecidableEq, Repr

/-- The machine. Sessions and server instances are listed under the host's handle for them, handles strictly
rising, no entry equal to a blank one; an unlisted handle names a blank one (assumption 7). -/
structure State where
  /-- the parameters of R5; no operation writes them (R26) -/
  cfg : Config
  sessions : List (Nat × Session)
  servers : List (Nat × Server)
  /-- the transactions issued and not yet begun, oldest first (assumption 4) -/
  port : List Command
  /-- the result of the last operation (assumption 9) -/
  result : OpResult
  /-- the calls of the transmit callback, oldest first (assumption 9) -/
  sent : List Transmission
  deriving DecidableEq, Repr

/-- The machine after reset. R175: a reset signal equals SESSION_INIT plus TABLE_INIT, so the session and the
server instance of handle 0 hold the values of R25 and R176; the parameters are the defaults of R5
(assumptions 1, 7). -/
def State.reset : State :=
  { cfg := Config.default
    sessions := [(0, { Session.blank with sessInit := true })]
    servers := [(0, { Server.blank with srvInit := true })]
    port := []
    result := .none
    sent := [] }

end Sys2Proof.Machine
end

