-- ==== Sys2Proof/Machine/Ops.lean ====
section
/-!
DEFINITION. The named operations over state: sparse maps in canonical form, the two buffers with checked
access (R30, R37), sessions and server instances by handle, and the block's one exceptional entry, the resync
of R158.
-/

namespace Sys2Proof.Machine

/-! ### Sparse maps: what memories, sessions and server instances are held in -/

/-- The value at a key; `d` where the key is not listed. -/
def Sparse.get {α : Type} (d : α) : List (Nat × α) → Nat → α
  | [], _ => d
  | (a, v) :: m, k => if a = k then v else Sparse.get d m k

/-- List a value, keeping the keys in rising order. -/
def Sparse.insert {α : Type} (k : Nat) (v : α) : List (Nat × α) → List (Nat × α)
  | [] => [(k, v)]
  | (a, w) :: m =>
    if k < a then (k, v) :: (a, w) :: m
    else if k = a then (k, v) :: m
    else (a, w) :: Sparse.insert k v m

/-- Unlist a key. -/
def Sparse.erase {α : Type} (k : Nat) (m : List (Nat × α)) : List (Nat × α) :=
  m.filter (fun e => !decide (e.1 = k))

/-- Write a value; writing what an unlisted key reads as unlists it. -/
def Sparse.set {α : Type} [DecidableEq α] (d : α) (m : List (Nat × α)) (k : Nat) (v : α) :
    List (Nat × α) :=
  if v = d then Sparse.erase k m else Sparse.insert k v m

/-- The canonical form: keys strictly rising, no entry equal to what an unlisted key reads as. -/
abbrev Sparse.wf {α : Type} (d : α) (m : List (Nat × α)) : Prop :=
  m.Pairwise (fun e f => e.1 < f.1) ∧ ∀ e ∈ m, e.2 ≠ d

/-! ### Buffers -/

/-- The byte at an offset, without a bound check. -/
def Memory.get (m : Memory) (a : Nat) : Byte := Sparse.get 0 m a

/-- Store a byte, without a bound check. -/
def Memory.set (m : Memory) (a : Nat) (b : Byte) : Memory := Sparse.set 0 m a b

/-- The `n` bytes from offset `a`, ascending (R36). -/
def Memory.getBytes (m : Memory) : Nat → Nat → List Byte
  | _, 0 => []
  | a, n + 1 => Memory.get m a :: Memory.getBytes m (a + 1) n

/-- Store bytes from offset `a`, ascending (R36). -/
def Memory.setBytes (m : Memory) : Nat → List Byte → Memory
  | _, [] => m
  | a, b :: bs => Memory.setBytes (Memory.set m a b) (a + 1) bs

/-- The canonical form of a buffer. -/
abbrev Memory.wf (m : Memory) : Prop := Sparse.wf (0 : Byte) m

/-- Every listed offset lies below the capacity. -/
abbrev Memory.within (cap : Nat) (m : Memory) : Prop := ∀ e ∈ m, e.1 < cap

/-- The capacity of a buffer (R5). -/
def capacity (c : Config) : Space → Nat
  | .rx => c.bRx
  | .tx => c.bTx

/-- The bound check: the range `[a, a + n)` lies inside the buffer (R37). -/
def checkRange (c : Config) (sp : Space) (a n : Nat) : Res Unit :=
  if n = 0 ∨ a + n ≤ capacity c sp then .ok () else .error (.fault (.outOfBounds sp (a + n - 1)))

/-- `MemRead(space, addr, n)` (R7). -/
def memRead (c : Config) (sp : Space) (m : Memory) (a n : Nat) : Res (List Byte) := do
  checkRange c sp a n
  .ok (Memory.getBytes m a n)

/-- `MemWrite(space, addr, n, v)` (R7). -/
def memWrite (c : Config) (sp : Space) (m : Memory) (a : Nat) (v : List Byte) : Res Memory := do
  checkRange c sp a v.length
  .ok (Memory.setBytes m a v)

/-- A 16-bit field: the two bytes at `a` and `a + 1`, big-endian (R34, R35). -/
def memReadHalf (c : Config) (sp : Space) (m : Memory) (a : Nat) : Res Half := do
  checkRange c sp a 2
  .ok (be16 (Memory.get m a) (Memory.get m (a + 1)))

/-! ### Sessions and server instances by handle -/

/-- The session of a handle. -/
def State.session (s : State) (k : Nat) : Session := Sparse.get Session.blank s.sessions k

/-- Put a session under a handle. -/
def State.setSession (s : State) (k : Nat) (x : Session) : State :=
  { s with sessions := Sparse.set Session.blank s.sessions k x }

/-- The server instance of a handle. -/
def State.server (s : State) (k : Nat) : Server := Sparse.get Server.blank s.servers k

/-- Put a server instance under a handle. -/
def State.setServer (s : State) (k : Nat) (x : Server) : State :=
  { s with servers := Sparse.set Server.blank s.servers k x }

/-- Record what an operation returned. -/
def State.setResult (s : State) (r : OpResult) : State := { s with result := r }

/-- Record calls of the transmit callback for a session (R132). -/
def State.addSent (s : State) (k : Nat) (frames : List (List Byte)) : State :=
  { s with sent := s.sent ++ frames.map (fun f => { session := k, frame := f, tlen := f.length }) }

/-- An operation's answer as the outcome of a step. -/
def Res.toOutcome : Res State → Host.Outcome State Fault Refusal
  | .ok s => .next s
  | .error (.fault f) => .fault f
  | .error (.refuse r) => .refused r

/-- Stop unless a condition holds. -/
def require (b : Bool) (r : Refusal) : Res Unit := if b then .ok () else .error (.refuse r)

/-! ### Reset of the decoder, and the resync (R158) -/

/-- DEC_RESET's three assignments (R81). -/
def Session.decReset (x : Session) : Session :=
  { x with decoder := { phase := .awaitMarker, accumulated := 0, expected := 0 } }

/-- Resync, the block's only exceptional entry: reset the decoder and advance the cursor by exactly one byte.
Nothing is saved, and there is no return from it: the loop goes on with the next byte (R158, R159). -/
def Run.resync (r : Run) : Run := { r with sess := Session.decReset r.sess, cur := r.cur + 1 }

end Sys2Proof.Machine
end

