-- ==== Sys2Proof/Machine/Operands.lean ====
section
/-!
DEFINITION. How an operation reaches its operands: the session or server instance a handle names, which must
be initialised (R169), the constants of the two layouts (R5, R17, R31, R32), and the numbers R58 and R59 give
phases and failure kinds.
-/

namespace Sys2Proof.Machine

/-- Start of the payload view in `rx`, and the request header's size (R5, R17). -/
def payloadOff : Nat := 4

/-- Start of the output view in `tx`, and the response header's size (R5, R17). -/
def outputOff : Nat := 6

/-- Offset of the length field of a request (R5). -/
def lenOff : Nat := 2

/-- Size of a length field (R5). -/
def lenSize : Nat := 2

/-- Size of the checksum trailer (R5). -/
def trailer : Nat := 2

/-- `OUT_CAP = B_TX - 8`, the capacity of the output view (R5, R17). -/
def outCap (c : Config) : Nat := c.bTx - 8

/-- `N_MAX = min(65535, B_RX - 6)`, the largest payload the decoder accepts (R5, R87). -/
def nMax (c : Config) : Nat := min 65535 (c.bRx - 6)

/-- The session operand of an operation other than SESSION_INIT (R169, D23). -/
def State.readySession (s : State) (k : Nat) : Res Session :=
  if (State.session s k).sessInit then .ok (State.session s k) else .error (.refuse .sessionNotInitialised)

/-- The server operand of LOOKUP, DISPATCH and PROCESS (R169, D23). -/
def State.readyServer (s : State) (k : Nat) : Res Server :=
  if (State.server s k).srvInit then .ok (State.server s k) else .error (.refuse .serverNotInitialised)

/-- The declared payload length of the frame in `rx`: `N = BE16(rx[2], rx[3])` (R31, R34). -/
def Session.declaredLen (x : Session) : Nat := (be16 (Memory.get x.rx 2) (Memory.get x.rx 3)).toNat

/-- The phase register's codes (R58). -/
def Phase.code : Phase → Nat
  | .awaitMarker => 0
  | .awaitLengthField => 1
  | .awaitPayload => 2
  | .awaitChecksum => 3
  | .complete => 4

/-- The select of a FEED form: 0011 followed by the three phase bits (R60, R62). -/
def Phase.feedSelect (p : Phase) : Byte := BitVec.ofNat 8 (0x3 * 8 + Phase.code p)

/-- The codes of FEED's failure kinds (R59). -/
def FeedError.code : FeedError → Nat
  | .badMarker => 1
  | .frameTooLong => 2
  | .checksumError => 3

/-- The codes of REGISTER's failure kinds (R59). -/
def RegisterError.code : RegisterError → Nat
  | .nullHandler => 1
  | .notInitialised => 2

end Sys2Proof.Machine
end

