-- ==== Sys2Proof/Machine/Crc.lean ====
section
/-!
DEFINITION. The CRC engine: the checksum functions of R72 and R75, the engine's contract (R70, R71), and the
meaning of CRC16.
-/

namespace Sys2Proof.Machine

/-- One shift step of R72: shift left, and XOR the polynomial when bit 15 was 1. -/
def crcShift (poly crc : Half) : Half := if crc.msb then (crc <<< 1) ^^^ poly else crc <<< 1

/-- The eight shift steps of one byte. -/
def crcShift8 (poly crc : Half) : Half :=
  crcShift poly (crcShift poly (crcShift poly (crcShift poly
    (crcShift poly (crcShift poly (crcShift poly (crcShift poly crc)))))))

/-- One byte of R72: XOR it into the high half, then eight shift steps. -/
def crcByte (poly crc : Half) (b : Byte) : Half := crcShift8 poly (crc ^^^ (b ++ (0 : Byte)))

/-- Reflect a value when the flag asks for it (R75). -/
def reflectIf {w : Nat} (flag : Bool) (v : BitVec w) : BitVec w := if flag then v.reverse else v

/-- A CRC of the family of R75. -/
def CrcParams.run (p : CrcParams) (bytes : List Byte) : Half :=
  reflectIf p.refout (bytes.foldl (fun crc b => crcByte p.poly crc (reflectIf p.refin b)) p.init) ^^^ p.xorout

/-- `CRC16_FN` (R5, R70, R71): total, deterministic, 16 bits. -/
def crc16Fn (c : Config) (bytes : List Byte) : Half :=
  match c.crc with
  | .params p => CrcParams.run p bytes
  | .external k => Config.externalCrc k bytes

/-- CRC16 (R70): the checksum of a defined byte sequence, the empty one included; an undefined input is
refused (R169, D35). No state is read or written but the result. -/
def execCrc16 (bytes : Option (List Byte)) (s : State) : Host.Outcome State Fault Refusal :=
  Res.toOutcome <|
    match bytes with
    | some bs => .ok (s.setResult (.checksum (crc16Fn s.cfg bs)))
    | none => .error (.refuse .inputUndefined)

end Sys2Proof.Machine
end

