-- ==== Sys2Proof/Machine/Decoder.lean ====
section
/-!
DEFINITION. The frame decoder: the invariant at rest (R22), the copy primitive (R82), FEED phase by phase
(R84 to R91), and the meanings of DEC_RESET and the five FEED forms.
-/

namespace Sys2Proof.Machine

/-- `DecInv` (R22), the row of the session's phase. With R23's bound: the whole declared frame fits `rx`. -/
def Session.decInv (c : Config) (x : Session) : Bool :=
  let a := x.decoder.accumulated
  let e := x.decoder.expected
  let n := x.declaredLen
  let headed := decide (Memory.get x.rx 0 = c.marker)
  match x.decoder.phase with
  | .awaitMarker => decide (a = 0) && decide (e = 0)
  | .awaitLengthField => headed && decide (1 ≤ a ∧ a ≤ 3 ∧ a + e = 4)
  | .awaitPayload =>
    headed && decide (4 ≤ a ∧ a + e = 4 + n ∧ 4 + n + 2 ≤ c.bRx) && decide (e = 0 → n = 0)
  | .awaitChecksum => headed && decide (4 + n ≤ a ∧ a ≤ 5 + n ∧ a + e = 6 + n ∧ 4 + n + 2 ≤ c.bRx)
  | .complete =>
    headed && decide (a = 6 + n ∧ e = 0 ∧ 4 + n + 2 ≤ c.bRx) &&
      decide (be16 (Memory.get x.rx (4 + n)) (Memory.get x.rx (5 + n)) =
        crc16Fn c (Memory.getBytes x.rx 0 (4 + n)))

/-- Set the phase. -/
def Session.setPhase (x : Session) (p : Phase) : Session := { x with decoder := { x.decoder with phase := p } }

/-- Set `expected`. -/
def Session.setExpected (x : Session) (n : Nat) : Session :=
  { x with decoder := { x.decoder with expected := n } }

/-- What `COPY` does with the bytes it takes (R82): they go to `rx` from offset `accumulated`, and the two
counters move by their number. -/
def Session.afterCopy (x : Session) (bs : List Byte) : Session :=
  { x with rx := Memory.setBytes x.rx x.decoder.accumulated bs,
           decoder := { x.decoder with accumulated := x.decoder.accumulated + bs.length,
                                       expected := x.decoder.expected - bs.length } }

/-- `COPY` (R82): take `min(len(chunk), expected)` bytes, all of them inside `rx` (R23, R37). -/
def copyChunk (c : Config) (x : Session) (chunk : List Byte) : Res (Nat × Session) := do
  let k := min chunk.length x.decoder.expected
  checkRange c .rx x.decoder.accumulated k
  .ok (k, x.afterCopy (chunk.take k))

/-- FEED in phase AwaitMarker (R85, R91): only the first byte is looked at. -/
def feedMarker (c : Config) (x : Session) (chunk : List Byte) : Res (FeedResult × Session) :=
  match chunk with
  | [] => .ok (.ok 0, x)
  | b :: _ =>
    if b = c.marker then do
      let rx ← memWrite c .rx x.rx 0 [b]
      .ok (.ok 1, { x with rx := rx, decoder := { phase := .awaitLengthField, accumulated := 1,
                                                  expected := (lenOff + lenSize) - 1 } })
    else .ok (.err .badMarker, x)

/-- FEED in phase AwaitLengthField (R86, R87): the rest of the header, then the length bound, in natural
numbers. -/
def feedLength (c : Config) (x : Session) (chunk : List Byte) : Res (FeedResult × Session) := do
  let (k, y) ← copyChunk c x chunk
  if 0 < y.decoder.expected then .ok (.ok k, y)
  else
    let n := (← memReadHalf c .rx y.rx lenOff).toNat
    let z := y.setExpected n
    if z.decoder.accumulated + z.decoder.expected + trailer > c.bRx then .ok (.err .frameTooLong, z)
    else .ok (.ok k, z.setPhase .awaitPayload)

/-- FEED in phase AwaitPayload (R88). -/
def feedPayload (c : Config) (x : Session) (chunk : List Byte) : Res (FeedResult × Session) := do
  let (k, y) ← copyChunk c x chunk
  if 0 < y.decoder.expected then .ok (.ok k, y)
  else .ok (.ok k, (y.setExpected trailer).setPhase .awaitChecksum)

/-- FEED in phase AwaitChecksum (R89): once both checksum bytes are in, all 16 bits are compared. -/
def feedChecksum (c : Config) (x : Session) (chunk : List Byte) : Res (FeedResult × Session) := do
  let (k, y) ← copyChunk c x chunk
  if 0 < y.decoder.expected then .ok (.ok k, y)
  else
    let a := y.decoder.accumulated
    let rcv ← memReadHalf c .rx y.rx (a - trailer)
    let sum := crc16Fn c (← memRead c .rx y.rx 0 (a - trailer))
    if rcv ≠ sum then .ok (.err .checksumError, y) else .ok (.ok k, y.setPhase .complete)

/-- FEED in phase Complete is no legal call (R90). -/
def feedComplete : Res (FeedResult × Session) := .error (.refuse .feedInComplete)

/-- The work of the current phase, and of that phase only (R84). -/
def feedPhase (c : Config) (x : Session) (chunk : List Byte) : Res (FeedResult × Session) :=
  match x.decoder.phase with
  | .awaitMarker => feedMarker c x chunk
  | .awaitLengthField => feedLength c x chunk
  | .awaitPayload => feedPayload c x chunk
  | .awaitChecksum => feedChecksum c x chunk
  | .complete => feedComplete

/-- FEED (R80, R83): the preconditions, then the current phase's work. -/
def feed (c : Config) (x : Session) (chunk : List Byte) : Res (FeedResult × Session) :=
  if x.decoder.phase = .complete then feedComplete
  else if x.decInv c then feedPhase c x chunk
  else .error (.refuse .feedPrecondition)

/-- A FEED form on an operand session: the form's phase bits must be the phase register's (R60). -/
def feedForm (p : Phase) (k : Nat) (chunk : List Byte) (s : State) : Res State := do
  let x ← s.readySession k
  require (decide (x.decoder.phase = p)) .phaseMismatch
  let (r, y) ← feed s.cfg x chunk
  .ok ((s.setSession k y).setResult (.feed r))

/-- DEC_RESET (R81): legal in every phase; buffers and `current_request` stay (D11). -/
def execDecReset (k : Nat) (s : State) : Host.Outcome State Fault Refusal :=
  Res.toOutcome do
    let x ← s.readySession k
    .ok ((s.setSession k x.decReset).setResult .none)

/-- FEED.AM (R85). -/
def execFeedAm (k : Nat) (chunk : List Byte) (s : State) : Host.Outcome State Fault Refusal :=
  Res.toOutcome (feedForm .awaitMarker k chunk s)

/-- FEED.ALF (R86). -/
def execFeedAlf (k : Nat) (chunk : List Byte) (s : State) : Host.Outcome State Fault Refusal :=
  Res.toOutcome (feedForm .awaitLengthField k chunk s)

/-- FEED.AP (R88). -/
def execFeedAp (k : Nat) (chunk : List Byte) (s : State) : Host.Outcome State Fault Refusal :=
  Res.toOutcome (feedForm .awaitPayload k chunk s)

/-- FEED.AC (R89). -/
def execFeedAc (k : Nat) (chunk : List Byte) (s : State) : Host.Outcome State Fault Refusal :=
  Res.toOutcome (feedForm .awaitChecksum k chunk s)

/-- FEED.CP (R90): no legal call; the spec gives it no behaviour. -/
def execFeedCp (k : Nat) (chunk : List Byte) (s : State) : Host.Outcome State Fault Refusal :=
  Res.toOutcome (feedForm .complete k chunk s)

end Sys2Proof.Machine
end

