-- ==== Sys2Proof/Machine/Encoder.lean ====
section
/-!
DEFINITION. The frame encoders (R115 to R118): the meanings of ENCODE_RESPONSE and ENCODE_REQUEST.
-/

namespace Sys2Proof.Machine

/-- The six header bytes of a response (R32, R51). -/
def responseHeader (c : Config) (r : CurrentRequest) : List Byte :=
  [c.marker, r.cmdId, statusByte r.status, r.errorCode, hi8 r.outputLen, lo8 r.outputLen]

/-- ENCODE_RESPONSE (R115): header, then the checksum over header and output, after the output. More output
than `OUT_CAP` is refused (R116, D16). The answer is the encoded length and the session. -/
def encodeFrame (c : Config) (x : Session) : Res (Nat × Session) := do
  let m := x.req.outputLen.toNat
  require (decide (m ≤ outCap c)) .responseTooLong
  let tx1 ← memWrite c .tx x.tx 0 (responseHeader c x.req)
  let crc := crc16Fn c (← memRead c .tx tx1 0 (outputOff + m))
  let tx2 ← memWrite c .tx tx1 (outputOff + m) (halfBytes crc)
  .ok (outputOff + m + trailer, { x with tx := tx2 })

/-- The bytes of a request before its checksum (R117). -/
def requestHead (c : Config) (cmd : Byte) (payload : List Byte) : List Byte :=
  c.marker :: cmd :: (halfBytes (lengthField payload) ++ payload)

/-- The request frame of a command id and payload, with its checksum (R117). -/
def requestFrame (c : Config) (cmd : Byte) (payload : List Byte) : List Byte :=
  requestHead c cmd payload ++ halfBytes (crc16Fn c (requestHead c cmd payload))

/-- ENCODE_RESPONSE as a host operation (R115). -/
def execEncodeResponse (k : Nat) (s : State) : Host.Outcome State Fault Refusal :=
  Res.toOutcome do
    let x ← s.readySession k
    let (tlen, y) ← encodeFrame s.cfg x
    .ok ((s.setSession k y).setResult (.encodedLength tlen))

/-- ENCODE_REQUEST (R117): the peer's side; no session is read or written. -/
def execEncodeRequest (cmd : Byte) (payload : List Byte) (s : State) : Host.Outcome State Fault Refusal :=
  Res.toOutcome do
    require (lengthFits payload) .payloadTooLong
    .ok (s.setResult (.frame (requestFrame s.cfg cmd payload)))

end Sys2Proof.Machine
end

