-- ==== Sys2Proof/Machine/Flags.lean ====
section
/-!
DEFINITION. The block has no flags (R20). What an operation computes in their place is the outcome of a
handler: the sign of its return value and the normalisation of R105 and R106.
-/

namespace Sys2Proof.Machine

/-- The sign of a handler's return value: its `RET_W` bits read as two's complement (R5, R105). -/
def retNegative (c : Config) (ret : Nat) : Bool := (BitVec.ofNat c.retW ret).msb

/-- The defaults of the three out-parameters before a handler runs (R105, D13). -/
def CurrentRequest.withDefaults (r : CurrentRequest) : CurrentRequest :=
  { r with status := .ok, errorCode := 0, outputLen := 0 }

/-- A reported output length in the 16-bit field of R17 (R105): the number itself where the field can hold it,
a free value where it cannot (assumption 13). -/
def outputLenField (n : Nat) : Half := if n ≤ 65535 then BitVec.ofNat 16 n else Config.longOutputLen n

/-- The out-parameters as a handler leaves them: its own values, the defaults where it set none (R104). -/
def CurrentRequest.afterHandler (r : CurrentRequest) (o : HandlerOutcome) : CurrentRequest :=
  { r with status := o.status.getD r.status, errorCode := o.errorCode.getD r.errorCode,
           outputLen := (o.outputLen.map outputLenField).getD r.outputLen }

/-- CommandUnknown (R105, R154). -/
def CurrentRequest.commandUnknown (r : CurrentRequest) : CurrentRequest :=
  { r with status := .error, errorCode := 1, outputLen := 0 }

/-- Internal (R105, R155). -/
def CurrentRequest.internalFailure (r : CurrentRequest) : CurrentRequest :=
  { r with status := .error, errorCode := 4, outputLen := 0 }

/-- The rows of R106 in which a handler ran: a negative return with status OK becomes Internal; every other
combination stays as the handler left it. -/
def CurrentRequest.normalise (r : CurrentRequest) (negative : Bool) : CurrentRequest :=
  if negative then
    match r.status with
    | .ok => CurrentRequest.internalFailure r
    | .error => r
  else r

end Sys2Proof.Machine
end

