-- ==== Sys2Proof/Machine/Table.lean ====
section
/-!
DEFINITION. The command dispatch table and the dispatcher (R100 to R106): the meanings of TABLE_INIT,
REGISTER, LOOKUP and DISPATCH.
-/

namespace Sys2Proof.Machine

/-- LOOKUP's search: the first binding of the id in registration order, or `none` for NotFound (R102, R103). -/
def lookupHandler : List Binding → Byte → Option Handler
  | [], _ => none
  | (c, h) :: t, cmd => if c = cmd then some h else lookupHandler t cmd

/-- What the handler ECHO of `95_test_vectors.md` section 1 returns. -/
def echoOutcome (payload : List Byte) (cap : Nat) : HandlerOutcome :=
  let out := payload.take cap
  { ret := 0, status := some .ok, errorCode := some 0, outputLen := some out.length,
    written := out }

/-- A handler's run on a request view (R104): a pure function of command id, payload and capacity. -/
def runHandler (h : Handler) (cmd : Byte) (payload : List Byte) (cap : Nat) : HandlerResult :=
  match h with
  | .external k => Config.externalHandler k cmd payload cap
  | .fixed r => r
  | .echo => .returned (echoOutcome payload cap)

/-- What a handler returned, if it met its obligations (R104, R169): no more than the capacity written, and
no more reported. -/
def acceptOutcome (cap : Nat) : HandlerResult → Res HandlerOutcome
  | .breached b => .error (.refuse (.handlerBreach b))
  | .returned o => do
    require (decide (o.written.length ≤ cap)) .handlerWroteTooMuch
    require (decide (o.outputLen.getD 0 ≤ cap)) .handlerOutputTooLong
    .ok o

/-- The handler's part of DISPATCH (R105): run it on the payload view, store what it wrote through the output
view, and normalise its outcome. `r` is the record with the defaults in place. -/
def invokeHandler (c : Config) (h : Handler) (r : CurrentRequest) (x : Session) : Res Session := do
  let payload ← memRead c .rx x.rx payloadOff r.payloadLen.toNat
  let o ← acceptOutcome (outCap c) (runHandler h r.cmdId payload (outCap c))
  let tx ← memWrite c .tx x.tx outputOff o.written
  .ok { x with tx := tx, req := (r.afterHandler o).normalise (retNegative c o.ret) }

/-- DISPATCH (R105, R106). -/
def dispatchRequest (c : Config) (table : List Binding) (x : Session) : Res Session :=
  let r := x.req.withDefaults
  match lookupHandler table r.cmdId with
  | none => .ok { x with req := r.commandUnknown }
  | some h => invokeHandler c h r x

/-- TABLE_INIT (R100). -/
def execTableInit (t : Nat) (s : State) : Host.Outcome State Fault Refusal :=
  .next ((s.setServer t { srvInit := true, table := [] }).setResult .none)

/-- REGISTER (R101): NotInitialised is tested before NullHandler (D17); a binding goes at the end, with no
test for duplicates (R103). -/
def execRegister (t : Nat) (cmd : Byte) (handler : Option Handler) (s : State) :
    Host.Outcome State Fault Refusal :=
  let v := s.server t
  if !v.srvInit then .next (s.setResult (.register (.err .notInitialised)))
  else
    match handler with
    | none => .next (s.setResult (.register (.err .nullHandler)))
    | some h => .next ((s.setServer t { v with table := v.table ++ [(cmd, h)] }).setResult (.register .ok))

/-- LOOKUP (R102): NotFound is a normal result. -/
def execLookup (t : Nat) (cmd : Byte) (s : State) : Host.Outcome State Fault Refusal :=
  Res.toOutcome do
    let v ← s.readyServer t
    .ok (s.setResult (.lookup (lookupHandler v.table cmd)))

/-- DISPATCH as a host operation: on the record and payload the session holds (R105; assumption 20). -/
def execDispatch (t k : Nat) (s : State) : Host.Outcome State Fault Refusal :=
  Res.toOutcome do
    let v ← s.readyServer t
    let x ← s.readySession k
    let y ← dispatchRequest s.cfg v.table x
    .ok ((s.setSession k y).setResult .none)

end Sys2Proof.Machine
end

