-- ==== Sys2Proof/Machine/Processor.lean ====
section
/-!
DEFINITION. The session processor (R130 to R141): the loop that decodes, dispatches, encodes, transmits and
resets, and the meanings of SESSION_INIT and PROCESS.
-/

namespace Sys2Proof.Machine

/-- SESSION_INIT's assignments (R130): both buffers zero (nothing listed), decoder and record zero. The old
session is not read. -/
def Session.fresh : Session :=
  { sessInit := true
    decoder := { phase := .awaitMarker, accumulated := 0, expected := 0 }
    rx := []
    tx := []
    req := { cmdId := 0, payloadLen := 0, status := .ok, errorCode := 0, outputLen := 0 } }

/-- EXTRACT (R135): command id and payload length from `rx`. -/
def extractRequest (c : Config) (x : Session) : Res Session := do
  let id ← memRead c .rx x.rx 1 1
  let n ← memReadHalf c .rx x.rx lenOff
  .ok { x with req := { x.req with cmdId := id.headD 0, payloadLen := n } }

/-- The transmit callback on a frame (R132): nothing is read back; a callback that breaks an obligation is
refused (R169). -/
def callTransmit (callback : Callback) (frame : List Byte) : Res (List Byte) :=
  match callback with
  | .conforming => .ok frame
  | .breaching b => .error (.refuse (.callbackBreach b))

/-- The branch of R134 taken at Complete: extract, dispatch, encode, transmit if the encoded length is
positive (R139), reset. -/
def answerRequest (c : Config) (table : List Binding) (callback : Callback) (r : Run) : Res Run := do
  let x ← extractRequest c r.sess
  let y ← dispatchRequest c table x
  let (tlen, z) ← encodeFrame c y
  if 0 < tlen then
    let frame ← callTransmit callback (← memRead c .tx z.tx 0 tlen)
    .ok { r with sess := z.decReset, frames := r.frames ++ [frame] }
  else .ok { r with sess := z.decReset }

/-- FEED's outcome as PROCESS takes it (R134): advance by the count, or resync from where the failed FEED
began (R138). -/
def Run.afterFeed (r : Run) : FeedResult × Session → Run
  | (.ok n, x) => { r with sess := x, cur := r.cur + n }
  | (.err _, x) => Run.resync { r with sess := x }

/-- One turn of PROCESS's loop (R134). -/
def processTurn (c : Config) (table : List Binding) (callback : Callback) (input : List Byte) (r : Run) :
    Res Run := do
  let r1 := r.afterFeed (← feed c r.sess (input.drop r.cur))
  if r1.sess.decoder.phase = .complete then answerRequest c table callback r1 else .ok r1

/-- PROCESS's loop (R134, R136): turns while input remains. The first argument bounds the turns; R141 gives
`2 L` as enough. -/
def processLoop (c : Config) (table : List Binding) (callback : Callback) (input : List Byte) :
    Nat → Run → Res Run
  | 0, r => .ok r
  | fuel + 1, r =>
    if r.cur < input.length then do
      processLoop c table callback input fuel (← processTurn c table callback input r)
    else .ok r

/-- The run PROCESS starts from (R134). -/
def Run.start (x : Session) : Run := { sess := x, cur := 0, frames := [] }

/-- PROCESS on a session (R134): its entry conditions, then the loop. -/
def processInput (c : Config) (table : List Binding) (callback : Callback) (x : Session)
    (input : List Byte) : Res Run := do
  require (decide (x.decoder.phase ≠ .complete)) .processInComplete
  require (x.decInv c) .processPrecondition
  processLoop c table callback input (2 * input.length) (Run.start x)

/-- A chunk delivered to a session: one PROCESS call (R131, R134). -/
def deliver (t k : Nat) (input : List Byte) (callback : Callback) (s : State) : Res State := do
  let v ← s.readyServer t
  let x ← s.readySession k
  let r ← processInput s.cfg v.table callback x input
  .ok (((s.setSession k r.sess).addSent k r.frames).setResult .none)

/-- SESSION_INIT (R130). -/
def execSessionInit (k : Nat) (s : State) : Host.Outcome State Fault Refusal :=
  .next ((s.setSession k Session.fresh).setResult .none)

/-- PROCESS (R134). -/
def execProcess (t k : Nat) (input : List Byte) (callback : Callback) (s : State) :
    Host.Outcome State Fault Refusal :=
  Res.toOutcome (deliver t k input callback s)

end Sys2Proof.Machine
end

