-- ==== Sys2Proof/Machine/Frames.lean ====
section
/-!
DEFINITION. The frame rows of the opcode table as something the block executes: the frame's bytes arrive on a
session's input, in one chunk (R57, R131; assumption 10). A request is decoded by R85 to R89; a response that
arrives is read as a request whose length field is its status and error-code bytes.
-/

namespace Sys2Proof.Machine

/-- A whole frame arrives on a connection: one PROCESS call with its bytes (R131). -/
def arrive (l : Link) (bytes : List Byte) (s : State) : Host.Outcome State Fault Refusal :=
  Res.toOutcome (deliver l.server l.session bytes l.callback s)

/-- REQ (R50). -/
def execReq (l : Link) (cmd : Byte) (payload : List Byte) (crc : Half) (s : State) :
    Host.Outcome State Fault Refusal :=
  arrive l (reqImage s.cfg.marker cmd payload crc) s

/-- RSP.OK (R51, R57). -/
def execRspOk (l : Link) (cmd err : Byte) (output : List Byte) (crc : Half) (s : State) :
    Host.Outcome State Fault Refusal :=
  arrive l (rspImage s.cfg.marker cmd .ok err output crc) s

/-- RSP.ERR (R51, R57). -/
def execRspErr (l : Link) (cmd err : Byte) (output : List Byte) (crc : Half) (s : State) :
    Host.Outcome State Fault Refusal :=
  arrive l (rspImage s.cfg.marker cmd .error err output crc) s

/-- RSP.ERR.UNKNOWN (R154, R57). -/
def execRspErrUnknown (l : Link) (cmd : Byte) (crc : Half) (s : State) : Host.Outcome State Fault Refusal :=
  arrive l (rspImage s.cfg.marker cmd .error 1 [] crc) s

/-- RSP.ERR.INTERNAL (R155, R57). -/
def execRspErrInternal (l : Link) (cmd : Byte) (crc : Half) (s : State) : Host.Outcome State Fault Refusal :=
  arrive l (rspImage s.cfg.marker cmd .error 4 [] crc) s

end Sys2Proof.Machine
end

