-- ==== Sys2Proof/Machine/Dispatch.lean ====
section
/-!
DEFINITION. One arm per constructor of Instr, each one call of its meaning.
-/

namespace Sys2Proof.Machine

def exec (i : Instr) (s : State) : Host.Outcome State Fault Refusal :=
  match i with
  | .req l cmd payload crc => Sys2Proof.Machine.execReq l cmd payload crc s
  | .rspOk l cmd err output crc => Sys2Proof.Machine.execRspOk l cmd err output crc s
  | .rspErr l cmd err output crc => Sys2Proof.Machine.execRspErr l cmd err output crc s
  | .rspErrUnknown l cmd crc => Sys2Proof.Machine.execRspErrUnknown l cmd crc s
  | .rspErrInternal l cmd crc => Sys2Proof.Machine.execRspErrInternal l cmd crc s
  | .crc16 bytes => Sys2Proof.Machine.execCrc16 bytes s
  | .sessionInit k => Sys2Proof.Machine.execSessionInit k s
  | .decReset k => Sys2Proof.Machine.execDecReset k s
  | .feedAm k chunk => Sys2Proof.Machine.execFeedAm k chunk s
  | .feedAlf k chunk => Sys2Proof.Machine.execFeedAlf k chunk s
  | .feedAp k chunk => Sys2Proof.Machine.execFeedAp k chunk s
  | .feedAc k chunk => Sys2Proof.Machine.execFeedAc k chunk s
  | .feedCp k chunk => Sys2Proof.Machine.execFeedCp k chunk s
  | .tableInit t => Sys2Proof.Machine.execTableInit t s
  | .register t cmd handler => Sys2Proof.Machine.execRegister t cmd handler s
  | .lookup t cmd => Sys2Proof.Machine.execLookup t cmd s
  | .dispatch t k => Sys2Proof.Machine.execDispatch t k s
  | .encodeResponse k => Sys2Proof.Machine.execEncodeResponse k s
  | .encodeRequest cmd payload => Sys2Proof.Machine.execEncodeRequest cmd payload s
  | .process t k input callback => Sys2Proof.Machine.execProcess t k input callback s

end Sys2Proof.Machine
end

