-- ==== Sys2Proof/Machine/Fetch.lean ====
section
/-!
DEFINITION. How the next instruction is taken from the command port: the host issues FEED with select 0x3,
and the phase register supplies the three bits that name the form (R60, R62); and how a table word is placed
there.
-/

namespace Sys2Proof.Machine

/-- A transaction as the block reads it: FEED's select is completed with the phase register of the session it
names (R60: the forms "are distinguished by the current value of the `phase` register, not by the host"). -/
def State.completeSelect (s : State) (c : Command) : Command :=
  match c.fmt with
  | .op =>
    if c.word = [0x3] then
      { c with word := [Phase.feedSelect (s.session c.args.session).decoder.phase] }
    else c
  | .req => c
  | .rsp => c

/-- The phase a select code of a FEED form names. -/
def selectedPhase : List Byte → Option Phase
  | [b] =>
    if b = 0x18 then some .awaitMarker
    else if b = 0x19 then some .awaitLengthField
    else if b = 0x1A then some .awaitPayload
    else if b = 0x1B then some .awaitChecksum
    else if b = 0x1C then some .complete
    else none
  | _ => none

/-- A decoder at rest in a phase, with a frame of command id 0 and no payload in progress (R22): what the
session must hold for the phase register to select that FEED form (assumption 5). -/
def Session.atRest (c : Config) (x : Session) (p : Phase) : Session :=
  let head : List Byte := [c.marker, 0, 0, 0]
  match p with
  | .awaitMarker => x.decReset
  | .awaitLengthField =>
    { x with rx := Memory.setBytes x.rx 0 head,
             decoder := { phase := p, accumulated := 1, expected := 3 } }
  | .awaitPayload =>
    { x with rx := Memory.setBytes x.rx 0 head,
             decoder := { phase := p, accumulated := 4, expected := 0 } }
  | .awaitChecksum =>
    { x with rx := Memory.setBytes x.rx 0 head,
             decoder := { phase := p, accumulated := 4, expected := 2 } }
  | .complete =>
    { x with rx := Memory.setBytes x.rx 0 (head ++ halfBytes (crc16Fn c head)),
             decoder := { phase := p, accumulated := 6, expected := 0 } }

/-- Make the phase register of the operand session select a FEED form, if the word is one and the register
selects another. -/
def State.selectForm (s : State) (c : Command) : State :=
  match c.fmt, selectedPhase c.word with
  | .op, some p =>
    let x := s.session c.args.session
    if x.decoder.phase = p then s else s.setSession c.args.session (x.atRest s.cfg p)
  | _, _ => s

/-- Issue a transaction so that it is the next to run. -/
def State.issueNext (s : State) (c : Command) : State := { s with port := c :: s.port }

end Sys2Proof.Machine
end

