-- ==== Sys2Proof/Machine/Step.lean ====
section
/-!
DEFINITION. One step: take the oldest transaction from the port, decode it, run it. With an empty port the
block holds its state and does nothing (R168).
-/

namespace Sys2Proof.Machine

/-- One step of the machine (R6: each operation is one atomic transaction). -/
def step (s : State) : Host.Outcome State Fault Refusal :=
  match s.port with
  | [] => .next s
  | c :: rest =>
    match decode s.cfg.marker (s.completeSelect c) with
    | .error e => .refused (.undecodable e)
    | .ok i => exec i { s with port := rest }

/-- The state with a table word placed where `step` takes its next instruction: the transaction first in the
port and, for a FEED form, the phase register selecting it (assumptions 4, 5). -/
def State.withFetchWord (s : State) (nbits w : Nat) : State :=
  (s.selectForm (tableCommand nbits w)).issueNext (tableCommand nbits w)

end Sys2Proof.Machine
end

