-- ==== Sys2Proof/Safety.lean ====
section
/-!
DEFINITION. What counts as a safe run, and the terms statements use: the invariant of every step, a session at
rest, handlers that meet their contract, and a host that drives FEED itself.
-/

namespace Sys2Proof.Machine

/-- The decoder after a failed FEED and before the reset that must follow: the rows FrameTooLong and
ChecksumError of R95. -/
def Session.afterFailure (c : Config) (x : Session) : Bool :=
  let a := x.decoder.accumulated
  let e := x.decoder.expected
  let n := x.declaredLen
  match x.decoder.phase with
  | .awaitLengthField => decide (a = 4 ∧ e = n ∧ c.bRx < 4 + n + 2)
  | .awaitChecksum => decide (a = 6 + n ∧ e = 0 ∧ 4 + n + 2 ≤ c.bRx)
  | .awaitMarker => false
  | .awaitPayload => false
  | .complete => false

/-- The invariant of a session: both buffers canonical and inside their capacities (R37), the decoder at rest
or just failed (R22, R95), and the record's two lengths inside their views (R17, R87, R116). -/
abbrev Session.Inv (c : Config) (x : Session) : Prop :=
  Memory.wf x.rx ∧ Memory.within c.bRx x.rx ∧ Memory.wf x.tx ∧ Memory.within c.bTx x.tx ∧
    (x.decInv c = true ∨ x.afterFailure c = true) ∧
    x.req.payloadLen.toNat + 6 ≤ c.bRx ∧ x.req.outputLen.toNat ≤ outCap c

/-- The invariant of the machine: valid parameters (R5), canonical maps, and the invariant of every session. -/
abbrev State.Inv (s : State) : Prop :=
  s.cfg.Valid ∧ Sparse.wf Session.blank s.sessions ∧ Sparse.wf Server.blank s.servers ∧
    ∀ e ∈ s.sessions, Session.Inv s.cfg e.2

/-- An outcome that is no fault. -/
abbrev SafeOutcome (o : Host.Outcome State Fault Refusal) : Prop := ∀ f, o ≠ .fault f

/-- A session that may be fed: initialised, at rest, no frame complete (R83, R134). -/
abbrev Session.Feedable (c : Config) (x : Session) : Prop :=
  x.sessInit = true ∧ x.decInv c = true ∧ x.decoder.phase ≠ .complete

/-- A session at rest with no frame in progress: `(AwaitMarker, 0, 0)`. -/
abbrev Session.Idle (x : Session) : Prop :=
  x.sessInit = true ∧ x.decoder = { phase := .awaitMarker, accumulated := 0, expected := 0 }

/-- A handler that meets the obligations of R104 on every request. -/
def Handler.Conforming (c : Config) (h : Handler) : Prop :=
  ∀ cmd payload, ∃ o, acceptOutcome (outCap c) (runHandler h cmd payload (outCap c)) = .ok o

/-- Every handler of a table meets its obligations. -/
def TableConforming (c : Config) (table : List Binding) : Prop := ∀ b ∈ table, Handler.Conforming c b.2

/-- The FEED form the phase register selects (R60). -/
def Phase.feedInstr (p : Phase) (k : Nat) (chunk : List Byte) : Instr :=
  match p with
  | .awaitMarker => .feedAm k chunk
  | .awaitLengthField => .feedAlf k chunk
  | .awaitPayload => .feedAp k chunk
  | .awaitChecksum => .feedAc k chunk
  | .complete => .feedCp k chunk

/-- The sessions an instruction may change. -/
def sessionTarget : Instr → Option Nat
  | .req l _ _ _ => some l.session
  | .rspOk l _ _ _ _ => some l.session
  | .rspErr l _ _ _ _ => some l.session
  | .rspErrUnknown l _ _ => some l.session
  | .rspErrInternal l _ _ => some l.session
  | .crc16 _ => none
  | .sessionInit k => some k
  | .decReset k => some k
  | .feedAm k _ => some k
  | .feedAlf k _ => some k
  | .feedAp k _ => some k
  | .feedAc k _ => some k
  | .feedCp k _ => some k
  | .tableInit _ => none
  | .register _ _ _ => none
  | .lookup _ _ => none
  | .dispatch _ k => some k
  | .encodeResponse k => some k
  | .encodeRequest _ _ => none
  | .process _ k _ _ => some k

/-- A response frame with its checksum: marker, command id, status, error code, length, output, and the
checksum over everything before it (R51, R63). -/
def responseImage (c : Config) (cmd : Byte) (status : Status) (err : Byte) (output : List Byte) : List Byte :=
  rspImage c.marker cmd status err output (crc16Fn c
    (c.marker :: cmd :: statusByte status :: err :: (halfBytes (lengthField output) ++ output)))

/-- The record of a request as a handler leaves it and DISPATCH normalises it (R104 to R106). -/
def outcomeRecord (c : Config) (cmd : Byte) (payload : List Byte) (o : HandlerOutcome) : CurrentRequest :=
  CurrentRequest.normalise
    (CurrentRequest.afterHandler
      { cmdId := cmd, payloadLen := lengthField payload, status := .ok, errorCode := 0, outputLen := 0 } o)
    (retNegative c o.ret)

/-- What the host of these operations must have done before PROCESS runs: the server instance and the session
initialised, the session at rest, every handler conforming (R104, R134, R177). -/
abbrev State.Ready (s : State) (t k : Nat) : Prop :=
  s.cfg.Valid ∧ (s.server t).srvInit = true ∧ TableConforming s.cfg (s.server t).table ∧
    Session.Feedable s.cfg (s.session k)

/-- A select code issued on the port with the operands `a` runs `i`, whatever is queued behind it (R60). -/
abbrev SelectRuns (s : State) (select : Byte) (a : Args) (i : Instr) : Prop :=
  ∀ rest, step { s with port := opCommand select a :: rest } = exec i { s with port := rest }

/-- The connection of a frame row. -/
def arrivalLink : Instr → Option Link
  | .req l _ _ _ => some l
  | .rspOk l _ _ _ _ => some l
  | .rspErr l _ _ _ _ => some l
  | .rspErrUnknown l _ _ => some l
  | .rspErrInternal l _ _ => some l
  | .crc16 _ => none
  | .sessionInit _ => none
  | .decReset _ => none
  | .feedAm _ _ => none
  | .feedAlf _ _ => none
  | .feedAp _ _ => none
  | .feedAc _ _ => none
  | .feedCp _ _ => none
  | .tableInit _ => none
  | .register _ _ _ => none
  | .lookup _ _ => none
  | .dispatch _ _ => none
  | .encodeResponse _ => none
  | .encodeRequest _ _ => none
  | .process _ _ _ _ => none

/-- A session whose `rx` holds the first `accumulated` bytes of a frame, and for which `missing` are the bytes to
come: all of them when it is idle, fewer when earlier PROCESS calls brought some (R131, R134, R140). -/
abbrev Session.Awaits (c : Config) (x : Session) (frame missing : List Byte) : Prop :=
  Session.Feedable c x ∧ Memory.getBytes x.rx 0 x.decoder.accumulated ++ missing = frame

/-- The instructions that bring a session the last bytes of a valid request: its REQ, the whole frame at an idle
session (R50, R131), or a PROCESS on the bytes that earlier calls have not brought (R134). -/
def BringsRequest (s : State) (t k : Nat) (cmd : Byte) (payload : List Byte) (cb : Callback) (i : Instr) : Prop :=
  (Session.Idle (s.session k) ∧
    i = .req { server := t, session := k, callback := cb } cmd payload
      (crc16Fn s.cfg (requestHead s.cfg cmd payload))) ∨
  ∃ missing, Session.Awaits s.cfg (s.session k) (requestFrame s.cfg cmd payload) missing ∧
    i = .process t k missing cb

/-- The instructions that complete a valid request first, whatever they bring behind it: those that bring its last
bytes, and a PROCESS whose input goes on after them (R134, R137). -/
def ReachesRequest (s : State) (t k : Nat) (cmd : Byte) (payload : List Byte) (cb : Callback) (i : Instr) : Prop :=
  BringsRequest s t k cmd payload cb i ∨
  ∃ missing rest, Session.Awaits s.cfg (s.session k) (requestFrame s.cfg cmd payload) missing ∧
    i = .process t k (missing ++ rest) cb

/-- The decoder as the `a`-th byte of a frame with `n` payload bytes leaves it, for `a < 6 + n`: with no byte, in
AwaitMarker; inside the header, the payload and the checksum, in their phases, with what is missing of that part expected
(R85 to R89). The header's last byte leaves it in AwaitPayload also where no payload is declared (R86). -/
def Decoder.inFrame (n a : Nat) : Decoder :=
  if a = 0 then { phase := .awaitMarker, accumulated := 0, expected := 0 }
  else if a < 4 then { phase := .awaitLengthField, accumulated := a, expected := 4 - a }
  else if a = 4 ∨ a < 4 + n then { phase := .awaitPayload, accumulated := a, expected := 4 + n - a }
  else { phase := .awaitChecksum, accumulated := a, expected := 6 + n - a }

/-- The refusal of a handler's result that breaks the contract, where `cap` is its capacity (R104, R169); nothing is
said of one that keeps it. -/
def RefusedAsBreach (cap : Nat) (a : HandlerResult) (o : Host.Outcome State Fault Refusal) : Prop :=
  match a with
  | .breached b => o = .refused (.handlerBreach b)
  | .returned h =>
    (cap < h.written.length → o = .refused .handlerWroteTooMuch) ∧
    (h.written.length ≤ cap → cap < h.outputLen.getD 0 → o = .refused .handlerOutputTooLong)

/-- A host that drives FEED itself on one chunk: repeated FEED calls on what is not yet consumed (R84, R94).
A failure or a stop ends it with `none`. The first argument bounds the calls. -/
def feedUntilConsumed (c : Config) : Nat → Session → List Byte → Option Session
  | _, x, [] => some x
  | 0, _, _ :: _ => none
  | fuel + 1, x, b :: bs =>
    match feed c x (b :: bs) with
    | .ok (.ok n, y) => feedUntilConsumed c fuel y ((b :: bs).drop n)
    | .ok (.err _, _) => none
    | .error _ => none

/-- The same over several chunks, in order. -/
def feedChunks (c : Config) (x : Session) (chunks : List (List Byte)) : Option Session :=
  chunks.foldlM (fun y chunk => feedUntilConsumed c (2 * chunk.length) y chunk) x

/-- A run moved to where it stands in a longer input, after the frames already sent. -/
def Run.shift (n : Nat) (frames : List (List Byte)) (r : Run) : Run :=
  { sess := r.sess, cur := n + r.cur, frames := frames ++ r.frames }

end Sys2Proof.Machine
end

