-- ==== Sys2Proof/Certificates/Slice0/Obligations.lean ====
section
/-!
DEFINITION. The statements for the provers. Each cites the rule of spec/ it formalises. A next state is given
as the named updates applied to the state before, so that everything not named is unchanged; what those updates
leave alone is stated by HandleWriteTouchesOneEntry and BufferWriteTouchesOnlyItsRange.
-/

open Sys2Proof Sys2Proof.Machine

/-! ### Encoding, decoding, stepping -/

/-- Words written out from the encodings of R50, R51 and R60 decode to the rows they stand for. That a select code
stands right-aligned in a byte is the model's choice (assumption 6). -/
def Obligations.KnownWordsDecode : Prop :=
  let l : Link := { server := 0, session := 0, callback := .conforming }
  decode 0xA5 { fmt := .req, word := [0xA5, 0x01, 0x00, 0x03, 0x11, 0x22, 0x33, 0x81, 0xFD], args := Args.zero } =
      .ok (.req l 0x01 [0x11, 0x22, 0x33] 0x81FD) ∧
    decode 0xA5 { fmt := .rsp, word := [0xA5, 0x01, 0x00, 0x00, 0x00, 0x03, 0x11, 0x22, 0x33, 0xB9, 0x18],
                  args := Args.zero } = .ok (.rspOk l 0x01 0x00 [0x11, 0x22, 0x33] 0xB918) ∧
    decode 0xA5 { fmt := .rsp, word := [0xA5, 0x7F, 0x01, 0x01, 0x00, 0x00, 0x95, 0xC2], args := Args.zero } =
      .ok (.rspErrUnknown l 0x7F 0x95C2) ∧
    decode 0xA5 { fmt := .rsp, word := [0xA5, 0x02, 0x01, 0x04, 0x00, 0x00, 0x42, 0xCE], args := Args.zero } =
      .ok (.rspErrInternal l 0x02 0x42CE) ∧
    decode 0xA5 { fmt := .op, word := [0b0011001], args := Args.zero } = .ok (.feedAlf 0 []) ∧
    decode 0xA5 { fmt := .op, word := [0b1010], args := Args.zero } = .ok (.process 0 0 [] .conforming)

/-- Decoding an encoded well-formed instruction gives it back, for every row and every marker value. The operands
beside the word are the model's (assumption 6). -/
def Obligations.DecodeEncodeRoundTrip : Prop :=
  ∀ (marker : Byte) (i : Instr), i.wellFormed = true → decode marker (encode marker i) = .ok i

/-- A transaction that decodes holds exactly the word its instruction encodes to, and the instruction is
well-formed: no word has two readings, and no bit of a word is ignored (assumption 6). -/
def Obligations.DecodedWordIsTheEncodedWord : Prop :=
  ∀ (marker : Byte) (c : Command) (i : Instr), decode marker c = .ok i →
    i.wellFormed = true ∧ (encode marker i).fmt = c.fmt ∧ (encode marker i).word = c.word

/-- R58, R60, R169: operation selects 0xB to 0xF and phase codes 5 to 7 are refused (their place in a byte is the
model's choice, assumption 6). -/
def Obligations.UnassignedSelectsRefused : Prop :=
  ∀ (s : State) (c : Command) (rest : List Command) (b : Byte), s.port = c :: rest → c.fmt = .op →
    c.word = [b] →
    (0xB ≤ b.toNat → b.toNat ≤ 0xF → step s = .refused (.undecodable (.unassignedSelect b))) ∧
    (0x1D ≤ b.toNat → b.toNat ≤ 0x1F → step s = .refused (.undecodable (.undefinedPhase b)))

/-- A step runs the instruction its oldest transaction decodes to, with that transaction taken from the port.
The port is the model's form of R60's command port (assumption 4). -/
def Obligations.StepRunsDecodedInstruction : Prop :=
  ∀ (s : State) (c : Command) (rest : List Command) (i : Instr), s.port = c :: rest →
    decode s.cfg.marker (s.completeSelect c) = .ok i → step s = exec i { s with port := rest }

/-- R168: with nothing to do the block holds its state. That an empty port is the block with nothing to do is the
model's choice (assumption 4). -/
def Obligations.EmptyPortHoldsState : Prop :=
  ∀ s : State, s.port = [] → step s = .next s

/-- A table word placed for fetching is the next instruction to run, in every state (for a FEED form, with the
phase register selecting it). The form of withFetchWord is the model's choice (assumption 5). -/
def Obligations.PlacedWordRunsNext : Prop :=
  ∀ (s : State) (nbits w : Nat) (i : Instr), s.cfg.marker = Config.default.marker →
    decodeTableWord nbits w = some i →
    step (s.withFetchWord nbits w) = exec i (s.selectForm (tableCommand nbits w))

/-! ### What the named updates leave alone -/

/-- A session written under a handle is read back there, and so is a server instance; every other session, every
other server instance and every other field reads as before. Handles are the model's (assumption 7). -/
def Obligations.HandleWriteTouchesOneEntry : Prop :=
  (∀ (s : State) (k j : Nat) (x : Session),
    (s.setSession k x).session k = x ∧
    (j ≠ k → (s.setSession k x).session j = s.session j) ∧
    (s.setSession k x).server j = s.server j ∧
    (s.setSession k x).cfg = s.cfg ∧ (s.setSession k x).port = s.port ∧
    (s.setSession k x).result = s.result ∧ (s.setSession k x).sent = s.sent) ∧
  ∀ (s : State) (t j : Nat) (v : Server),
    (s.setServer t v).server t = v ∧
    (j ≠ t → (s.setServer t v).server j = s.server j) ∧
    (s.setServer t v).session j = s.session j ∧
    (s.setServer t v).cfg = s.cfg ∧ (s.setServer t v).port = s.port ∧
    (s.setServer t v).result = s.result ∧ (s.setServer t v).sent = s.sent

/-- A range write is read back inside the range, byte by byte, and leaves every other offset alone. -/
def Obligations.BufferWriteTouchesOnlyItsRange : Prop :=
  ∀ (m : Memory) (a j : Nat) (bs : List Byte),
    (∀ i b, bs[i]? = some b → Memory.get (Memory.setBytes m a bs) (a + i) = b) ∧
    (j < a ∨ a + bs.length ≤ j → Memory.get (Memory.setBytes m a bs) j = Memory.get m j)

/-! ### The CRC engine -/

/-- R70: CRC16, select 0x0, returns the checksum function's value on every defined input, the empty one included,
and changes nothing else; an undefined input is refused. -/
def Obligations.Crc16ReturnsChecksum : Prop :=
  ∀ s : State,
    (∀ bytes, SelectRuns s 0x0 { Args.zero with bytes := bytes } (.crc16 bytes)) ∧
    (∀ bytes, exec (.crc16 (some bytes)) s = .next { s with result := .checksum (crc16Fn s.cfg bytes) }) ∧
    exec (.crc16 none) s = .refused .inputUndefined

/-- R72, R73 item 4: for every CRC of the family of R75 whose polynomial has a constant term, the default
among them, two byte sequences that differ in one byte have different checksums. -/
def Obligations.OneByteChangeChangesChecksum : Prop :=
  ∀ (p : CrcParams) (before after : List Byte) (b b' : Byte), p.poly.getLsbD 0 = true → b ≠ b' →
    CrcParams.run p (before ++ b :: after) ≠ CrcParams.run p (before ++ b' :: after)

/-! ### The frame decoder -/

/-- R81: DEC_RESET, select 0x2, in every phase: the three decoder fields, and nothing else but the result. -/
def Obligations.DecResetReturnsToMarker : Prop :=
  ∀ (s : State) (k : Nat),
    SelectRuns s 0x2 { Args.zero with session := k } (.decReset k) ∧
    ((s.session k).sessInit = true →
      exec (.decReset k) s = .next ((s.setSession k { s.session k with
        decoder := { phase := .awaitMarker, accumulated := 0, expected := 0 } }).setResult .none)) ∧
    ((s.session k).sessInit = false → exec (.decReset k) s = .refused .sessionNotInitialised)

/-- R85: FEED in phase AwaitMarker, select 0x3. Only the first byte is looked at. -/
def Obligations.FeedAwaitMarker : Prop :=
  ∀ (s : State) (k : Nat) (chunk : List Byte), s.cfg.Valid → (s.session k).sessInit = true →
    (s.session k).decInv s.cfg = true → (s.session k).decoder.phase = .awaitMarker →
    SelectRuns s 0x3 (feedArgs k chunk) (.feedAm k chunk) ∧
    exec (.feedAm k chunk) s =
      match chunk with
      | [] => .next ((s.setSession k (s.session k)).setResult (.feed (.ok 0)))
      | b :: _ =>
        if b = s.cfg.marker then
          .next ((s.setSession k { s.session k with
            rx := Memory.setBytes (s.session k).rx 0 [b]
            decoder := { phase := .awaitLengthField, accumulated := 1, expected := 3 } }).setResult
              (.feed (.ok 1)))
        else .next ((s.setSession k (s.session k)).setResult (.feed (.err .badMarker)))

/-- R86: FEED in phase AwaitLengthField, select 0x3. The bytes taken go to `rx` from offset `accumulated`; when the header
is whole, `N = BE16(rx[2], rx[3])` and the frame is accepted exactly when `4 + N + 2 <= B_RX`. -/
def Obligations.FeedAwaitLengthField : Prop :=
  ∀ (s : State) (k : Nat) (chunk : List Byte), s.cfg.Valid → (s.session k).sessInit = true →
    (s.session k).decInv s.cfg = true → (s.session k).decoder.phase = .awaitLengthField →
    let x := s.session k
    let a := x.decoder.accumulated
    let e := x.decoder.expected
    let rx := Memory.setBytes x.rx a (chunk.take e)
    let n := (be16 (Memory.get rx 2) (Memory.get rx 3)).toNat
    SelectRuns s 0x3 (feedArgs k chunk) (.feedAlf k chunk) ∧
    exec (.feedAlf k chunk) s =
      if chunk.length < e then
        .next ((s.setSession k { x with
          rx := rx
          decoder := { phase := .awaitLengthField, accumulated := a + chunk.length,
                       expected := e - chunk.length } }).setResult (.feed (.ok chunk.length)))
      else if s.cfg.bRx < 4 + n + 2 then
        .next ((s.setSession k { x with
          rx := rx
          decoder := { phase := .awaitLengthField, accumulated := 4, expected := n } }).setResult
            (.feed (.err .frameTooLong)))
      else
        .next ((s.setSession k { x with
          rx := rx
          decoder := { phase := .awaitPayload, accumulated := 4, expected := n } }).setResult
            (.feed (.ok e)))

/-- R88: FEED in phase AwaitPayload, select 0x3, the case of an empty payload included. -/
def Obligations.FeedAwaitPayload : Prop :=
  ∀ (s : State) (k : Nat) (chunk : List Byte), s.cfg.Valid → (s.session k).sessInit = true →
    (s.session k).decInv s.cfg = true → (s.session k).decoder.phase = .awaitPayload →
    let x := s.session k
    let a := x.decoder.accumulated
    let e := x.decoder.expected
    let rx := Memory.setBytes x.rx a (chunk.take e)
    SelectRuns s 0x3 (feedArgs k chunk) (.feedAp k chunk) ∧
    exec (.feedAp k chunk) s =
      if chunk.length < e then
        .next ((s.setSession k { x with
          rx := rx
          decoder := { phase := .awaitPayload, accumulated := a + chunk.length,
                       expected := e - chunk.length } }).setResult (.feed (.ok chunk.length)))
      else
        .next ((s.setSession k { x with
          rx := rx
          decoder := { phase := .awaitChecksum, accumulated := a + e, expected := 2 } }).setResult
            (.feed (.ok e)))

/-- R89: FEED in phase AwaitChecksum, select 0x3. With both checksum bytes in, all 16 bits are compared with the checksum
of everything before them. -/
def Obligations.FeedAwaitChecksum : Prop :=
  ∀ (s : State) (k : Nat) (chunk : List Byte), s.cfg.Valid → (s.session k).sessInit = true →
    (s.session k).decInv s.cfg = true → (s.session k).decoder.phase = .awaitChecksum →
    let x := s.session k
    let a := x.decoder.accumulated
    let e := x.decoder.expected
    let rx := Memory.setBytes x.rx a (chunk.take e)
    SelectRuns s 0x3 (feedArgs k chunk) (.feedAc k chunk) ∧
    exec (.feedAc k chunk) s =
      if chunk.length < e then
        .next ((s.setSession k { x with
          rx := rx
          decoder := { phase := .awaitChecksum, accumulated := a + chunk.length,
                       expected := e - chunk.length } }).setResult (.feed (.ok chunk.length)))
      else if be16 (Memory.get rx (a + e - 2)) (Memory.get rx (a + e - 1)) =
          crc16Fn s.cfg (Memory.getBytes rx 0 (a + e - 2)) then
        .next ((s.setSession k { x with
          rx := rx
          decoder := { phase := .complete, accumulated := a + e, expected := 0 } }).setResult
            (.feed (.ok e)))
      else
        .next ((s.setSession k { x with
          rx := rx
          decoder := { phase := .awaitChecksum, accumulated := a + e, expected := 0 } }).setResult
            (.feed (.err .checksumError)))

/-- R90: FEED in phase Complete, select 0x3, is refused. -/
def Obligations.FeedCompleteRefused : Prop :=
  ∀ (s : State) (k : Nat) (chunk : List Byte), (s.session k).sessInit = true →
    (s.session k).decoder.phase = .complete →
    SelectRuns s 0x3 (feedArgs k chunk) (.feedCp k chunk) ∧
    exec (.feedCp k chunk) s = .refused .feedInComplete

/-- R60, R83: a FEED form whose phase is not the phase register's is refused, whichever the two are (FEED.CP outside
Complete, and every other form in it, among them); and one whose session does not satisfy `DecInv` is refused: in
particular after a FEED failed with FrameTooLong or ChecksumError and before a reset. The first refusal is the model's
reading of R60 (assumption 16), and so is the order of the two tests (assumption 21). -/
def Obligations.FeedOutsideRestRefused : Prop :=
  ∀ (s : State) (k : Nat) (chunk : List Byte) (p : Phase), (s.session k).sessInit = true →
    ((s.session k).decoder.phase ≠ p → exec (Phase.feedInstr p k chunk) s = .refused .phaseMismatch) ∧
    ((s.session k).decoder.phase = p → p ≠ .complete →
      (s.session k).decInv s.cfg = false ∨ (s.session k).afterFailure s.cfg = true →
      exec (Phase.feedInstr p k chunk) s = .refused .feedPrecondition)

/-- R91: an empty chunk consumes nothing; it changes nothing but in AwaitPayload with nothing expected, where it
moves the phase. -/
def Obligations.EmptyChunkConsumesNothing : Prop :=
  ∀ (s : State) (k : Nat) (p : Phase), s.cfg.Valid → (s.session k).sessInit = true →
    (s.session k).decInv s.cfg = true → (s.session k).decoder.phase = p → p ≠ .complete →
    exec (Phase.feedInstr p k []) s = .next ((s.setSession k
      (if p = .awaitPayload ∧ (s.session k).decoder.expected = 0
        then { s.session k with decoder := { phase := .awaitChecksum,
                                             accumulated := (s.session k).decoder.accumulated,
                                             expected := 2 } }
        else s.session k)).setResult (.feed (.ok 0)))

/-- R93: every FEED on a chunk that is not empty consumes a byte, moves the phase forward, or fails; the only one
that consumes nothing is FEED.AP with nothing expected, and it moves the phase. -/
def Obligations.FeedMakesProgress : Prop :=
  ∀ (c : Config) (x y : Session) (chunk : List Byte) (r : FeedResult), c.Valid → chunk ≠ [] →
    feed c x chunk = .ok (r, y) →
    match r with
    | .err _ => True
    | .ok n => n ≤ chunk.length ∧
        (n = 0 → x.decoder.phase = .awaitPayload ∧ x.decoder.expected = 0 ∧
          y.decoder.phase = .awaitChecksum)

/-- R84, R92: one phase per call. The phase stays or moves to the next one in order, and `accumulated` never
decreases. -/
def Obligations.FeedMovesAtMostOnePhase : Prop :=
  ∀ (c : Config) (x y : Session) (chunk : List Byte) (r : FeedResult), c.Valid →
    feed c x chunk = .ok (r, y) →
    (y.decoder.phase = x.decoder.phase ∨ y.decoder.phase.code = x.decoder.phase.code + 1) ∧
      x.decoder.accumulated ≤ y.decoder.accumulated

/-- R22, R95: a successful FEED leaves the decoder at rest; a failed one leaves it as the table of R95 says. -/
def Obligations.FeedLeavesDecoderAtRestOrFailed : Prop :=
  ∀ (c : Config) (x y : Session) (chunk : List Byte) (r : FeedResult), c.Valid →
    feed c x chunk = .ok (r, y) →
    match r with
    | .ok _ => y.decInv c = true
    | .err .badMarker => y = x ∧ x.decoder.phase = .awaitMarker ∧ y.decInv c = true
    | .err .frameTooLong => y.decInv c = false ∧
        y.decoder = { phase := .awaitLengthField, accumulated := 4, expected := y.declaredLen }
    | .err .checksumError => y.decInv c = false ∧
        y.decoder = { phase := .awaitChecksum, accumulated := 6 + y.declaredLen, expected := 0 }

/-- R23: at rest, what is accumulated and what is expected fit the receive buffer; and a FEED changes no byte of
`rx` outside the range from the old to the new `accumulated`, so none at or beyond `B_RX`. -/
def Obligations.FeedStaysInsideReceiveBuffer : Prop :=
  ∀ (c : Config) (x : Session), c.Valid → x.decInv c = true →
    x.decoder.accumulated + x.decoder.expected ≤ c.bRx ∧
    ∀ (chunk : List Byte) (r : FeedResult) (y : Session) (j : Nat), feed c x chunk = .ok (r, y) →
      (j < x.decoder.accumulated ∨ y.decoder.accumulated ≤ j → Memory.get y.rx j = Memory.get x.rx j) ∧
      y.decoder.accumulated ≤ c.bRx ∧ y.tx = x.tx ∧ y.req = x.req ∧ y.sessInit = x.sessInit

/-- R87: the header is accepted exactly when the whole frame fits, `4 + N + 2 <= B_RX`, that is when the declared
length is at most `N_MAX = min(65535, B_RX - 6)`. -/
def Obligations.HeaderAcceptedIffPayloadFits : Prop :=
  ∀ (c : Config) (x : Session) (chunk : List Byte), c.Valid → x.decInv c = true →
    x.decoder.phase = .awaitLengthField → x.decoder.expected ≤ chunk.length →
    ∃ r y, feed c x chunk = .ok (r, y) ∧
      (r = .ok x.decoder.expected ↔ 4 + y.declaredLen + 2 ≤ c.bRx) ∧
      (4 + y.declaredLen + 2 ≤ c.bRx ↔ y.declaredLen ≤ nMax c) ∧
      (r = .err .frameTooLong ↔ nMax c < y.declaredLen)

/-- R94, R118: the bytes of one request, cut into chunks in any way, empty ones included, and each chunk fed by
repeated FEED calls until it is consumed, end in Complete with the whole frame in `rx`. For every checksum
function. -/
def Obligations.FragmentationDoesNotMatter : Prop :=
  ∀ (c : Config) (x : Session) (cmd : Byte) (payload : List Byte) (chunks : List (List Byte)), c.Valid →
    Session.Idle x → payload.length ≤ nMax c → chunks.flatten = requestFrame c cmd payload →
    ∃ y, feedChunks c x chunks = some y ∧
      y.decoder = { phase := .complete, accumulated := 6 + payload.length, expected := 0 } ∧
      Memory.getBytes y.rx 0 (6 + payload.length) = requestFrame c cmd payload ∧
      Memory.get y.rx 1 = cmd ∧ y.declaredLen = payload.length ∧
      Memory.getBytes y.rx 4 payload.length = payload

/-! ### The dispatch table and the dispatcher -/

/-- R100: TABLE_INIT, select 0x4, on an initialised or uninitialised server instance. -/
def Obligations.TableInitEmptiesTable : Prop :=
  ∀ (s : State) (t : Nat),
    SelectRuns s 0x4 { Args.zero with server := t } (.tableInit t) ∧
    exec (.tableInit t) s = .next ((s.setServer t { srvInit := true, table := [] }).setResult .none)

/-- R101, R156, R157: REGISTER, select 0x5: its three results, NotInitialised tested first; on a failure nothing but the result
changes. -/
def Obligations.RegisterAppendsBinding : Prop :=
  ∀ (s : State) (t : Nat) (cmd : Byte),
    (∀ handler, SelectRuns s 0x5 { Args.zero with server := t, cmd := cmd, handler := handler }
      (.register t cmd handler)) ∧
    ((s.server t).srvInit = false → ∀ handler,
      exec (.register t cmd handler) s = .next (s.setResult (.register (.err .notInitialised)))) ∧
    ((s.server t).srvInit = true →
      exec (.register t cmd none) s = .next (s.setResult (.register (.err .nullHandler))) ∧
      ∀ h, exec (.register t cmd (some h)) s =
        .next ((s.setServer t { srvInit := true, table := (s.server t).table ++ [(cmd, h)] }).setResult
          (.register .ok)))

/-- R102: LOOKUP, select 0x6, returns the handler of the first binding whose id matches, or NotFound when none does, and
changes no state but the result. -/
def Obligations.LookupReturnsFirstMatch : Prop :=
  ∀ (s : State) (t : Nat) (cmd : Byte), (s.server t).srvInit = true →
    SelectRuns s 0x6 { Args.zero with server := t, cmd := cmd } (.lookup t cmd) ∧
    ((∀ b ∈ (s.server t).table, b.1 ≠ cmd) → exec (.lookup t cmd) s = .next (s.setResult (.lookup none))) ∧
    (∀ pre h post, (s.server t).table = pre ++ (cmd, h) :: post → (∀ b ∈ pre, b.1 ≠ cmd) →
      exec (.lookup t cmd) s = .next (s.setResult (.lookup (some h))))

/-- R103: registering an id that is already bound succeeds, and every LOOKUP still returns what it did. -/
def Obligations.DuplicateRegistrationIsShadowed : Prop :=
  ∀ (s : State) (t : Nat) (cmd : Byte) (h h' : Handler), (s.server t).srvInit = true →
    lookupHandler (s.server t).table cmd = some h →
    ∃ u, exec (.register t cmd (some h')) s = .next u ∧ u.result = .register .ok ∧
      ∀ id, exec (.lookup t id) u =
        .next (u.setResult (.lookup (lookupHandler (s.server t).table id)))

/-- R43: a binding that REGISTER has appended is what a later LOOKUP of its id returns, if the id was unbound. -/
def Obligations.RegisteredBindingIsVisible : Prop :=
  ∀ (s : State) (t : Nat) (cmd : Byte) (h : Handler), (s.server t).srvInit = true →
    (∀ b ∈ (s.server t).table, b.1 ≠ cmd) →
    ∃ u, exec (.register t cmd (some h)) s = .next u ∧
      exec (.lookup t cmd) u = .next (u.setResult (.lookup (some h)))

/-- R105, R106: DISPATCH, select 0x7. An id with no binding gives Error, 1, 0. A bound id runs its handler, here one
that returns within its capacity (R104): the output goes to `tx` from offset 6, and the outcome is the handler's own
or its defaults, but for a negative return with status OK, which becomes Error, 4, 0. A length the 16-bit field of R17
cannot hold, which only an `OUT_CAP` above 65535 allows, leaves that field open: it is any `m` (assumption 13). -/
def Obligations.DispatchNormalisesOutcome : Prop :=
  ∀ (s : State) (t k : Nat), (s.server t).srvInit = true → (s.session k).sessInit = true →
    let x := s.session k
    SelectRuns s 0x7 { Args.zero with server := t, session := k } (.dispatch t k) ∧
    ((∀ b ∈ (s.server t).table, b.1 ≠ x.req.cmdId) →
      exec (.dispatch t k) s = .next ((s.setSession k { x with
        req := { x.req with status := .error, errorCode := 1, outputLen := 0 } }).setResult .none)) ∧
    ∀ (h : Handler) (o : HandlerOutcome), s.cfg.Valid → 4 + x.req.payloadLen.toNat ≤ s.cfg.bRx →
      lookupHandler (s.server t).table x.req.cmdId = some h →
      runHandler h x.req.cmdId (Memory.getBytes x.rx 4 x.req.payloadLen.toNat) (s.cfg.bTx - 8) =
        .returned o →
      o.written.length ≤ s.cfg.bTx - 8 → o.outputLen.getD 0 ≤ s.cfg.bTx - 8 →
      let downgrade := (BitVec.ofNat s.cfg.retW o.ret).msb = true ∧ o.status.getD .ok = .ok
      ∃ m : Half, (o.outputLen.getD 0 ≤ 65535 → m.toNat = o.outputLen.getD 0) ∧
      exec (.dispatch t k) s = .next ((s.setSession k { x with
        tx := Memory.setBytes x.tx 6 o.written
        req := { cmdId := x.req.cmdId
                 payloadLen := x.req.payloadLen
                 status := if downgrade then .error else o.status.getD .ok
                 errorCode := if downgrade then 4 else o.errorCode.getD 0
                 outputLen := if downgrade then 0 else m } }).setResult .none)

/-- R104, R169: a handler that reports or writes more than its capacity, or breaks another obligation, is
refused: by DISPATCH, and as a whole call by PROCESS when the last bytes of a valid request make it run, whichever
calls brought the first and whatever the input holds behind them. That a breach is data and that the whole call is refused are the model's choices
(assumptions 15, 17). -/
def Obligations.HandlerViolationRefused : Prop :=
  (∀ (s : State) (t k : Nat) (h : Handler), s.cfg.Valid →
    (s.server t).srvInit = true → (s.session k).sessInit = true →
    4 + (s.session k).req.payloadLen.toNat ≤ s.cfg.bRx →
    lookupHandler (s.server t).table (s.session k).req.cmdId = some h →
    RefusedAsBreach (s.cfg.bTx - 8)
      (runHandler h (s.session k).req.cmdId
        (Memory.getBytes (s.session k).rx 4 (s.session k).req.payloadLen.toNat) (s.cfg.bTx - 8))
      (exec (.dispatch t k) s)) ∧
  (∀ (s : State) (i : Instr) (t k : Nat) (cmd : Byte) (payload : List Byte) (cb : Callback) (h : Handler),
    s.cfg.Valid → (s.server t).srvInit = true → payload.length ≤ nMax s.cfg →
    ReachesRequest s t k cmd payload cb i → lookupHandler (s.server t).table cmd = some h →
    RefusedAsBreach (s.cfg.bTx - 8) (runHandler h cmd payload (s.cfg.bTx - 8)) (exec i s))

/-! ### The encoders -/

/-- R115: ENCODE_RESPONSE, select 0x8, with an output length within the capacity. The first `8 + M` bytes of `tx` are
the response frame of the record and of the output already there; every byte beyond is unchanged, and so is the
rest of the session. -/
def Obligations.EncodeResponseBuildsFrame : Prop :=
  ∀ (s : State) (k : Nat), s.cfg.Valid → (s.session k).sessInit = true →
    (s.session k).req.outputLen.toNat ≤ s.cfg.bTx - 8 →
    let x := s.session k
    let m := x.req.outputLen.toNat
    SelectRuns s 0x8 { Args.zero with session := k } (.encodeResponse k) ∧
    ∃ tx, exec (.encodeResponse k) s =
        .next ((s.setSession k { x with tx := tx }).setResult (.encodedLength (8 + m))) ∧
      Memory.getBytes tx 0 (8 + m) =
        responseImage s.cfg x.req.cmdId x.req.status x.req.errorCode (Memory.getBytes x.tx 6 m) ∧
      ∀ j, 8 + m ≤ j → Memory.get tx j = Memory.get x.tx j

/-- R116: an output length beyond the capacity is refused. -/
def Obligations.EncodeResponseTooLongRefused : Prop :=
  ∀ (s : State) (k : Nat), (s.session k).sessInit = true →
    s.cfg.bTx - 8 < (s.session k).req.outputLen.toNat →
    exec (.encodeResponse k) s = .refused .responseTooLong

/-- R117: ENCODE_REQUEST, select 0x9, returns marker, id, big-endian length, payload and the checksum over all of them, for
every payload a length field can describe; a longer one is refused, which is the model's reading of R117's bound on
its operand (assumption 24). -/
def Obligations.EncodeRequestBuildsFrame : Prop :=
  ∀ (s : State) (cmd : Byte) (payload : List Byte),
    (payload.length ≤ 65535 →
      SelectRuns s 0x9 { Args.zero with cmd := cmd, bytes := some payload } (.encodeRequest cmd payload) ∧
      ∃ crc, exec (.encodeRequest cmd payload) s =
          .next { s with result := .frame (reqImage s.cfg.marker cmd payload crc) } ∧
        crc = crc16Fn s.cfg ((reqImage s.cfg.marker cmd payload crc).take (4 + payload.length))) ∧
    (65535 < payload.length → exec (.encodeRequest cmd payload) s = .refused .payloadTooLong)

/-! ### The session processor -/

/-- R130: SESSION_INIT, select 0x1, on a session initialised or not: every byte of both buffers reads 0, the decoder and
the record are zero, the bit is set. -/
def Obligations.SessionInitClearsSession : Prop :=
  ∀ (s : State) (k : Nat),
    SelectRuns s 0x1 { Args.zero with session := k } (.sessionInit k) ∧
    ∃ x, exec (.sessionInit k) s = .next ((s.setSession k x).setResult .none) ∧
      x.sessInit = true ∧ x.decoder = { phase := .awaitMarker, accumulated := 0, expected := 0 } ∧
      (∀ j, Memory.get x.rx j = 0) ∧ (∀ j, Memory.get x.tx j = 0) ∧
      x.req = { cmdId := 0, payloadLen := 0, status := .ok, errorCode := 0, outputLen := 0 }

/-- R175, R176: after reset the session and server instance of handle 0 hold the values SESSION_INIT and
TABLE_INIT give. That a reset covers exactly handle 0 is the model's reading (assumption 7). -/
def Obligations.ResetEqualsTheTwoInitialisations : Prop :=
  (∀ t, exec (.sessionInit 0) State.reset = .next t → t.session 0 = State.reset.session 0) ∧
  (∀ t, exec (.tableInit 0) State.reset = .next t → t.server 0 = State.reset.server 0) ∧
  (State.reset.session 0).sessInit = true ∧ (State.reset.server 0).srvInit = true

/-- R134 corner case 1: an empty input changes nothing and calls nothing. -/
def Obligations.ProcessEmptyInputChangesNothing : Prop :=
  ∀ (s : State) (t k : Nat) (cb : Callback), (s.server t).srvInit = true →
    Session.Feedable s.cfg (s.session k) →
    exec (.process t k [] cb) s =
      .next (((s.setSession k (s.session k)).addSent k []).setResult .none)

/-- R136, R140, R141: PROCESS, select 0xA, on any input, from a session at rest with conforming handlers, returns with the
whole input consumed, the session at rest again and its phase not Complete. -/
def Obligations.ProcessConsumesItsInput : Prop :=
  ∀ (s : State) (t k : Nat) (input : List Byte), s.Ready t k →
    SelectRuns s 0xA { Args.zero with server := t, session := k, bytes := some input } (.process t k input .conforming) ∧
    ∃ r : Run, processInput s.cfg (s.server t).table .conforming (s.session k) input = .ok r ∧
      exec (.process t k input .conforming) s =
        .next (((s.setSession k r.sess).addSent k r.frames).setResult .none) ∧
      r.cur = input.length ∧ Session.Feedable s.cfg r.sess

/-- R138 item 1, R141, R151, R158: noise is dropped byte by byte. On a byte that is not the marker a turn of PROCESS is
one resync, which moves the cursor by one and changes nothing else; noise before any rest is dropped whole, the rest
processed as if it came alone; and an input of noise alone leaves the session as it was, the receive buffer included,
and sends nothing. -/
def Obligations.NoiseIsDroppedByteByByte : Prop :=
  (∀ (c : Config) (table : List Binding) (cb : Callback) (input : List Byte) (r : Run) (b : Byte), c.Valid →
    Session.Idle r.sess → input[r.cur]? = some b → b ≠ c.marker →
    feed c r.sess (input.drop r.cur) = .ok (.err .badMarker, r.sess) ∧
      processTurn c table cb input r = .ok (Run.resync r) ∧
      Run.resync r = { r with cur := r.cur + 1 }) ∧
  (∀ (c : Config) (table : List Binding) (cb : Callback) (x : Session) (noise rest : List Byte), c.Valid →
    Session.Idle x → (∀ b ∈ noise, b ≠ c.marker) →
    processInput c table cb x (noise ++ rest) =
      (processInput c table cb x rest).map (Run.shift noise.length [])) ∧
  (∀ (s : State) (t k : Nat) (noise : List Byte) (cb : Callback), s.cfg.Valid → (s.server t).srvInit = true →
    Session.Idle (s.session k) → (∀ b ∈ noise, b ≠ s.cfg.marker) →
    exec (.process t k noise cb) s =
      .next (((s.setSession k (s.session k)).addSent k []).setResult .none))

/-- R118, R131, R132, R134, R139: a valid request to a bound id, its handler within the contract, is answered, in the
call that brings its last bytes and whichever calls brought the first, by exactly one response with the handler's
normalised outcome; the decoder is left reset. -/
def Obligations.ValidRequestIsAnswered : Prop :=
  ∀ (s : State) (i : Instr) (t k : Nat) (cmd : Byte) (payload : List Byte) (h : Handler) (o : HandlerOutcome),
    s.cfg.Valid → (s.server t).srvInit = true → payload.length ≤ nMax s.cfg →
    BringsRequest s t k cmd payload .conforming i →
    lookupHandler (s.server t).table cmd = some h →
    acceptOutcome (outCap s.cfg) (runHandler h cmd payload (outCap s.cfg)) = .ok o →
    let x := s.session k
    let req := outcomeRecord s.cfg cmd payload o
    let m := req.outputLen.toNat
    let frame := responseImage s.cfg cmd req.status req.errorCode
      (Memory.getBytes (Memory.setBytes x.tx 6 o.written) 6 m)
    ∃ y, exec i s = .next (((s.setSession k y).addSent k [frame]).setResult .none) ∧
      y.sessInit = true ∧ y.decoder = { phase := .awaitMarker, accumulated := 0, expected := 0 } ∧
      y.req = req ∧
      Memory.getBytes y.rx 0 (6 + payload.length) = requestFrame s.cfg cmd payload ∧
      (∀ j, 6 + payload.length ≤ j → Memory.get y.rx j = Memory.get x.rx j) ∧
      Memory.getBytes y.tx 0 (8 + m) = frame ∧
      ∀ j, 8 + m ≤ j → 6 + o.written.length ≤ j → Memory.get y.tx j = Memory.get x.tx j

/-- R154: a valid request to an id with no binding is answered, in the call that brings its last bytes, by the
RSP.ERR.UNKNOWN frame that echoes the id, and by nothing else. -/
def Obligations.UnknownCommandIsAnswered : Prop :=
  ∀ (s : State) (i : Instr) (t k : Nat) (cmd : Byte) (payload : List Byte),
    s.cfg.Valid → (s.server t).srvInit = true → payload.length ≤ nMax s.cfg →
    BringsRequest s t k cmd payload .conforming i →
    (∀ b ∈ (s.server t).table, b.1 ≠ cmd) →
    ∃ u, exec i s = .next u ∧
      u.sent = s.sent ++ [{ session := k, tlen := 8, frame :=
        (encode s.cfg.marker (.rspErrUnknown { server := t, session := k, callback := .conforming } cmd
          (crc16Fn s.cfg [s.cfg.marker, cmd, 1, 1, 0, 0]))).word }] ∧
      Session.Idle (u.session k)

/-- R155, R106 row 4: a valid request whose bound handler returns negative with status OK, set or left at its default,
is answered, in the call that brings its last bytes, by the RSP.ERR.INTERNAL frame. -/
def Obligations.InternalFailureIsAnswered : Prop :=
  ∀ (s : State) (i : Instr) (t k : Nat) (cmd : Byte) (payload : List Byte) (h : Handler) (o : HandlerOutcome),
    s.cfg.Valid → (s.server t).srvInit = true → payload.length ≤ nMax s.cfg →
    BringsRequest s t k cmd payload .conforming i →
    lookupHandler (s.server t).table cmd = some h →
    acceptOutcome (outCap s.cfg) (runHandler h cmd payload (outCap s.cfg)) = .ok o →
    retNegative s.cfg o.ret = true → o.status ≠ some .error →
    ∃ u, exec i s = .next u ∧
      u.sent = s.sent ++ [{ session := k, tlen := 8, frame :=
        (encode s.cfg.marker (.rspErrInternal { server := t, session := k, callback := .conforming } cmd
          (crc16Fn s.cfg [s.cfg.marker, cmd, 1, 4, 0, 0]))).word }] ∧
      Session.Idle (u.session k)

/-- R137: after a valid request, or what earlier calls left missing of one, the rest of the input is processed as if it
came in a PROCESS call of its own; the frames sent are those of the first call, then those of the second. -/
def Obligations.BackToBackRequestsInOrder : Prop :=
  ∀ (c : Config) (table : List Binding) (cb : Callback) (x : Session) (cmd : Byte)
      (payload missing rest : List Byte) (r : Run),
    c.Valid → Session.Awaits c x (requestFrame c cmd payload) missing → payload.length ≤ nMax c →
    processInput c table cb x missing = .ok r →
    r.frames.length = 1 ∧ r.cur = missing.length ∧
    processInput c table cb x (missing ++ rest) =
      (processInput c table cb r.sess rest).map (Run.shift missing.length r.frames)

/-- R138 item 2, R152, R158: a header whose length does not fit is given up at the byte after the first byte of the
FEED that failed, and nothing is sent for it: the rest is processed as if it came alone, from a session reset with the
header in `rx`. When the header comes in one call that byte is its command id; when earlier calls took part of it, it
is the first header byte of this call. -/
def Obligations.OversizeHeaderIsGivenUp : Prop :=
  (∀ (c : Config) (table : List Binding) (cb : Callback) (x : Session) (cmd l1 l0 : Byte) (rest : List Byte),
    c.Valid → Session.Idle x → c.bRx < 6 + (be16 l1 l0).toNat →
    processInput c table cb x (c.marker :: cmd :: l1 :: l0 :: rest) =
      (processInput c table cb
        { x with rx := Memory.setBytes x.rx 0 [c.marker, cmd, l1, l0] } (l1 :: l0 :: rest)).map
        (Run.shift 2 [])) ∧
  (∀ (c : Config) (table : List Binding) (cb : Callback) (x : Session) (b : Byte) (bs rest : List Byte),
    c.Valid → Session.Feedable c x → x.decoder.phase = .awaitLengthField →
    x.decoder.expected = (b :: bs).length →
    let rx := Memory.setBytes x.rx x.decoder.accumulated (b :: bs)
    c.bRx < 6 + (be16 (Memory.get rx 2) (Memory.get rx 3)).toNat →
    processInput c table cb x (b :: (bs ++ rest)) =
      (processInput c table cb
        { x with rx := rx, decoder := { phase := .awaitMarker, accumulated := 0, expected := 0 } }
        (bs ++ rest)).map (Run.shift 1 []))

/-- R138 item 3, R153, R186, R187: a frame whose checksum does not match is given up, and nothing is sent for it; its
header and payload are not examined again. The frame may come whole, or any part of it in earlier calls. The scan resumes
one byte after the first checksum byte the failed FEED was given: at the second checksum byte when both come now, and
after it when an earlier call took the first. -/
def Obligations.BadChecksumIsGivenUp : Prop :=
  ∀ (c : Config) (table : List Binding) (cb : Callback) (x : Session) (cmd : Byte) (crc : Half)
      (payload missing rest : List Byte),
    c.Valid → payload.length ≤ nMax c → crc ≠ crc16Fn c (requestHead c cmd payload) →
    Session.Awaits c x (reqImage c.marker cmd payload crc) missing →
    let n := if missing.length = 1 then 1 else missing.length - 1
    processInput c table cb x (missing ++ rest) =
      (processInput c table cb
        { x with rx := Memory.setBytes x.rx x.decoder.accumulated missing
                 decoder := { phase := .awaitMarker, accumulated := 0, expected := 0 } }
        (missing.drop n ++ rest)).map (Run.shift n [])

/-- R169, R134: PROCESS is refused on a server instance or session that is not initialised and in phase Complete (R169),
and where `DecInv` does not hold, which R134 asks of its operand: after a failed FEED, but for one that failed with
BadMarker, which leaves the session at rest. That the last is checked on the session's fields, on an empty input too, is
the model's reading (assumption 11), and so is the order of the tests where several hold (assumption 21). -/
def Obligations.ProcessIllegalEntryRefused : Prop :=
  ∀ (s : State) (t k : Nat) (input : List Byte) (cb : Callback),
    ((s.server t).srvInit = false → exec (.process t k input cb) s = .refused .serverNotInitialised) ∧
    ((s.server t).srvInit = true → (s.session k).sessInit = false →
      exec (.process t k input cb) s = .refused .sessionNotInitialised) ∧
    ((s.server t).srvInit = true → (s.session k).sessInit = true →
      (s.session k).decoder.phase = .complete → exec (.process t k input cb) s = .refused .processInComplete) ∧
    ((s.server t).srvInit = true → (s.session k).sessInit = true →
      (s.session k).decoder.phase ≠ .complete → (s.session k).decInv s.cfg = false →
      exec (.process t k input cb) s = .refused .processPrecondition) ∧
    ((s.session k).afterFailure s.cfg = true →
      (s.session k).decoder.phase ≠ .complete ∧ (s.session k).decInv s.cfg = false)

/-- R169, R184: a transmit callback that breaks an obligation is refused when the last bytes of a valid request make
PROCESS call it, whichever calls brought the first and whatever the input holds behind them. That a breach is data and
that the whole call is refused are the model's choices (assumptions 15, 17). -/
def Obligations.CallbackBreachRefused : Prop :=
  ∀ (s : State) (i : Instr) (t k : Nat) (cmd : Byte) (payload : List Byte) (b : Breach), s.cfg.Valid →
    (s.server t).srvInit = true → TableConforming s.cfg (s.server t).table → payload.length ≤ nMax s.cfg →
    ReachesRequest s t k cmd payload (.breaching b) i →
    exec i s = .refused (.callbackBreach b)

/-! ### Frames that arrive -/

/-- R57, R131: a frame row executed is its bytes delivered to the session of its connection: one PROCESS call. A
response is delivered like a request: its third and fourth bytes, status and error code, stand where a request
has its length field. That a frame row is an arrival is the model's reading (assumption 10). -/
def Obligations.ArrivingFrameIsProcessed : Prop :=
  ∀ (s : State) (l : Link) (cmd err : Byte) (bytes : List Byte) (crc : Half),
    let m := s.cfg.marker
    let run := fun input => exec (.process l.server l.session input l.callback) s
    exec (.req l cmd bytes crc) s =
        run ([m, cmd, hi8 (lengthField bytes), lo8 (lengthField bytes)] ++ bytes ++ [hi8 crc, lo8 crc]) ∧
      exec (.rspOk l cmd err bytes crc) s =
        run ([m, cmd, 0, err, hi8 (lengthField bytes), lo8 (lengthField bytes)] ++ bytes ++
          [hi8 crc, lo8 crc]) ∧
      exec (.rspErr l cmd err bytes crc) s =
        run ([m, cmd, 1, err, hi8 (lengthField bytes), lo8 (lengthField bytes)] ++ bytes ++
          [hi8 crc, lo8 crc]) ∧
      exec (.rspErrUnknown l cmd crc) s = run [m, cmd, 1, 1, 0, 0, hi8 crc, lo8 crc] ∧
      exec (.rspErrInternal l cmd crc) s = run [m, cmd, 1, 4, 0, 0, hi8 crc, lo8 crc]

/-- R140: REQ, RSP.OK, RSP.ERR, RSP.ERR.UNKNOWN and RSP.ERR.INTERNAL, arriving on a ready connection, complete:
the session is at rest again and not Complete, no other session, no server instance, no parameter and no pending
transaction is touched, and what was sent before stays sent. -/
def Obligations.ArrivingFramesComplete : Prop :=
  ∀ (s : State) (i : Instr) (l : Link), arrivalLink i = some l → l.callback = .conforming →
    s.Ready l.server l.session →
    ∃ u y frames, exec i s = .next u ∧
      u = ((s.setSession l.session y).addSent l.session frames).setResult .none ∧
      Session.Feedable s.cfg y

/-! ### Whole-machine rules -/

/-- The invariant holds after reset. -/
def Obligations.ResetSatisfiesInvariant : Prop := State.reset.Inv

/-- Every step keeps the invariant: valid parameters, canonical buffers inside their capacities, every decoder at
rest or just failed as R22 and R95 say, every record's lengths inside their views. -/
def Obligations.StepKeepsInvariant : Prop :=
  ∀ s t : State, s.Inv → step s = .next t → t.Inv

/-- R37: from a state of the invariant no step reads or writes a buffer at or beyond its capacity. -/
def Obligations.StepNeverFaults : Prop :=
  ∀ s : State, s.Inv → SafeOutcome (step s)

/-- R26: no instruction changes the parameters. Nor does any change the transactions still to come: that the host's
operations wait in a port is the model's choice (assumption 4). -/
def Obligations.ParametersNeverChange : Prop :=
  ∀ (i : Instr) (s t : State), exec i s = .next t → t.cfg = s.cfg ∧ t.port = s.port

/-- R27, R166: an instruction changes no session but the one it names. -/
def Obligations.OtherSessionsUntouched : Prop :=
  ∀ (i : Instr) (s t : State) (k : Nat), exec i s = .next t → sessionTarget i ≠ some k →
    t.session k = s.session k

/-- R11, R43: no instruction but TABLE_INIT removes or changes a binding: every table is what it was with
bindings appended, and only REGISTER appends. -/
def Obligations.TablesOnlyGrow : Prop :=
  ∀ (i : Instr) (s t : State) (j : Nat), exec i s = .next t → (∀ n, i ≠ .tableInit n) →
    (t.server j).srvInit = (s.server j).srvInit ∧
    ∃ added, (t.server j).table = (s.server j).table ++ added ∧
      (added ≠ [] → ∃ cmd h, i = .register j cmd (some h) ∧ added = [(cmd, h)])

/-- R33, R16, 90_conflicts.md C7: who writes each buffer of a session, and where. CRC16, DEC_RESET, the table
operations, DISPATCH and the encoders leave every byte of `rx`, and so does the part of PROCESS that answers a request. CRC16,
DEC_RESET, the FEED forms, the table operations and ENCODE_REQUEST leave every byte of `tx`; DISPATCH, whose handler
writes it, leaves every byte outside the output view; ENCODE_RESPONSE leaves every byte but the header and the
checksum; PROCESS and the frame rows leave it where they send nothing. SESSION_INIT zeroes both. -/
def Obligations.BufferOwnership : Prop :=
  (∀ (i : Instr) (s t : State) (k j : Nat), s.cfg.Valid → exec i s = .next t →
    (match i with
      | .crc16 _ | .decReset _ | .tableInit _ | .register _ _ _ | .lookup _ _ | .dispatch _ _
      | .encodeResponse _ | .encodeRequest _ _ =>
        Memory.get (t.session k).rx j = Memory.get (s.session k).rx j
      | .req _ _ _ _ | .rspOk _ _ _ _ _ | .rspErr _ _ _ _ _ | .rspErrUnknown _ _ _ | .rspErrInternal _ _ _
      | .sessionInit _ | .feedAm _ _ | .feedAlf _ _ | .feedAp _ _ | .feedAc _ _ | .feedCp _ _
      | .process _ _ _ _ => True) ∧
    (match i with
      | .crc16 _ | .decReset _ | .feedAm _ _ | .feedAlf _ _ | .feedAp _ _ | .feedAc _ _ | .feedCp _ _
      | .tableInit _ | .register _ _ _ | .lookup _ _ | .encodeRequest _ _ =>
        Memory.get (t.session k).tx j = Memory.get (s.session k).tx j
      | .dispatch _ _ =>
        (j < 6 ∨ s.cfg.bTx - 2 ≤ j) → Memory.get (t.session k).tx j = Memory.get (s.session k).tx j
      | .encodeResponse _ =>
        let m := (s.session k).req.outputLen.toNat
        (6 ≤ j ∧ j < 6 + m ∨ 8 + m ≤ j) → Memory.get (t.session k).tx j = Memory.get (s.session k).tx j
      | .req _ _ _ _ | .rspOk _ _ _ _ _ | .rspErr _ _ _ _ _ | .rspErrUnknown _ _ _ | .rspErrInternal _ _ _
      | .process _ _ _ _ =>
        t.sent = s.sent → Memory.get (t.session k).tx j = Memory.get (s.session k).tx j
      | .sessionInit _ => True)) ∧
  (∀ (c : Config) (table : List Binding) (cb : Callback) (r r' : Run), c.Valid →
    answerRequest c table cb r = .ok r' → r'.sess.rx = r.sess.rx)

/-- R169, D23: on a session SESSION_INIT has not run on, every session operation but SESSION_INIT is refused. -/
def Obligations.UninitialisedSessionRefused : Prop :=
  ∀ (s : State) (t k : Nat) (chunk : List Byte) (p : Phase) (cb : Callback),
    (s.session k).sessInit = false →
    exec (.decReset k) s = .refused .sessionNotInitialised ∧
    exec (Phase.feedInstr p k chunk) s = .refused .sessionNotInitialised ∧
    exec (.encodeResponse k) s = .refused .sessionNotInitialised ∧
    ((s.server t).srvInit = true →
      exec (.dispatch t k) s = .refused .sessionNotInitialised ∧
      exec (.process t k chunk cb) s = .refused .sessionNotInitialised)

/-- R169, D23: on a server instance TABLE_INIT has not run on, LOOKUP, DISPATCH and PROCESS are refused. -/
def Obligations.UninitialisedServerRefused : Prop :=
  ∀ (s : State) (t k : Nat) (cmd : Byte) (input : List Byte) (cb : Callback),
    (s.server t).srvInit = false →
    exec (.lookup t cmd) s = .refused .serverNotInitialised ∧
    exec (.dispatch t k) s = .refused .serverNotInitialised ∧
    exec (.process t k input cb) s = .refused .serverNotInitialised

/-! ### A frame in progress -/

/-- R131, R134 corner case 6, R140, R186: an input that ends inside a frame leaves that frame in progress. Nothing is
sent, the record and `tx` stay, the bytes of the call are in `rx` behind those of earlier calls with the rest of `rx` as
it was, and the session waits for the rest of the frame, in the phase and with the counters the number of bytes taken in
says. The frame is any header, payload and checksum, right or wrong: a payload that fits `rx`, or any payload while the
header is not whole. For every table and callback. -/
def Obligations.FrameInProgressIsKept : Prop :=
  ∀ (s : State) (t k : Nat) (cmd : Byte) (crc : Half) (payload now later : List Byte) (cb : Callback),
    s.cfg.Valid → (s.server t).srvInit = true → later ≠ [] →
    let x := s.session k
    let a := x.decoder.accumulated + now.length
    Session.Awaits s.cfg x (reqImage s.cfg.marker cmd payload crc) (now ++ later) →
    payload.length ≤ nMax s.cfg ∨ payload.length ≤ 65535 ∧ a < 4 →
    let y := { x with rx := Memory.setBytes x.rx x.decoder.accumulated now
                      decoder := if now = [] then x.decoder else Decoder.inFrame payload.length a }
    exec (.process t k now cb) s = .next (((s.setSession k y).addSent k []).setResult .none) ∧
      Session.Awaits s.cfg y (reqImage s.cfg.marker cmd payload crc) later
end

