-- ==== Sys2Proof/Laws/Sparse.lean ====
section
/-!
SUPPORT. Sparse maps: read after write, and the canonical form kept by every write.
-/

namespace Sys2Proof.Machine

variable {α : Type}

theorem Sparse.get_insert (d v : α) (m : List (Nat × α)) (k j : Nat) :
    Sparse.get d (Sparse.insert k v m) j = if j = k then v else Sparse.get d m j := by
  induction m with
  | nil => simp [Sparse.insert, Sparse.get, eq_comm]
  | cons e m ih =>
    obtain ⟨a, w⟩ := e
    simp only [Sparse.insert]
    split
    · simp [Sparse.get, eq_comm]
    · split
      · next hk => subst hk; by_cases h : k = j <;> simp [Sparse.get, h, eq_comm]
      · next hk =>
        simp only [Sparse.get, ih]
        by_cases h : j = k
        · subst h; simp [Ne.symm hk]
        · simp [h]

theorem Sparse.get_erase (d : α) (m : List (Nat × α)) (k j : Nat) :
    Sparse.get d (Sparse.erase k m) j = if j = k then d else Sparse.get d m j := by
  induction m with
  | nil => simp [Sparse.erase, Sparse.get]
  | cons e m ih =>
    obtain ⟨a, w⟩ := e
    simp only [Sparse.erase] at ih ⊢
    by_cases h : a = k
    · subst h
      rw [List.filter_cons_of_neg (by simp), ih]
      by_cases hj : j = a
      · simp [hj]
      · simp [Sparse.get, hj, Ne.symm hj]
    · rw [List.filter_cons_of_pos (by simp [h])]
      simp only [Sparse.get, ih]
      by_cases hj : j = k
      · subst hj; simp [h]
      · simp [hj]

/-- Read after write, for the written key and every other. -/
theorem Sparse.get_set [DecidableEq α] (d v : α) (m : List (Nat × α)) (k j : Nat) :
    Sparse.get d (Sparse.set d m k v) j = if j = k then v else Sparse.get d m j := by
  unfold Sparse.set
  split
  · next h => rw [Sparse.get_erase, h]
  · rw [Sparse.get_insert]

theorem Sparse.mem_insert {k : Nat} {v : α} {m : List (Nat × α)} {e : Nat × α}
    (h : e ∈ Sparse.insert k v m) : e = (k, v) ∨ e ∈ m := by
  induction m with
  | nil => simpa [Sparse.insert] using h
  | cons f m ih =>
    obtain ⟨a, w⟩ := f
    simp only [Sparse.insert] at h
    split at h
    · simpa using h
    · split at h
      · rcases List.mem_cons.1 h with h | h <;> simp [h]
      · rcases List.mem_cons.1 h with h | h
        · simp [h]
        · rcases ih h with h | h <;> simp [h]

/-- Every entry after a write is the written one or an old one. -/
theorem Sparse.mem_set [DecidableEq α] {d v : α} {m : List (Nat × α)} {k : Nat} {e : Nat × α}
    (h : e ∈ Sparse.set d m k v) : e = (k, v) ∨ e ∈ m := by
  unfold Sparse.set at h
  split at h
  · exact .inr (List.mem_of_mem_filter h)
  · exact Sparse.mem_insert h

theorem Sparse.pairwise_insert {k : Nat} {v : α} {m : List (Nat × α)}
    (h : m.Pairwise (fun e f => e.1 < f.1)) :
    (Sparse.insert k v m).Pairwise (fun e f => e.1 < f.1) := by
  induction m with
  | nil => simp [Sparse.insert]
  | cons f m ih =>
    obtain ⟨a, w⟩ := f
    obtain ⟨h1, h2⟩ := List.pairwise_cons.1 h
    simp only [Sparse.insert]
    split
    · next hk =>
      refine List.pairwise_cons.2 ⟨?_, h⟩
      intro e he
      rcases List.mem_cons.1 he with rfl | he
      · exact hk
      · exact Nat.lt_trans hk (h1 e he)
    · split
      · next hk => subst hk; exact List.pairwise_cons.2 ⟨h1, h2⟩
      · refine List.pairwise_cons.2 ⟨?_, ih h2⟩
        intro e he
        rcases Sparse.mem_insert he with rfl | he
        · change a < k; omega
        · exact h1 e he

/-- A write keeps the canonical form. -/
theorem Sparse.wf_set [DecidableEq α] {d v : α} {m : List (Nat × α)} {k : Nat} (h : Sparse.wf d m) :
    Sparse.wf d (Sparse.set d m k v) := by
  refine ⟨?_, ?_⟩
  · unfold Sparse.set
    split
    · exact h.1.filter _
    · exact Sparse.pairwise_insert h.1
  · intro e he
    unfold Sparse.set at he
    split at he
    · exact h.2 e (List.mem_of_mem_filter he)
    · next hv =>
      rcases Sparse.mem_insert he with rfl | he
      · exact hv
      · exact h.2 e he

/-- What a listed key reads as is an entry. -/
theorem Sparse.get_mem_or_default (d : α) (m : List (Nat × α)) (k : Nat) :
    Sparse.get d m k = d ∨ (k, Sparse.get d m k) ∈ m := by
  induction m with
  | nil => simp [Sparse.get]
  | cons e m ih =>
    obtain ⟨a, w⟩ := e
    by_cases h : a = k
    · subst h; simp [Sparse.get]
    · simp only [Sparse.get, h, if_false]
      rcases ih with ih | ih
      · exact .inl ih
      · exact .inr (List.mem_cons_of_mem _ ih)

theorem Sparse.get_of_lt (d : α) (m : List (Nat × α)) (k : Nat) (h : ∀ e ∈ m, k < e.1) :
    Sparse.get d m k = d := by
  rcases Sparse.get_mem_or_default d m k with h' | h'
  · exact h'
  · exact absurd (h _ h') (Nat.lt_irrefl k)

/-- Two canonical maps that read alike everywhere are equal data. -/
theorem Sparse.ext {d : α} : ∀ {m n : List (Nat × α)}, Sparse.wf d m → Sparse.wf d n →
    (∀ k, Sparse.get d m k = Sparse.get d n k) → m = n
  | [], [], _, _, _ => rfl
  | [], (a, w) :: n, _, hn, h => by
    have := h a; simp [Sparse.get] at this
    exact absurd this.symm (hn.2 (a, w) (by simp))
  | (a, w) :: m, [], hm, _, h => by
    have := h a; simp [Sparse.get] at this
    exact absurd this (hm.2 (a, w) (by simp))
  | (a, w) :: m, (b, u) :: n, hm, hn, h => by
    obtain ⟨hm1, hm2⟩ := List.pairwise_cons.1 hm.1
    obtain ⟨hn1, hn2⟩ := List.pairwise_cons.1 hn.1
    have key : ∀ {x y : Nat} {p q : α} {l : List (Nat × α)}, p ≠ d → x < y →
        (∀ e ∈ l, y < e.1) → Sparse.get d ((y, q) :: l) x ≠ p := by
      intro x y p q l hp hxy hl
      rw [Sparse.get_of_lt d _ x]
      · exact Ne.symm hp
      · intro e he
        rcases List.mem_cons.1 he with rfl | he
        · exact hxy
        · exact Nat.lt_trans hxy (hl e he)
    have hab : a = b := by
      rcases Nat.lt_trichotomy a b with hlt | heq | hlt
      · have := h a; simp only [Sparse.get, if_true] at this
        exact absurd this.symm (key (hm.2 (a, w) (by simp)) hlt hn1)
      · exact heq
      · have := h b
        have h2 : Sparse.get d ((b, u) :: n) b = u := by simp [Sparse.get]
        rw [h2] at this
        exact absurd this (key (hn.2 (b, u) (by simp)) hlt hm1)
    subst hab
    have hw : w = u := by have := h a; simpa [Sparse.get] using this
    subst hw
    congr 1
    refine Sparse.ext ⟨hm2, fun e he => hm.2 e (by simp [he])⟩
      ⟨hn2, fun e he => hn.2 e (by simp [he])⟩ fun k => ?_
    by_cases hk : a = k
    · subst hk
      rw [Sparse.get_of_lt d m a hm1, Sparse.get_of_lt d n a hn1]
    · have := h k; simpa [Sparse.get, hk] using this

end Sys2Proof.Machine
end

