-- ==== Sys2Proof/Laws/Buffers.lean ====
section
/-!
SUPPORT. The two buffers: reads and writes of bytes and ranges, the canonical form and the capacity kept by
every write, and when a checked access answers.
-/

namespace Sys2Proof.Machine

@[simp] theorem Memory.get_nil (a : Nat) : Memory.get [] a = 0 := rfl

theorem Memory.get_set (m : Memory) (a j : Nat) (b : Byte) :
    Memory.get (Memory.set m a b) j = if j = a then b else Memory.get m j :=
  Sparse.get_set 0 b m a j

@[simp] theorem Memory.setBytes_nil (m : Memory) (a : Nat) : Memory.setBytes m a [] = m := rfl

@[simp] theorem Memory.getBytes_zero (m : Memory) (a : Nat) : Memory.getBytes m a 0 = [] := rfl

/-- A range write is read back inside the range, and leaves every other byte alone. -/
theorem Memory.get_setBytes (bs : List Byte) : ∀ (m : Memory) (a j : Nat),
    Memory.get (Memory.setBytes m a bs) j =
      if a ≤ j ∧ j < a + bs.length then bs.getD (j - a) 0 else Memory.get m j := by
  induction bs with
  | nil => intro m a j; simp only [Memory.setBytes, List.length_nil]; rw [if_neg (by omega)]
  | cons b bs ih =>
    intro m a j
    simp only [Memory.setBytes, ih, Memory.get_set, List.length_cons]
    by_cases h : j = a
    · subst h; simp
    · by_cases h1 : a + 1 ≤ j ∧ j < a + 1 + bs.length
      · rw [if_pos h1, if_pos (by omega), show j - a = (j - (a + 1)) + 1 by omega, List.getD_cons_succ]
      · rw [if_neg h1, if_neg h, if_neg (by omega)]

theorem Memory.get_setBytes_of_lt {m : Memory} {a j : Nat} {bs : List Byte} (h : j < a) :
    Memory.get (Memory.setBytes m a bs) j = Memory.get m j := by
  rw [Memory.get_setBytes, if_neg (by omega)]

theorem Memory.get_setBytes_of_ge {m : Memory} {a j : Nat} {bs : List Byte} (h : a + bs.length ≤ j) :
    Memory.get (Memory.setBytes m a bs) j = Memory.get m j := by
  rw [Memory.get_setBytes, if_neg (by omega)]

@[simp] theorem Memory.length_getBytes (m : Memory) (a n : Nat) : (Memory.getBytes m a n).length = n := by
  induction n generalizing a with
  | zero => rfl
  | succ n ih => simp [Memory.getBytes, ih]

theorem Memory.getBytes_add (m : Memory) (a n k : Nat) :
    Memory.getBytes m a (n + k) = Memory.getBytes m a n ++ Memory.getBytes m (a + n) k := by
  induction n generalizing a with
  | zero => simp
  | succ n ih =>
    rw [show n + 1 + k = (n + k) + 1 by omega]
    simp only [Memory.getBytes, ih, List.cons_append]
    rw [show a + 1 + n = a + (n + 1) by omega]

theorem Memory.getBytes_congr {m m' : Memory} {a n : Nat}
    (h : ∀ j, a ≤ j → j < a + n → Memory.get m j = Memory.get m' j) :
    Memory.getBytes m a n = Memory.getBytes m' a n := by
  induction n generalizing a with
  | zero => rfl
  | succ n ih =>
    simp only [Memory.getBytes]
    rw [h a (by omega) (by omega), ih fun j h1 h2 => h j (by omega) (by omega)]

/-- What a range write stored is what a range read gives. -/
theorem Memory.getBytes_setBytes_same (m : Memory) (a : Nat) (bs : List Byte) :
    Memory.getBytes (Memory.setBytes m a bs) a bs.length = bs := by
  induction bs generalizing m a with
  | nil => rfl
  | cons b bs ih =>
    simp only [Memory.setBytes, List.length_cons, Memory.getBytes, ih]
    rw [Memory.get_setBytes_of_lt (by omega), Memory.get_set, if_pos rfl]

theorem Memory.setBytes_append (m : Memory) (a : Nat) (bs cs : List Byte) :
    Memory.setBytes m a (bs ++ cs) = Memory.setBytes (Memory.setBytes m a bs) (a + bs.length) cs := by
  induction bs generalizing m a with
  | nil => rfl
  | cons b bs ih =>
    simp only [List.cons_append, Memory.setBytes, ih, List.length_cons]
    rw [show a + 1 + bs.length = a + (bs.length + 1) by omega]

/-- Every write keeps the canonical form. -/
theorem Memory.wf_set {m : Memory} {a : Nat} {b : Byte} (h : Memory.wf m) : Memory.wf (Memory.set m a b) :=
  Sparse.wf_set h

theorem Memory.wf_setBytes {m : Memory} {a : Nat} {bs : List Byte} (h : Memory.wf m) :
    Memory.wf (Memory.setBytes m a bs) := by
  induction bs generalizing m a with
  | nil => exact h
  | cons b bs ih => exact ih (Memory.wf_set h)

theorem Memory.within_setBytes {cap : Nat} {m : Memory} {a : Nat} {bs : List Byte}
    (h : Memory.within cap m) (hb : bs = [] ∨ a + bs.length ≤ cap) :
    Memory.within cap (Memory.setBytes m a bs) := by
  induction bs generalizing m a with
  | nil => exact h
  | cons b bs ih =>
    have hb' : a + (bs.length + 1) ≤ cap := by simpa using hb
    refine ih (m := Memory.set m a b) ?_ (.inr (by omega))
    intro e he
    rcases Sparse.mem_set he with rfl | he
    · change a < cap; omega
    · exact h e he

/-- Two canonical buffers that read alike are equal. -/
theorem Memory.ext {m n : Memory} (hm : Memory.wf m) (hn : Memory.wf n)
    (h : ∀ a, Memory.get m a = Memory.get n a) : m = n :=
  Sparse.ext hm hn h

theorem checkRange_ok {c : Config} {sp : Space} {a n : Nat} (h : n = 0 ∨ a + n ≤ capacity c sp) :
    checkRange c sp a n = .ok () := if_pos h

theorem memRead_ok {c : Config} {sp : Space} {m : Memory} {a n : Nat} (h : n = 0 ∨ a + n ≤ capacity c sp) :
    memRead c sp m a n = .ok (Memory.getBytes m a n) := by
  simp only [memRead, checkRange_ok h]; rfl

theorem memWrite_ok {c : Config} {sp : Space} {m : Memory} {a : Nat} {v : List Byte}
    (h : v.length = 0 ∨ a + v.length ≤ capacity c sp) :
    memWrite c sp m a v = .ok (Memory.setBytes m a v) := by
  simp only [memWrite, checkRange_ok h]; rfl

theorem memReadHalf_ok {c : Config} {sp : Space} {m : Memory} {a : Nat} (h : a + 2 ≤ capacity c sp) :
    memReadHalf c sp m a = .ok (be16 (Memory.get m a) (Memory.get m (a + 1))) := by
  simp only [memReadHalf, checkRange_ok (.inr h)]; rfl

/-- A checked access that answers was inside the buffer. -/
theorem checkRange_eq_ok {c : Config} {sp : Space} {a n : Nat} {u : Unit} (h : checkRange c sp a n = .ok u) :
    n = 0 ∨ a + n ≤ capacity c sp := by
  unfold checkRange at h
  split at h
  · assumption
  · cases h

theorem memWrite_eq_ok {c : Config} {sp : Space} {m m' : Memory} {a : Nat} {v : List Byte}
    (h : memWrite c sp m a v = .ok m') :
    (v.length = 0 ∨ a + v.length ≤ capacity c sp) ∧ m' = Memory.setBytes m a v := by
  unfold memWrite at h
  cases hc : checkRange c sp a v.length with
  | error e => rw [hc] at h; cases h
  | ok u => rw [hc] at h; cases h; exact ⟨checkRange_eq_ok hc, rfl⟩

end Sys2Proof.Machine
end

