-- ==== Sys2Proof/Laws/State.lean ====
section
/-!
SUPPORT. One lemma per field per update of State, Session and Run.
-/

namespace Sys2Proof.Machine

variable (s : State) (k j : Nat) (x : Session) (v : Server) (r : OpResult) (p : List Command)
  (fs : List (List Byte)) (c : Command)

@[simp] theorem State.setSession_cfg : (s.setSession k x).cfg = s.cfg := rfl
@[simp] theorem State.setSession_servers : (s.setSession k x).servers = s.servers := rfl
@[simp] theorem State.setSession_port : (s.setSession k x).port = s.port := rfl
@[simp] theorem State.setSession_result : (s.setSession k x).result = s.result := rfl
@[simp] theorem State.setSession_sent : (s.setSession k x).sent = s.sent := rfl
@[simp] theorem State.setSession_sessions :
    (s.setSession k x).sessions = Sparse.set Session.blank s.sessions k x := rfl
@[simp] theorem State.server_setSession : (s.setSession k x).server j = s.server j := rfl
theorem State.session_setSession : (s.setSession k x).session j = if j = k then x else s.session j :=
  Sparse.get_set Session.blank x s.sessions k j
@[simp] theorem State.session_setSession_same : (s.setSession k x).session k = x := by
  simp [State.session_setSession]
theorem State.session_setSession_ne (h : j ≠ k) : (s.setSession k x).session j = s.session j := by
  simp [State.session_setSession, h]

@[simp] theorem State.setServer_cfg : (s.setServer k v).cfg = s.cfg := rfl
@[simp] theorem State.setServer_sessions : (s.setServer k v).sessions = s.sessions := rfl
@[simp] theorem State.setServer_port : (s.setServer k v).port = s.port := rfl
@[simp] theorem State.setServer_result : (s.setServer k v).result = s.result := rfl
@[simp] theorem State.setServer_sent : (s.setServer k v).sent = s.sent := rfl
@[simp] theorem State.setServer_servers :
    (s.setServer k v).servers = Sparse.set Server.blank s.servers k v := rfl
@[simp] theorem State.session_setServer : (s.setServer k v).session j = s.session j := rfl
theorem State.server_setServer : (s.setServer k v).server j = if j = k then v else s.server j :=
  Sparse.get_set Server.blank v s.servers k j
@[simp] theorem State.server_setServer_same : (s.setServer k v).server k = v := by
  simp [State.server_setServer]

@[simp] theorem State.setResult_cfg : (s.setResult r).cfg = s.cfg := rfl
@[simp] theorem State.setResult_sessions : (s.setResult r).sessions = s.sessions := rfl
@[simp] theorem State.setResult_servers : (s.setResult r).servers = s.servers := rfl
@[simp] theorem State.setResult_port : (s.setResult r).port = s.port := rfl
@[simp] theorem State.setResult_sent : (s.setResult r).sent = s.sent := rfl
@[simp] theorem State.setResult_result : (s.setResult r).result = r := rfl
@[simp] theorem State.session_setResult : (s.setResult r).session j = s.session j := rfl
@[simp] theorem State.server_setResult : (s.setResult r).server j = s.server j := rfl

@[simp] theorem State.addSent_cfg : (s.addSent k fs).cfg = s.cfg := rfl
@[simp] theorem State.addSent_sessions : (s.addSent k fs).sessions = s.sessions := rfl
@[simp] theorem State.addSent_servers : (s.addSent k fs).servers = s.servers := rfl
@[simp] theorem State.addSent_port : (s.addSent k fs).port = s.port := rfl
@[simp] theorem State.addSent_result : (s.addSent k fs).result = s.result := rfl
@[simp] theorem State.addSent_sent : (s.addSent k fs).sent =
    s.sent ++ fs.map (fun f => { session := k, frame := f, tlen := f.length }) := rfl
@[simp] theorem State.session_addSent : (s.addSent k fs).session j = s.session j := rfl
@[simp] theorem State.server_addSent : (s.addSent k fs).server j = s.server j := rfl

@[simp] theorem State.issueNext_port : (s.issueNext c).port = c :: s.port := rfl
@[simp] theorem State.issueNext_cfg : (s.issueNext c).cfg = s.cfg := rfl
@[simp] theorem State.session_issueNext : (s.issueNext c).session j = s.session j := rfl
@[simp] theorem State.session_withPort : State.session { s with port := p } j = s.session j := rfl
@[simp] theorem State.server_withPort : State.server { s with port := p } j = s.server j := rfl

theorem State.readySession_ok (h : (s.session k).sessInit = true) : s.readySession k = .ok (s.session k) :=
  if_pos h
theorem State.readySession_refuse (h : (s.session k).sessInit = false) :
    s.readySession k = .error (.refuse .sessionNotInitialised) := by
  simp [State.readySession, h]
theorem State.readyServer_ok (h : (s.server k).srvInit = true) : s.readyServer k = .ok (s.server k) :=
  if_pos h
theorem State.readyServer_refuse (h : (s.server k).srvInit = false) :
    s.readyServer k = .error (.refuse .serverNotInitialised) := by
  simp [State.readyServer, h]

@[simp] theorem require_true (e : Refusal) : require true e = .ok () := rfl
@[simp] theorem require_false (e : Refusal) : require false e = .error (.refuse e) := rfl

/-- A sequenced answer comes from an answer of each part. -/
theorem Res.bind_eq_ok {α β : Type} {a : Res α} {f : α → Res β} {b : β} (h : (a >>= f) = .ok b) :
    ∃ v, a = .ok v ∧ f v = .ok b := by
  cases a with
  | error e => cases h
  | ok v => exact ⟨v, rfl, h⟩

@[simp] theorem Res.ok_bind {α β : Type} (a : α) (f : α → Res β) : ((.ok a : Res α) >>= f) = f a := rfl
@[simp] theorem Res.error_bind {α β : Type} (e : Stop) (f : α → Res β) :
    ((.error e : Res α) >>= f) = .error e := rfl

@[simp] theorem Res.toOutcome_ok : Res.toOutcome (.ok s) = .next s := rfl
@[simp] theorem Res.toOutcome_refuse (e : Refusal) : Res.toOutcome (.error (.refuse e)) = .refused e := rfl
@[simp] theorem Res.toOutcome_fault (f : Fault) : Res.toOutcome (.error (.fault f)) = .fault f := rfl

theorem Res.toOutcome_eq_next {a : Res State} {t : State} (h : Res.toOutcome a = .next t) : a = .ok t := by
  match a with
  | .ok u => cases h; rfl
  | .error (.fault _) => cases h
  | .error (.refuse _) => cases h

@[simp] theorem Session.decReset_sessInit : x.decReset.sessInit = x.sessInit := rfl
@[simp] theorem Session.decReset_rx : x.decReset.rx = x.rx := rfl
@[simp] theorem Session.decReset_tx : x.decReset.tx = x.tx := rfl
@[simp] theorem Session.decReset_req : x.decReset.req = x.req := rfl
@[simp] theorem Session.decReset_decoder :
    x.decReset.decoder = { phase := .awaitMarker, accumulated := 0, expected := 0 } := rfl

variable (q : Phase) (n : Nat) (bs : List Byte)

@[simp] theorem Session.setPhase_phase : (x.setPhase q).decoder.phase = q := rfl
@[simp] theorem Session.setPhase_accumulated :
    (x.setPhase q).decoder.accumulated = x.decoder.accumulated := rfl
@[simp] theorem Session.setPhase_expected : (x.setPhase q).decoder.expected = x.decoder.expected := rfl
@[simp] theorem Session.setPhase_rx : (x.setPhase q).rx = x.rx := rfl
@[simp] theorem Session.setPhase_tx : (x.setPhase q).tx = x.tx := rfl
@[simp] theorem Session.setPhase_req : (x.setPhase q).req = x.req := rfl
@[simp] theorem Session.setPhase_sessInit : (x.setPhase q).sessInit = x.sessInit := rfl
@[simp] theorem Session.declaredLen_setPhase : (x.setPhase q).declaredLen = x.declaredLen := rfl

@[simp] theorem Session.setExpected_phase : (x.setExpected n).decoder.phase = x.decoder.phase := rfl
@[simp] theorem Session.setExpected_accumulated :
    (x.setExpected n).decoder.accumulated = x.decoder.accumulated := rfl
@[simp] theorem Session.setExpected_expected : (x.setExpected n).decoder.expected = n := rfl
@[simp] theorem Session.setExpected_rx : (x.setExpected n).rx = x.rx := rfl
@[simp] theorem Session.setExpected_tx : (x.setExpected n).tx = x.tx := rfl
@[simp] theorem Session.setExpected_req : (x.setExpected n).req = x.req := rfl
@[simp] theorem Session.setExpected_sessInit : (x.setExpected n).sessInit = x.sessInit := rfl
@[simp] theorem Session.declaredLen_setExpected : (x.setExpected n).declaredLen = x.declaredLen := rfl

@[simp] theorem Session.afterCopy_phase : (x.afterCopy bs).decoder.phase = x.decoder.phase := rfl
@[simp] theorem Session.afterCopy_accumulated :
    (x.afterCopy bs).decoder.accumulated = x.decoder.accumulated + bs.length := rfl
@[simp] theorem Session.afterCopy_expected :
    (x.afterCopy bs).decoder.expected = x.decoder.expected - bs.length := rfl
@[simp] theorem Session.afterCopy_rx :
    (x.afterCopy bs).rx = Memory.setBytes x.rx x.decoder.accumulated bs := rfl
@[simp] theorem Session.afterCopy_tx : (x.afterCopy bs).tx = x.tx := rfl
@[simp] theorem Session.afterCopy_req : (x.afterCopy bs).req = x.req := rfl
@[simp] theorem Session.afterCopy_sessInit : (x.afterCopy bs).sessInit = x.sessInit := rfl

theorem Session.afterCopy_nil : x.afterCopy [] = x := rfl

theorem Session.afterCopy_append (cs : List Byte) :
    x.afterCopy (bs ++ cs) = (x.afterCopy bs).afterCopy cs := by
  simp only [Session.afterCopy, Memory.setBytes_append, List.length_append, Nat.add_assoc, Nat.sub_sub]

/-- The declared length is read from offsets 2 and 3, which a copy at offset 4 or beyond leaves alone. -/
theorem Session.declaredLen_afterCopy (h : 4 ≤ x.decoder.accumulated) :
    (x.afterCopy bs).declaredLen = x.declaredLen := by
  simp only [Session.declaredLen, Session.afterCopy_rx]
  rw [Memory.get_setBytes_of_lt (by omega), Memory.get_setBytes_of_lt (by omega)]

variable (ru : Run) (ys : List (List Byte))

@[simp] theorem Run.resync_sess : ru.resync.sess = ru.sess.decReset := rfl
@[simp] theorem Run.resync_cur : ru.resync.cur = ru.cur + 1 := rfl
@[simp] theorem Run.resync_frames : ru.resync.frames = ru.frames := rfl
@[simp] theorem Run.shift_sess : (ru.shift n ys).sess = ru.sess := rfl
@[simp] theorem Run.shift_cur : (ru.shift n ys).cur = n + ru.cur := rfl
@[simp] theorem Run.shift_frames : (ru.shift n ys).frames = ys ++ ru.frames := rfl
@[simp] theorem Run.start_sess : (Run.start x).sess = x := rfl
@[simp] theorem Run.start_cur : (Run.start x).cur = 0 := rfl
@[simp] theorem Run.start_frames : (Run.start x).frames = [] := rfl
@[simp] theorem Run.afterFeed_ok : ru.afterFeed (.ok n, x) = { ru with sess := x, cur := ru.cur + n } := rfl
@[simp] theorem Run.afterFeed_err (e : FeedError) :
    ru.afterFeed (.err e, x) = { ru with sess := x.decReset, cur := ru.cur + 1 } := rfl

end Sys2Proof.Machine
end

