-- ==== Sys2Proof/Laws/Feed.lean ====
section
/-!
SUPPORT. FEED: its answer in closed form on a session at rest, and what every answer keeps.
-/

namespace Sys2Proof.Machine

/-! ### The invariant at rest, phase by phase -/

section
variable {c : Config} {x : Session}

theorem Session.decInv_awaitMarker (hp : x.decoder.phase = .awaitMarker) :
    x.decInv c = true ↔ x.decoder.accumulated = 0 ∧ x.decoder.expected = 0 := by
  simp [Session.decInv, hp]

theorem Session.decInv_awaitLengthField (hp : x.decoder.phase = .awaitLengthField) :
    x.decInv c = true ↔ Memory.get x.rx 0 = c.marker ∧ 1 ≤ x.decoder.accumulated ∧
      x.decoder.accumulated ≤ 3 ∧ x.decoder.accumulated + x.decoder.expected = 4 := by
  simp [Session.decInv, hp]

theorem Session.decInv_awaitPayload (hp : x.decoder.phase = .awaitPayload) :
    x.decInv c = true ↔ Memory.get x.rx 0 = c.marker ∧ 4 ≤ x.decoder.accumulated ∧
      x.decoder.accumulated + x.decoder.expected = 4 + x.declaredLen ∧ 4 + x.declaredLen + 2 ≤ c.bRx ∧
      (x.decoder.expected = 0 → x.declaredLen = 0) := by
  simp [Session.decInv, hp, and_assoc, imp_iff_not_or]

theorem Session.decInv_awaitChecksum (hp : x.decoder.phase = .awaitChecksum) :
    x.decInv c = true ↔ Memory.get x.rx 0 = c.marker ∧ 4 + x.declaredLen ≤ x.decoder.accumulated ∧
      x.decoder.accumulated ≤ 5 + x.declaredLen ∧
      x.decoder.accumulated + x.decoder.expected = 6 + x.declaredLen ∧ 4 + x.declaredLen + 2 ≤ c.bRx := by
  simp [Session.decInv, hp]

theorem Session.decInv_complete (hp : x.decoder.phase = .complete) :
    x.decInv c = true ↔ Memory.get x.rx 0 = c.marker ∧
      (x.decoder.accumulated = 6 + x.declaredLen ∧ x.decoder.expected = 0 ∧ 4 + x.declaredLen + 2 ≤ c.bRx) ∧
      be16 (Memory.get x.rx (4 + x.declaredLen)) (Memory.get x.rx (5 + x.declaredLen)) =
        crc16Fn c (Memory.getBytes x.rx 0 (4 + x.declaredLen)) := by
  simp [Session.decInv, hp, and_assoc]

/-- A reset decoder is at rest. -/
@[simp] theorem Session.decInv_decReset (c : Config) (x : Session) : x.decReset.decInv c = true := by
  simp [Session.decInv]

/-- The bound of R23. -/
theorem Session.accumulated_add_expected_le (hv : c.Valid) (h : x.decInv c = true) :
    x.decoder.accumulated + x.decoder.expected ≤ c.bRx := by
  obtain ⟨hv, -, -⟩ := hv
  cases hp : x.decoder.phase with
  | awaitMarker => have := (Session.decInv_awaitMarker hp).1 h; omega
  | awaitLengthField => have := (Session.decInv_awaitLengthField hp).1 h; omega
  | awaitPayload => have := (Session.decInv_awaitPayload hp).1 h; omega
  | awaitChecksum => have := (Session.decInv_awaitChecksum hp).1 h; omega
  | complete => have := ((Session.decInv_complete hp).1 h).2.1; omega

end

/-! ### FEED in closed form -/

/-- What FEED answers on a session at rest in a phase other than Complete. -/
def feedAnswer (c : Config) (x : Session) (chunk : List Byte) : FeedResult × Session :=
  let e := x.decoder.expected
  let y := x.afterCopy (chunk.take e)
  match x.decoder.phase with
  | .awaitMarker =>
    match chunk with
    | [] => (.ok 0, x)
    | b :: _ =>
      if b = c.marker then
        (.ok 1, { x with rx := Memory.setBytes x.rx 0 [b],
                         decoder := { phase := .awaitLengthField, accumulated := 1, expected := 3 } })
      else (.err .badMarker, x)
  | .awaitLengthField =>
    if chunk.length < e then (.ok chunk.length, y)
    else if c.bRx < 4 + y.declaredLen + 2 then (.err .frameTooLong, y.setExpected y.declaredLen)
    else (.ok e, (y.setExpected y.declaredLen).setPhase .awaitPayload)
  | .awaitPayload =>
    if chunk.length < e then (.ok chunk.length, y) else (.ok e, (y.setExpected 2).setPhase .awaitChecksum)
  | .awaitChecksum =>
    if chunk.length < e then (.ok chunk.length, y)
    else if be16 (Memory.get y.rx (4 + x.declaredLen)) (Memory.get y.rx (5 + x.declaredLen)) =
        crc16Fn c (Memory.getBytes y.rx 0 (4 + x.declaredLen)) then (.ok e, y.setPhase .complete)
    else (.err .checksumError, y)
  | .complete => (.ok 0, x)

/-! ### The branches of FEED's answer, one equation each -/

section
variable {c : Config} {x : Session} {chunk : List Byte}

/-- A chunk shorter than what is expected, in a copying phase (R82). -/
theorem feedAnswer_short (hp : x.decoder.phase ≠ .awaitMarker) (hc : x.decoder.phase ≠ .complete)
    (h : chunk.length < x.decoder.expected) :
    feedAnswer c x chunk = (.ok chunk.length, x.afterCopy chunk) := by
  have ht : chunk.take x.decoder.expected = chunk := List.take_of_length_le (by omega)
  unfold feedAnswer
  cases hq : x.decoder.phase with
  | awaitMarker => exact absurd hq hp
  | complete => exact absurd hq hc
  | awaitLengthField => simp only [h, if_true, ht]
  | awaitPayload => simp only [h, if_true, ht]
  | awaitChecksum => simp only [h, if_true, ht]

/-- The header is whole and its frame does not fit (R86, R152). -/
theorem feedAnswer_rejects (hp : x.decoder.phase = .awaitLengthField)
    (h : x.decoder.expected ≤ chunk.length)
    (hn : c.bRx < 4 + (x.afterCopy (chunk.take x.decoder.expected)).declaredLen + 2) :
    feedAnswer c x chunk = (.err .frameTooLong, (x.afterCopy (chunk.take x.decoder.expected)).setExpected
      (x.afterCopy (chunk.take x.decoder.expected)).declaredLen) := by
  simp only [feedAnswer, hp, Nat.not_lt.2 h, if_false, hn, if_true]

/-- The header is whole and its frame fits (R86). -/
theorem feedAnswer_accepts (hp : x.decoder.phase = .awaitLengthField)
    (h : x.decoder.expected ≤ chunk.length)
    (hn : 4 + (x.afterCopy (chunk.take x.decoder.expected)).declaredLen + 2 ≤ c.bRx) :
    feedAnswer c x chunk = (.ok x.decoder.expected,
      ((x.afterCopy (chunk.take x.decoder.expected)).setExpected
        (x.afterCopy (chunk.take x.decoder.expected)).declaredLen).setPhase .awaitPayload) := by
  simp only [feedAnswer, hp, Nat.not_lt.2 h, if_false, Nat.not_lt.2 hn]

/-- The payload is whole (R88). -/
theorem feedAnswer_payloadDone (hp : x.decoder.phase = .awaitPayload)
    (h : x.decoder.expected ≤ chunk.length) :
    feedAnswer c x chunk = (.ok x.decoder.expected,
      ((x.afterCopy (chunk.take x.decoder.expected)).setExpected 2).setPhase .awaitChecksum) := by
  simp only [feedAnswer, hp, Nat.not_lt.2 h, if_false]

/-- Both checksum bytes are in and match (R89). -/
theorem feedAnswer_matches (hp : x.decoder.phase = .awaitChecksum)
    (h : x.decoder.expected ≤ chunk.length)
    (hm : be16 (Memory.get (x.afterCopy (chunk.take x.decoder.expected)).rx (4 + x.declaredLen))
        (Memory.get (x.afterCopy (chunk.take x.decoder.expected)).rx (5 + x.declaredLen)) =
      crc16Fn c (Memory.getBytes (x.afterCopy (chunk.take x.decoder.expected)).rx 0 (4 + x.declaredLen))) :
    feedAnswer c x chunk = (.ok x.decoder.expected,
      (x.afterCopy (chunk.take x.decoder.expected)).setPhase .complete) := by
  simp only [feedAnswer, hp, Nat.not_lt.2 h, if_false, hm, if_true]

/-- Both checksum bytes are in and do not match (R89, R153). -/
theorem feedAnswer_mismatch (hp : x.decoder.phase = .awaitChecksum)
    (h : x.decoder.expected ≤ chunk.length)
    (hm : be16 (Memory.get (x.afterCopy (chunk.take x.decoder.expected)).rx (4 + x.declaredLen))
        (Memory.get (x.afterCopy (chunk.take x.decoder.expected)).rx (5 + x.declaredLen)) ≠
      crc16Fn c (Memory.getBytes (x.afterCopy (chunk.take x.decoder.expected)).rx 0 (4 + x.declaredLen))) :
    feedAnswer c x chunk = (.err .checksumError, x.afterCopy (chunk.take x.decoder.expected)) := by
  simp only [feedAnswer, hp, Nat.not_lt.2 h, if_false, hm]

end

theorem copyChunk_ok {c : Config} {x : Session} {chunk : List Byte} (hv : c.Valid) (h : x.decInv c = true) :
    copyChunk c x chunk =
      .ok (min chunk.length x.decoder.expected, x.afterCopy (chunk.take x.decoder.expected)) := by
  have hb := Session.accumulated_add_expected_le hv h
  have ht : chunk.take (min chunk.length x.decoder.expected) = chunk.take x.decoder.expected := by
    rw [Nat.min_comm, ← List.take_take, List.take_length]
  simp only [copyChunk, ht]
  rw [checkRange_ok]
  · rfl
  · right; simp only [capacity]; omega

/-- FEED on a session at rest answers `feedAnswer` (R85 to R89). -/
theorem feed_eq {c : Config} {x : Session} (chunk : List Byte) (hv : c.Valid) (h : x.decInv c = true)
    (hc : x.decoder.phase ≠ .complete) : feed c x chunk = .ok (feedAnswer c x chunk) := by
  have hb := hv.1
  simp only [feed, hc, if_false, h, if_true]
  cases hp : x.decoder.phase with
  | awaitMarker =>
    simp only [feedPhase, hp, feedAnswer, feedMarker]
    cases chunk with
    | nil => rfl
    | cons b bs =>
      simp only
      split
      · rw [memWrite_ok (by right; simp only [capacity, List.length_cons, List.length_nil]; omega)]; rfl
      · rfl
  | awaitLengthField =>
    have hi := (Session.decInv_awaitLengthField hp).1 h
    simp only [feedPhase, hp, feedAnswer, feedLength, copyChunk_ok hv h, Res.ok_bind,
      Session.afterCopy_expected, List.length_take]
    by_cases hl : chunk.length < x.decoder.expected
    · rw [if_pos (by omega), if_pos hl, Nat.min_eq_left (by omega)]
    · rw [if_neg (by omega), if_neg hl, memReadHalf_ok (by simp only [capacity, lenOff]; omega)]
      simp only [Res.ok_bind]
      rw [show min chunk.length x.decoder.expected = x.decoder.expected by omega]
      simp only [Session.setExpected_accumulated, Session.afterCopy_accumulated, List.length_take,
        Session.setExpected_expected, trailer, lenOff, Session.declaredLen]
      rw [show x.decoder.accumulated + min x.decoder.expected chunk.length = 4 by omega]
      simp only [gt_iff_lt, Nat.reduceAdd]
      split <;> next hbig => simp only [hbig, if_true, if_false]
  | awaitPayload =>
    simp only [feedPhase, hp, feedAnswer, feedPayload, copyChunk_ok hv h, Res.ok_bind,
      Session.afterCopy_expected, List.length_take]
    by_cases hl : chunk.length < x.decoder.expected
    · rw [if_pos (by omega), if_pos hl, Nat.min_eq_left (by omega)]
    · rw [if_neg (by omega), if_neg hl, Nat.min_eq_right (by omega)]; rfl
  | awaitChecksum =>
    have hi := (Session.decInv_awaitChecksum hp).1 h
    simp only [feedPhase, hp, feedAnswer, feedChecksum, copyChunk_ok hv h, Res.ok_bind,
      Session.afterCopy_expected, List.length_take, Session.afterCopy_accumulated, trailer]
    by_cases hl : chunk.length < x.decoder.expected
    · rw [if_pos (by omega), if_pos hl, Nat.min_eq_left (by omega)]
    · rw [if_neg (by omega), if_neg hl, show min chunk.length x.decoder.expected = x.decoder.expected by omega]
      rw [show x.decoder.accumulated + min x.decoder.expected chunk.length - 2 = 4 + x.declaredLen by omega]
      rw [memReadHalf_ok (by simp only [capacity]; omega), memRead_ok (by right; simp only [capacity]; omega)]
      simp only [Res.ok_bind, ne_eq, ite_not]
      rw [show 4 + x.declaredLen + 1 = 5 + x.declaredLen by omega]
      split <;> rfl
  | complete => exact absurd hp hc

/-- What FEED answers, it answers on a session at rest in a phase other than Complete. -/
theorem feed_eq_ok {c : Config} {x : Session} {chunk : List Byte} {a : FeedResult × Session}
    (h : feed c x chunk = .ok a) : x.decInv c = true ∧ x.decoder.phase ≠ .complete := by
  unfold feed at h
  split at h
  · cases h
  · split at h
    · exact ⟨by assumption, by assumption⟩
    · cases h

/-! ### What FEED keeps -/

/-- FEED writes nothing but the decoder and `rx` (R15, R33). -/
theorem feedAnswer_frame (c : Config) (x : Session) (chunk : List Byte) :
    (feedAnswer c x chunk).2.tx = x.tx ∧ (feedAnswer c x chunk).2.req = x.req ∧
      (feedAnswer c x chunk).2.sessInit = x.sessInit := by
  unfold feedAnswer
  cases x.decoder.phase <;> simp only
  · cases chunk <;> simp only
    · simp
    · split <;> simp
  · split <;> (try split) <;> simp
  · split <;> simp
  · split <;> (try split) <;> simp
  · simp

/-- The bytes FEED stored lie from the old `accumulated` to the new one. -/
theorem feedAnswer_rx (c : Config) (x : Session) (chunk : List Byte) (h : x.decInv c = true) :
    ∃ bs, (feedAnswer c x chunk).2.rx = Memory.setBytes x.rx x.decoder.accumulated bs ∧
      (feedAnswer c x chunk).2.decoder.accumulated = x.decoder.accumulated + bs.length ∧
      bs.length ≤ chunk.length ∧
      (x.decoder.phase = .awaitMarker → bs.length ≤ 1) ∧
      (x.decoder.phase ≠ .awaitMarker → bs.length ≤ x.decoder.expected) := by
  cases hp : x.decoder.phase with
  | awaitMarker =>
    have ha := (Session.decInv_awaitMarker hp).1 h
    cases chunk with
    | nil => exact ⟨[], by simp [feedAnswer, hp]⟩
    | cons b bs =>
      simp only [feedAnswer, hp]
      split
      · exact ⟨[b], by simp [ha.1]⟩
      · exact ⟨[], by simp⟩
  | awaitLengthField =>
    refine ⟨chunk.take x.decoder.expected, ?_⟩
    simp only [feedAnswer, hp]
    split <;> (try split) <;> simp
  | awaitPayload =>
    refine ⟨chunk.take x.decoder.expected, ?_⟩
    simp only [feedAnswer, hp]
    split <;> simp
  | awaitChecksum =>
    refine ⟨chunk.take x.decoder.expected, ?_⟩
    simp only [feedAnswer, hp]
    split <;> (try split) <;> simp
  | complete => exact ⟨[], by simp [feedAnswer, hp]⟩

theorem be16_toNat_le (a b : Byte) : (be16 a b).toNat ≤ 65535 := by
  have := (be16 a b).isLt; omega

/-- A successful FEED leaves the decoder at rest; a failed one leaves it as R95 says. -/
theorem feedAnswer_rest {c : Config} {x : Session} (chunk : List Byte) (hv : c.Valid)
    (h : x.decInv c = true) (hc : x.decoder.phase ≠ .complete) :
    match feedAnswer c x chunk with
    | (.ok _, y) => y.decInv c = true
    | (.err .badMarker, y) => y = x
    | (.err .frameTooLong, y) => y.afterFailure c = true ∧ y.decoder.phase = .awaitLengthField
    | (.err .checksumError, y) => y.afterFailure c = true ∧ y.decoder.phase = .awaitChecksum := by
  have hb := hv.1
  cases hp : x.decoder.phase with
  | awaitMarker =>
    cases chunk with
    | nil => simpa [feedAnswer, hp] using h
    | cons b bs =>
      simp only [feedAnswer, hp]
      by_cases hm : b = c.marker
      · simp only [hm, if_true]
        rw [Session.decInv_awaitLengthField rfl]
        simp [Memory.get_setBytes]
      · simp [hm]
  | awaitLengthField =>
    have hi := (Session.decInv_awaitLengthField hp).1 h
    have h0 : ∀ bs : List Byte, Memory.get (x.afterCopy bs).rx 0 = c.marker := fun bs => by
      rw [Session.afterCopy_rx, Memory.get_setBytes_of_lt (by omega)]; exact hi.1
    simp only [feedAnswer, hp]
    by_cases hl : chunk.length < x.decoder.expected
    · simp only [hl, if_true]
      rw [Session.decInv_awaitLengthField (by simpa using hp)]
      exact ⟨h0 _, by simp; omega⟩
    · simp only [hl, if_false]
      have hlen : x.decoder.accumulated + min x.decoder.expected chunk.length = 4 := by omega
      by_cases hbig : c.bRx < 4 + (x.afterCopy (chunk.take x.decoder.expected)).declaredLen + 2
      · simp only [hbig, if_true]
        simp [Session.afterFailure, hp, hlen, hbig]
      · simp only [hbig, if_false]
        rw [Session.decInv_awaitPayload rfl]
        refine ⟨h0 _, ?_, ?_, ?_, ?_⟩
        · simp; omega
        · simp [hlen]
        · simp; omega
        · simp
  | awaitPayload =>
    have hi := (Session.decInv_awaitPayload hp).1 h
    have h0 : ∀ bs : List Byte, Memory.get (x.afterCopy bs).rx 0 = c.marker := fun bs => by
      rw [Session.afterCopy_rx, Memory.get_setBytes_of_lt (by omega)]; exact hi.1
    have hd := fun bs => Session.declaredLen_afterCopy x bs (by omega)
    simp only [feedAnswer, hp]
    by_cases hl : chunk.length < x.decoder.expected
    · simp only [hl, if_true]
      rw [Session.decInv_awaitPayload (by simpa using hp)]
      refine ⟨h0 _, ?_⟩
      simp [hd]; omega
    · simp only [hl, if_false]
      rw [Session.decInv_awaitChecksum rfl]
      refine ⟨h0 _, ?_⟩
      simp [hd]; omega
  | awaitChecksum =>
    have hi := (Session.decInv_awaitChecksum hp).1 h
    have h0 : ∀ bs : List Byte, Memory.get (x.afterCopy bs).rx 0 = c.marker := fun bs => by
      rw [Session.afterCopy_rx, Memory.get_setBytes_of_lt (by omega)]; exact hi.1
    have hd := fun bs => Session.declaredLen_afterCopy x bs (by omega)
    simp only [feedAnswer, hp]
    by_cases hl : chunk.length < x.decoder.expected
    · simp only [hl, if_true]
      rw [Session.decInv_awaitChecksum (by simpa using hp)]
      refine ⟨h0 _, ?_⟩
      simp [hd]; omega
    · simp only [hl, if_false]
      split
      · next hs =>
        split at hs
        · next hcrc =>
          cases hs
          rw [Session.decInv_complete rfl]
          refine ⟨h0 _, ?_, ?_⟩
          · simp [hd]; omega
          · simpa [hd] using hcrc
        · cases hs
      · next hs => split at hs <;> cases hs
      · next hs => split at hs <;> cases hs
      · next hs =>
        split at hs
        · cases hs
        · cases hs
          simp [Session.afterFailure, hp, hd]; omega
  | complete => exact absurd hp hc

/-- A FEED on a chunk that is not empty consumes no more than the chunk, and makes progress (R93). -/
theorem feedAnswer_progress {c : Config} {x y : Session} {chunk : List Byte} {n : Nat}
    (h : x.decInv c = true) (hc : x.decoder.phase ≠ .complete) (hne : chunk ≠ [])
    (ha : feedAnswer c x chunk = (.ok n, y)) :
    n ≤ chunk.length ∧ (n = 0 → x.decoder.phase = .awaitPayload ∧ x.decoder.expected = 0 ∧
      y = (x.setExpected 2).setPhase .awaitChecksum) ∧
    (y.decoder.phase = .complete → 0 < n) := by
  have hlen : 0 < chunk.length := List.length_pos_iff.2 hne
  cases hp : x.decoder.phase with
  | awaitMarker =>
    cases chunk with
    | nil => exact absurd rfl hne
    | cons b bs =>
      simp only [feedAnswer, hp] at ha
      split at ha
      · cases ha; simp
      · cases ha
  | awaitLengthField =>
    have hi := (Session.decInv_awaitLengthField hp).1 h
    simp only [feedAnswer, hp] at ha
    split at ha
    · cases ha; exact ⟨Nat.le_refl _, fun h0 => by omega, fun _ => hlen⟩
    · split at ha
      · cases ha
      · cases ha; exact ⟨by omega, fun h0 => by omega, fun h0 => by simp at h0⟩
  | awaitPayload =>
    simp only [feedAnswer, hp] at ha
    split at ha
    · cases ha; exact ⟨Nat.le_refl _, fun h0 => by omega, fun _ => hlen⟩
    · cases ha
      refine ⟨by omega, fun h0 => ⟨rfl, h0, ?_⟩, fun h0 => by simp at h0⟩
      rw [h0, List.take_zero, Session.afterCopy_nil]
  | awaitChecksum =>
    have hi := (Session.decInv_awaitChecksum hp).1 h
    simp only [feedAnswer, hp] at ha
    split at ha
    · cases ha; exact ⟨Nat.le_refl _, fun h0 => by omega, fun _ => hlen⟩
    · split at ha
      · cases ha; exact ⟨by omega, fun h0 => by omega, fun _ => by omega⟩
      · cases ha
  | complete => exact absurd hp hc

end Sys2Proof.Machine
end

