-- ==== Sys2Proof/Laws/Answer.lean ====
section
/-!
SUPPORT. The dispatcher and the response encoder: when they answer, what, and what every answer keeps.
-/

namespace Sys2Proof.Machine

/-! ### The outcome record -/

theorem CurrentRequest.normalise_cases (r : CurrentRequest) (b : Bool) :
    r.normalise b = r ∨ r.normalise b = r.internalFailure := by
  unfold CurrentRequest.normalise
  cases b
  · exact .inl rfl
  · cases r.status
    · exact .inr rfl
    · exact .inl rfl

@[simp] theorem CurrentRequest.normalise_cmdId (r : CurrentRequest) (b : Bool) :
    (r.normalise b).cmdId = r.cmdId := by
  rcases r.normalise_cases b with h | h <;> rw [h]; rfl

@[simp] theorem CurrentRequest.normalise_payloadLen (r : CurrentRequest) (b : Bool) :
    (r.normalise b).payloadLen = r.payloadLen := by
  rcases r.normalise_cases b with h | h <;> rw [h]; rfl

theorem CurrentRequest.normalise_outputLen_le (r : CurrentRequest) (b : Bool) :
    (r.normalise b).outputLen.toNat ≤ r.outputLen.toNat := by
  rcases r.normalise_cases b with h | h <;> rw [h]
  simp [CurrentRequest.internalFailure]

@[simp] theorem outputLenField_of_le {n : Nat} (h : n ≤ 65535) : (outputLenField n).toNat = n := by
  rw [outputLenField, if_pos h, BitVec.toNat_ofNat, Nat.mod_eq_of_lt (by omega)]

/-- The field holds no more than what was reported, whatever the free value is. -/
theorem outputLenField_le (n : Nat) : (outputLenField n).toNat ≤ n := by
  by_cases h : n ≤ 65535
  · rw [outputLenField_of_le h]
  · have := (outputLenField n).isLt
    omega

/-- The output length a handler leaves over the defaults lies within what it reported (R104, R105). -/
theorem CurrentRequest.afterHandler_outputLen_le (r : CurrentRequest) (o : HandlerOutcome) :
    (r.withDefaults.afterHandler o).outputLen.toNat ≤ o.outputLen.getD 0 := by
  cases h : o.outputLen with
  | none => simp [CurrentRequest.afterHandler, CurrentRequest.withDefaults, h]
  | some n => simpa [CurrentRequest.afterHandler, h] using outputLenField_le n

/-! ### The handler contract -/

theorem acceptOutcome_ok {cap : Nat} {o : HandlerOutcome} (h1 : o.written.length ≤ cap)
    (h2 : o.outputLen.getD 0 ≤ cap) : acceptOutcome cap (.returned o) = .ok o := by
  simp only [acceptOutcome]
  rw [decide_eq_true h1, decide_eq_true h2]; rfl

/-- An accepted result was returned, within the capacity (R104). -/
theorem acceptOutcome_eq_ok {cap : Nat} {a : HandlerResult} {o : HandlerOutcome}
    (h : acceptOutcome cap a = .ok o) :
    a = .returned o ∧ o.written.length ≤ cap ∧ o.outputLen.getD 0 ≤ cap := by
  cases a with
  | breached b => cases h
  | returned p =>
    obtain ⟨u, h1, h⟩ := Res.bind_eq_ok h
    obtain ⟨v, h2, h⟩ := Res.bind_eq_ok h
    cases h
    refine ⟨rfl, ?_, ?_⟩
    · by_contra hc; rw [decide_eq_false hc] at h1; cases h1
    · by_contra hc; rw [decide_eq_false hc] at h2; cases h2

/-- An outcome that is the refusal of every result not accepted refuses every breach (R104, R169). -/
theorem RefusedAsBreach.of_acceptOutcome {cap : Nat} {a : HandlerResult} {o : Host.Outcome State Fault Refusal}
    (h : ∀ f, acceptOutcome cap a = .error (.refuse f) → o = .refused f) : RefusedAsBreach cap a o := by
  cases a with
  | breached b => exact h _ rfl
  | returned q =>
    refine ⟨fun hx => h _ ?_, fun hx hy => h _ ?_⟩
    · simp only [acceptOutcome]; rw [decide_eq_false (by omega)]; rfl
    · simp only [acceptOutcome]; rw [decide_eq_true (by omega), decide_eq_false (by omega)]; rfl

/-- A refused result is no fault. -/
theorem acceptOutcome_no_fault {cap : Nat} {a : HandlerResult} {f : Fault} :
    acceptOutcome cap a ≠ .error (.fault f) := by
  intro h
  cases a with
  | breached b => cases h
  | returned p =>
    simp only [acceptOutcome] at h
    cases h1 : decide (p.written.length ≤ cap) with
    | false => rw [h1] at h; cases h
    | true =>
      rw [h1] at h
      cases h2 : decide (p.outputLen.getD 0 ≤ cap) with
      | false => rw [h2] at h; cases h
      | true => rw [h2] at h; cases h

/-- ECHO meets its obligations whatever the capacity. -/
theorem Handler.conforming_echo (c : Config) : Handler.Conforming c .echo := by
  intro cmd payload
  refine ⟨echoOutcome payload (outCap c), acceptOutcome_ok ?_ ?_⟩
  · simp [echoOutcome]
  · simp [echoOutcome]

/-- A fixed outcome within the capacity meets its obligations. -/
theorem Handler.conforming_fixed {c : Config} {o : HandlerOutcome} (h1 : o.written.length ≤ outCap c)
    (h2 : o.outputLen.getD 0 ≤ outCap c) : Handler.Conforming c (.fixed (.returned o)) :=
  fun _ _ => ⟨o, acceptOutcome_ok h1 h2⟩

theorem lookupHandler_mem {t : List Binding} {cmd : Byte} {h : Handler}
    (hl : lookupHandler t cmd = some h) : (cmd, h) ∈ t := by
  induction t with
  | nil => cases hl
  | cons b t ih =>
    obtain ⟨c, g⟩ := b
    simp only [lookupHandler] at hl
    split at hl
    · next hc => cases hl; subst hc; simp
    · exact List.mem_cons_of_mem _ (ih hl)

/-- LOOKUP finds nothing where no binding has the id (R102). -/
theorem lookupHandler_eq_none {t : List Binding} {cmd : Byte} (h : ∀ b ∈ t, b.1 ≠ cmd) :
    lookupHandler t cmd = none := by
  induction t with
  | nil => rfl
  | cons b t ih =>
    simp only [lookupHandler]
    rw [if_neg (h b (by simp)), ih fun b hb => h b (by simp [hb])]

/-- LOOKUP passes over bindings of other ids (R102). -/
theorem lookupHandler_append {pre post : List Binding} {cmd : Byte} (h : ∀ b ∈ pre, b.1 ≠ cmd) :
    lookupHandler (pre ++ post) cmd = lookupHandler post cmd := by
  induction pre with
  | nil => rfl
  | cons b t ih =>
    simp only [List.cons_append, lookupHandler]
    rw [if_neg (h b (by simp)), ih fun b hb => h b (by simp [hb])]

/-- A binding found stays found when others are appended (R103). -/
theorem lookupHandler_append_of_some {pre post : List Binding} {cmd : Byte} {h : Handler}
    (hl : lookupHandler pre cmd = some h) : lookupHandler (pre ++ post) cmd = some h := by
  induction pre with
  | nil => cases hl
  | cons b t ih =>
    obtain ⟨c, g⟩ := b
    simp only [List.cons_append, lookupHandler] at *
    split at hl
    · next hh => rw [if_pos hh]; exact hl
    · next hh => rw [if_neg hh]; exact ih hl

/-! ### DISPATCH -/

theorem dispatchRequest_unknown {c : Config} {t : List Binding} {x : Session}
    (h : lookupHandler t x.req.cmdId = none) :
    dispatchRequest c t x = .ok { x with req := x.req.withDefaults.commandUnknown } := by
  simp only [dispatchRequest, CurrentRequest.withDefaults, h]

/-- DISPATCH with a bound handler that meets its contract (R105, R106). -/
theorem dispatchRequest_found {c : Config} {t : List Binding} {x : Session} {h : Handler}
    {o : HandlerOutcome} (hv : c.Valid) (hn : payloadOff + x.req.payloadLen.toNat ≤ c.bRx)
    (hl : lookupHandler t x.req.cmdId = some h)
    (ho : acceptOutcome (outCap c) (runHandler h x.req.cmdId
      (Memory.getBytes x.rx payloadOff x.req.payloadLen.toNat) (outCap c)) = .ok o) :
    dispatchRequest c t x = .ok { x with
      tx := Memory.setBytes x.tx outputOff o.written
      req := (x.req.withDefaults.afterHandler o).normalise (retNegative c o.ret) } := by
  have hw := (acceptOutcome_eq_ok ho).2.1
  have hb := hv.2.1
  simp only [dispatchRequest, CurrentRequest.withDefaults, hl, invokeHandler]
  rw [memRead_ok (.inr hn)]
  simp only [Res.ok_bind, ho]
  rw [memWrite_ok (by right; simp only [capacity, outputOff, outCap] at *; omega)]
  rfl

/-- DISPATCH of a bound id runs the handler on the payload view, and goes on where its result is accepted (R105). -/
theorem dispatchRequest_bound {c : Config} {t : List Binding} {x : Session} {h : Handler}
    (hn : payloadOff + x.req.payloadLen.toNat ≤ c.bRx) (hl : lookupHandler t x.req.cmdId = some h) :
    dispatchRequest c t x = (acceptOutcome (outCap c) (runHandler h x.req.cmdId
        (Memory.getBytes x.rx payloadOff x.req.payloadLen.toNat) (outCap c)) >>= fun o => do
      let tx ← memWrite c .tx x.tx outputOff o.written
      .ok { x with tx := tx,
                   req := (x.req.withDefaults.afterHandler o).normalise (retNegative c o.ret) }) := by
  simp only [dispatchRequest, CurrentRequest.withDefaults, hl, invokeHandler]
  rw [memRead_ok (.inr hn)]
  rfl

/-- What DISPATCH keeps, and the bounds of what it leaves (R105). -/
theorem dispatchRequest_eq_ok {c : Config} {t : List Binding} {x y : Session}
    (h : dispatchRequest c t x = .ok y) :
    y.sessInit = x.sessInit ∧ y.decoder = x.decoder ∧ y.rx = x.rx ∧ y.req.cmdId = x.req.cmdId ∧
      y.req.payloadLen = x.req.payloadLen ∧ y.req.outputLen.toNat ≤ outCap c ∧
      ∃ bs, y.tx = Memory.setBytes x.tx outputOff bs ∧ bs.length ≤ outCap c ∧
        (bs = [] ∨ outputOff + bs.length ≤ c.bTx) := by
  simp only [dispatchRequest] at h
  split at h
  · cases h
    exact ⟨rfl, rfl, rfl, rfl, rfl, by simp [CurrentRequest.commandUnknown], [], rfl, Nat.zero_le _,
      .inl rfl⟩
  · obtain ⟨p, -, h⟩ := Res.bind_eq_ok h
    obtain ⟨o, ho, h⟩ := Res.bind_eq_ok h
    obtain ⟨tx, htx, h⟩ := Res.bind_eq_ok h
    cases h
    obtain ⟨-, hw, hle⟩ := acceptOutcome_eq_ok ho
    obtain ⟨hb, rfl⟩ := memWrite_eq_ok htx
    refine ⟨rfl, rfl, rfl, ?_, ?_, ?_, o.written, rfl, hw, ?_⟩
    · simp [CurrentRequest.afterHandler, CurrentRequest.withDefaults]
    · simp [CurrentRequest.afterHandler, CurrentRequest.withDefaults]
    · exact Nat.le_trans (CurrentRequest.normalise_outputLen_le _ _)
        (Nat.le_trans (CurrentRequest.afterHandler_outputLen_le _ _) hle)
    · rcases hb with hb | hb
      · exact .inl (List.length_eq_zero_iff.1 hb)
      · exact .inr hb

/-- DISPATCH raises no fault where the payload view lies inside `rx` (R37). -/
theorem dispatchRequest_no_fault {c : Config} {t : List Binding} {x : Session} {f : Fault} (hv : c.Valid)
    (hn : payloadOff + x.req.payloadLen.toNat ≤ c.bRx) : dispatchRequest c t x ≠ .error (.fault f) := by
  intro h
  simp only [dispatchRequest] at h
  split at h
  · cases h
  · simp only [invokeHandler, CurrentRequest.withDefaults] at h
    rw [memRead_ok (.inr hn)] at h
    simp only [Res.ok_bind] at h
    cases ha : acceptOutcome (outCap c) (runHandler _ x.req.cmdId
      (Memory.getBytes x.rx payloadOff x.req.payloadLen.toNat) (outCap c)) with
    | error e =>
      rw [ha] at h; simp only [Res.error_bind] at h; cases h
      exact acceptOutcome_no_fault ha
    | ok o =>
      have hw := (acceptOutcome_eq_ok ha).2.1
      have hb := hv.2.1
      rw [ha] at h; simp only [Res.ok_bind] at h
      rw [memWrite_ok (by right; simp only [capacity, outputOff, outCap] at *; omega)] at h
      cases h

/-! ### ENCODE_RESPONSE -/

/-- The response's bytes before its checksum: header and output (R32, R51). -/
def responseHead (c : Config) (r : CurrentRequest) (output : List Byte) : List Byte :=
  responseHeader c r ++ output

/-- The response frame of a record and output bytes (R51). -/
def responseFrame (c : Config) (r : CurrentRequest) (output : List Byte) : List Byte :=
  responseHead c r output ++ halfBytes (crc16Fn c (responseHead c r output))

@[simp] theorem length_responseHeader (c : Config) (r : CurrentRequest) : (responseHeader c r).length = 6 := rfl

@[simp] theorem length_halfBytes (v : Half) : (halfBytes v).length = 2 := rfl

/-- The transmit buffer after ENCODE_RESPONSE (R115). -/
def encodedTx (c : Config) (x : Session) : Memory :=
  let m := x.req.outputLen.toNat
  let tx1 := Memory.setBytes x.tx 0 (responseHeader c x.req)
  Memory.setBytes tx1 (6 + m) (halfBytes (crc16Fn c (responseHead c x.req (Memory.getBytes x.tx 6 m))))

/-- The response image of R51 is the frame ENCODE_RESPONSE builds. -/
theorem responseImage_eq_responseFrame (c : Config) (r : CurrentRequest) {out : List Byte}
    (h : out.length = r.outputLen.toNat) :
    responseImage c r.cmdId r.status r.errorCode out = responseFrame c r out := by
  have hl : lengthField out = r.outputLen := by simp [lengthField, h]
  simp [responseImage, responseFrame, responseHead, responseHeader, rspImage, hl, halfBytes]

theorem getBytes_header (c : Config) (x : Session) (m : Nat) :
    Memory.getBytes (Memory.setBytes x.tx 0 (responseHeader c x.req)) 0 (6 + m) =
      responseHead c x.req (Memory.getBytes x.tx 6 m) := by
  rw [Memory.getBytes_add, responseHead]
  congr 1
  · exact Memory.getBytes_setBytes_same x.tx 0 (responseHeader c x.req)
  · exact Memory.getBytes_congr fun j h1 _ => Memory.get_setBytes_of_ge (by simp; omega)

/-- ENCODE_RESPONSE within the output capacity (R115, R116). -/
theorem encodeFrame_ok {c : Config} {x : Session} (hv : c.Valid) (hm : x.req.outputLen.toNat ≤ outCap c) :
    encodeFrame c x = .ok (8 + x.req.outputLen.toNat, { x with tx := encodedTx c x }) := by
  have hb := hv.2.1
  have hm' : x.req.outputLen.toNat ≤ c.bTx - 8 := hm
  simp only [encodeFrame, hm, decide_true, require_true, Res.ok_bind]
  rw [memWrite_ok (by right; simp only [capacity, length_responseHeader]; omega)]
  simp only [Res.ok_bind, outputOff]
  rw [memRead_ok (by right; simp only [capacity]; omega)]
  simp only [Res.ok_bind, getBytes_header]
  rw [memWrite_ok (by right; simp only [capacity, length_halfBytes]; omega)]
  simp only [Res.ok_bind, trailer, encodedTx]
  congr 2
  omega

theorem encodeFrame_tooLong {c : Config} {x : Session} (hm : outCap c < x.req.outputLen.toNat) :
    encodeFrame c x = .error (.refuse .responseTooLong) := by
  simp only [encodeFrame]
  rw [decide_eq_false (by omega)]; rfl

/-- The encoded frame, as read from the transmit buffer (R115). -/
theorem getBytes_encodedTx (c : Config) (x : Session) :
    Memory.getBytes (encodedTx c x) 0 (8 + x.req.outputLen.toNat) =
      responseFrame c x.req (Memory.getBytes x.tx 6 x.req.outputLen.toNat) := by
  rw [show 8 + x.req.outputLen.toNat = (6 + x.req.outputLen.toNat) + 2 by omega, Memory.getBytes_add,
    responseFrame]
  congr 1
  · rw [encodedTx, Memory.getBytes_congr (m' := Memory.setBytes x.tx 0 (responseHeader c x.req))]
    · exact getBytes_header c x _
    · exact fun j _ h => Memory.get_setBytes_of_lt (by omega)
  · rw [Nat.zero_add]; exact Memory.getBytes_setBytes_same _ _ (halfBytes _)

/-- Nothing is written beyond the frame (R115). -/
theorem get_encodedTx_beyond (c : Config) (x : Session) {j : Nat} (h : 8 + x.req.outputLen.toNat ≤ j) :
    Memory.get (encodedTx c x) j = Memory.get x.tx j := by
  rw [encodedTx, Memory.get_setBytes_of_ge (by simp; omega), Memory.get_setBytes_of_ge (by simp; omega)]

theorem encodedTx_wf {c : Config} {x : Session} (h : Memory.wf x.tx) : Memory.wf (encodedTx c x) :=
  Memory.wf_setBytes (Memory.wf_setBytes h)

theorem encodedTx_within {c : Config} {x : Session} (hv : c.Valid)
    (hm : x.req.outputLen.toNat ≤ outCap c) (h : Memory.within c.bTx x.tx) :
    Memory.within c.bTx (encodedTx c x) := by
  have hb := hv.2.1
  have hm' : x.req.outputLen.toNat ≤ c.bTx - 8 := hm
  refine Memory.within_setBytes (Memory.within_setBytes h ?_) ?_
  · right; simp; omega
  · right; simp; omega

/-- What ENCODE_RESPONSE answers is the closed form. -/
theorem encodeFrame_eq_ok {c : Config} {x y : Session} {n : Nat} (hv : c.Valid)
    (h : encodeFrame c x = .ok (n, y)) :
    x.req.outputLen.toNat ≤ outCap c ∧ n = 8 + x.req.outputLen.toNat ∧ y = { x with tx := encodedTx c x } := by
  by_cases hm : x.req.outputLen.toNat ≤ outCap c
  · rw [encodeFrame_ok hv hm] at h; cases h; exact ⟨hm, rfl, rfl⟩
  · rw [encodeFrame_tooLong (by omega)] at h; cases h

theorem encodeFrame_no_fault {c : Config} {x : Session} {f : Fault} (hv : c.Valid) :
    encodeFrame c x ≠ .error (.fault f) := by
  by_cases hm : x.req.outputLen.toNat ≤ outCap c
  · rw [encodeFrame_ok hv hm]; simp
  · rw [encodeFrame_tooLong (by omega)]; simp

/-! ### A completed request answered -/

/-- The session with its request extracted (R135). -/
def Session.extracted (x : Session) : Session :=
  { x with req := { x.req with cmdId := Memory.get x.rx 1,
                               payloadLen := be16 (Memory.get x.rx 2) (Memory.get x.rx 3) } }

theorem extractRequest_ok {c : Config} {x : Session} (hv : c.Valid) :
    extractRequest c x = .ok x.extracted := by
  have hb := hv.1
  simp only [extractRequest, lenOff]
  rw [memRead_ok (by right; simp only [capacity]; omega), memReadHalf_ok (by simp only [capacity]; omega)]
  rfl

@[simp] theorem Session.extracted_payloadLen (x : Session) :
    x.extracted.req.payloadLen.toNat = x.declaredLen := rfl

/-- The answer to a completed request, once DISPATCH has answered (R134, R139). -/
theorem answerRequest_ok {c : Config} {t : List Binding} {r : Run} {y : Session} (hv : c.Valid)
    (hd : dispatchRequest c t r.sess.extracted = .ok y) :
    answerRequest c t .conforming r = .ok { r with
      sess := ({ y with tx := encodedTx c y } : Session).decReset
      frames := r.frames ++
        [responseFrame c y.req (Memory.getBytes y.tx 6 y.req.outputLen.toNat)] } := by
  have hm := (dispatchRequest_eq_ok hd).2.2.2.2.2.1
  have hm' : y.req.outputLen.toNat ≤ c.bTx - 8 := hm
  have hb := hv.2.1
  simp only [answerRequest, extractRequest_ok hv, Res.ok_bind, hd, encodeFrame_ok hv hm]
  rw [if_pos (by omega), memRead_ok (by right; simp only [capacity]; omega)]
  simp only [Res.ok_bind, callTransmit, getBytes_encodedTx]

/-- Whatever answers a completed request leaves the session reset, its receive buffer as it was. -/
theorem answerRequest_eq_ok {c : Config} {t : List Binding} {cb : Callback} {r r' : Run} (hv : c.Valid)
    (h : answerRequest c t cb r = .ok r') :
    ∃ y, dispatchRequest c t r.sess.extracted = .ok y ∧ y.req.outputLen.toNat ≤ outCap c ∧
      r' = { r with sess := ({ y with tx := encodedTx c y } : Session).decReset
                    frames := r.frames ++
                      [responseFrame c y.req (Memory.getBytes y.tx 6 y.req.outputLen.toNat)] } := by
  simp only [answerRequest, extractRequest_ok hv, Res.ok_bind] at h
  obtain ⟨y, hd, h⟩ := Res.bind_eq_ok h
  have hm := (dispatchRequest_eq_ok hd).2.2.2.2.2.1
  refine ⟨y, hd, hm, ?_⟩
  cases cb with
  | conforming =>
    have h' : answerRequest c t .conforming r = .ok r' := by
      simp only [answerRequest, extractRequest_ok hv, Res.ok_bind, hd]; exact h
    rw [answerRequest_ok hv hd] at h'
    cases h'; rfl
  | breaching b =>
    simp only [encodeFrame_ok hv hm, Res.ok_bind] at h
    rw [if_pos (by omega)] at h
    obtain ⟨_, -, h⟩ := Res.bind_eq_ok h
    cases h

theorem answerRequest_no_fault {c : Config} {t : List Binding} {cb : Callback} {r : Run} {f : Fault}
    (hv : c.Valid) (hn : 4 + r.sess.declaredLen ≤ c.bRx) : answerRequest c t cb r ≠ .error (.fault f) := by
  intro h
  simp only [answerRequest, extractRequest_ok hv, Res.ok_bind] at h
  cases hd : dispatchRequest c t r.sess.extracted with
  | error e =>
    rw [hd] at h; cases h
    exact dispatchRequest_no_fault hv (by simpa [payloadOff] using hn) hd
  | ok y =>
    have hm := (dispatchRequest_eq_ok hd).2.2.2.2.2.1
    have hm' : y.req.outputLen.toNat ≤ c.bTx - 8 := hm
    have hb := hv.2.1
    rw [hd] at h
    simp only [Res.ok_bind, encodeFrame_ok hv hm] at h
    rw [if_pos (by omega), memRead_ok (by right; simp only [capacity]; omega)] at h
    cases cb <;> cases h

end Sys2Proof.Machine
end

