-- ==== Sys2Proof/Laws/Crc.lean ====
section
/-!
SUPPORT. The shift register of R72 loses nothing: with a polynomial that has a constant term, each step is
injective in the register and in the byte.
-/

namespace Sys2Proof.Machine

variable {poly : Half}

/-- The bit shifted out is read back from the constant term. -/
theorem crcShift_injective (hp : poly.getLsbD 0 = true) {a b : Half} (h : crcShift poly a = crcShift poly b) :
    a = b := by
  have key : ∀ a : Half, (crcShift poly a).getLsbD 0 = a.msb := by
    intro a; unfold crcShift; split <;> next h => simp [h, hp]
  have hm : a.msb = b.msb := by rw [← key a, ← key b, h]
  have hs : a <<< 1 = b <<< 1 := by
    unfold crcShift at h
    rw [hm] at h
    split at h
    · exact (BitVec.xor_left_inj _).1 h
    · exact h
  apply BitVec.eq_of_getLsbD_eq
  intro i hi
  by_cases h15 : i = 15
  · subst h15
    simpa [BitVec.msb_eq_getLsbD_last] using hm
  · have := congrArg (·.getLsbD (i + 1)) hs
    simpa [show i + 1 < 16 by omega, ← BitVec.getLsbD_eq_getElem] using this

theorem crcShift8_injective (hp : poly.getLsbD 0 = true) {a b : Half}
    (h : crcShift8 poly a = crcShift8 poly b) : a = b := by
  unfold crcShift8 at h
  iterate 8 replace h := crcShift_injective hp h
  exact h

/-- Different registers stay different under one byte. -/
theorem crcByte_injective_register (hp : poly.getLsbD 0 = true) {a a' : Half} {b : Byte}
    (h : crcByte poly a b = crcByte poly a' b) : a = a' :=
  (BitVec.xor_left_inj _).1 (crcShift8_injective hp h)

/-- Different bytes take one register to different registers. -/
theorem crcByte_injective_byte (hp : poly.getLsbD 0 = true) {a : Half} {b b' : Byte}
    (h : crcByte poly a b = crcByte poly a b') : b = b' := by
  have hx := (BitVec.xor_right_inj _).1 (crcShift8_injective hp h)
  apply BitVec.eq_of_getLsbD_eq
  intro i hi
  have := congrArg (·.getLsbD (8 + i)) hx
  simpa only [BitVec.getLsbD_append, show ¬ 8 + i < 8 by omega, if_false, show 8 + i - 8 = i by omega,
    cond_false, decide_false] using this

/-- Different registers stay different under the same bytes. -/
theorem crcFold_injective (f : Byte → Byte) (hp : poly.getLsbD 0 = true) (bs : List Byte) {a a' : Half}
    (h : bs.foldl (fun crc b => crcByte poly crc (f b)) a = bs.foldl (fun crc b => crcByte poly crc (f b)) a') :
    a = a' := by
  induction bs generalizing a a' with
  | nil => exact h
  | cons b bs ih => exact crcByte_injective_register hp (ih h)

theorem reflectIf_injective {w : Nat} (flag : Bool) {a b : BitVec w} (h : reflectIf flag a = reflectIf flag b) :
    a = b := by
  cases flag with
  | false => exact h
  | true => simpa [reflectIf] using congrArg BitVec.reverse h

end Sys2Proof.Machine
end

