-- ==== Sys2Proof/Laws/Encoding.lean ====
section
/-!
SUPPORT. Byte order and frame bodies: the two halves of a 16-bit field, a length field, and how a frame's body
splits into payload and checksum (R34, R50, R51).
-/

namespace Sys2Proof

theorem be16_halves (v : Half) : be16 (hi8 v) (lo8 v) = v := by
  apply BitVec.eq_of_getLsbD_eq
  intro i hi
  simp only [be16, hi8, lo8, BitVec.getLsbD_append, BitVec.getLsbD_extractLsb']
  by_cases h8 : i < 8
  · simp [h8]
  · simp [h8, show i - 8 < 8 by omega, show 8 + (i - 8) = i by omega]

theorem hi8_be16 (a b : Byte) : hi8 (be16 a b) = a := by
  apply BitVec.eq_of_getLsbD_eq
  intro i hi
  simp only [hi8, be16, BitVec.getLsbD_append, BitVec.getLsbD_extractLsb']
  simp [hi]

theorem lo8_be16 (a b : Byte) : lo8 (be16 a b) = b := by
  apply BitVec.eq_of_getLsbD_eq
  intro i hi
  simp only [lo8, be16, BitVec.getLsbD_append, BitVec.getLsbD_extractLsb']
  simp [hi]

/-- The bytes of a field read are the bytes it was read from. -/
theorem halfBytes_be16 (a b : Byte) : halfBytes (be16 a b) = [a, b] := by
  simp [halfBytes, hi8_be16, lo8_be16]

/-- A length that fits its field is read back from it. -/
theorem be16_of_lengthField {ps : List Byte} (h : ps.length ≤ 65535) :
    (be16 (hi8 (lengthField ps)) (lo8 (lengthField ps))).toNat = ps.length := by
  rw [be16_halves, lengthField, BitVec.toNat_ofNat, Nat.mod_eq_of_lt (by omega)]

theorem lengthField_of_toNat {p : List Byte} {h : Half} (hp : p.length = h.toNat) : lengthField p = h := by
  simp [lengthField, hp]

/-- A payload followed by a checksum splits into the two. -/
theorem splitBody_append (ps : List Byte) (crc : Half) :
    splitBody ps.length (ps ++ halfBytes crc) = some (ps, crc) := by
  simp [splitBody, halfBytes, be16_halves]

/-- What splits is a payload of the declared length followed by a checksum. -/
theorem splitBody_eq_some {h : Half} {body p : List Byte} {crc : Half}
    (hs : splitBody h.toNat body = some (p, crc)) : p.length = h.toNat ∧ body = p ++ halfBytes crc := by
  unfold splitBody at hs
  split at hs
  · next c1 c0 hd =>
    cases hs
    have hl := congrArg List.length hd
    simp only [List.length_drop, List.length_cons, List.length_nil] at hl
    refine ⟨?_, ?_⟩
    · simp only [List.length_take]; omega
    · rw [halfBytes_be16, ← hd, List.take_append_drop]
  · cases hs

end Sys2Proof
end

