-- ==== Sys2Proof/Laws/Process.lean ====
section
/-!
SUPPORT. PROCESS: what one turn can do, that the loop ends with its input consumed, what it keeps, and how a
run on a longer input begins like the run on its first part.
-/

namespace Sys2Proof.Machine

/-! ### The session's invariant under FEED and the answer -/

/-- FEED keeps a session's invariant. -/
theorem feedAnswer_inv {c : Config} {x : Session} (chunk : List Byte) (hv : c.Valid) (hi : Session.Inv c x)
    (h : x.decInv c = true) (hc : x.decoder.phase ≠ .complete) :
    Session.Inv c (feedAnswer c x chunk).2 := by
  obtain ⟨h1, h2, h3, h4, -, h6, h7⟩ := hi
  obtain ⟨htx, hreq, -⟩ := feedAnswer_frame c x chunk
  obtain ⟨bs, hrx, -, -, hm, he⟩ := feedAnswer_rx c x chunk h
  have hb := Session.accumulated_add_expected_le hv h
  have hb1 := hv.1
  refine ⟨?_, ?_, htx ▸ h3, htx ▸ h4, ?_, hreq ▸ h6, hreq ▸ h7⟩
  · rw [hrx]; exact Memory.wf_setBytes h1
  · rw [hrx]
    refine Memory.within_setBytes h2 (.inr ?_)
    by_cases hp : x.decoder.phase = .awaitMarker
    · have := (Session.decInv_awaitMarker hp).1 h; have := hm hp; omega
    · have := he hp; omega
  · have hr := feedAnswer_rest chunk hv h hc
    split at hr
    · next hy => rw [hy]; exact .inl hr
    · next hy => rw [hy]; subst hr; exact .inl h
    · next hy => rw [hy]; exact .inr hr.1
    · next hy => rw [hy]; exact .inr hr.1

/-- A reset keeps a session's invariant. -/
theorem Session.inv_decReset {c : Config} {x : Session} (hi : Session.Inv c x) : Session.Inv c x.decReset :=
  ⟨hi.1, hi.2.1, hi.2.2.1, hi.2.2.2.1, .inl (Session.decInv_decReset c x), hi.2.2.2.2.2.1,
    hi.2.2.2.2.2.2⟩

theorem Session.decInv_congr {c : Config} {x y : Session} (hd : y.decoder = x.decoder) (hr : y.rx = x.rx) :
    y.decInv c = x.decInv c := by
  cases x; cases y; simp only at hd hr; subst hd hr; rfl

theorem Session.afterFailure_congr {c : Config} {x y : Session} (hd : y.decoder = x.decoder)
    (hr : y.rx = x.rx) : y.afterFailure c = x.afterFailure c := by
  cases x; cases y; simp only at hd hr; subst hd hr; rfl

/-- DISPATCH keeps a session's invariant. -/
theorem dispatchRequest_inv {c : Config} {t : List Binding} {x y : Session} (hi : Session.Inv c x)
    (h : dispatchRequest c t x = .ok y) : Session.Inv c y := by
  obtain ⟨-, hd, hrx, -, hpl, hol, bs, htx, -, hbs⟩ := dispatchRequest_eq_ok h
  obtain ⟨h1, h2, h3, h4, h5, h6, -⟩ := hi
  refine ⟨hrx ▸ h1, hrx ▸ h2, ?_, ?_, ?_, hpl ▸ h6, hol⟩
  · rw [htx]; exact Memory.wf_setBytes h3
  · rw [htx]; exact Memory.within_setBytes h4 hbs
  · rw [Session.decInv_congr hd hrx, Session.afterFailure_congr hd hrx]; exact h5

/-- ENCODE_RESPONSE keeps a session's invariant. -/
theorem encodedTx_inv {c : Config} {x : Session} (hv : c.Valid) (hi : Session.Inv c x) :
    Session.Inv c { x with tx := encodedTx c x } :=
  ⟨hi.1, hi.2.1, encodedTx_wf hi.2.2.1, encodedTx_within hv hi.2.2.2.2.2.2 hi.2.2.2.1, hi.2.2.2.2.1,
    hi.2.2.2.2.2.1, hi.2.2.2.2.2.2⟩

/-- EXTRACT keeps a session's invariant, where the declared frame fits `rx`. -/
theorem Session.inv_extracted {c : Config} {x : Session} (hi : Session.Inv c x)
    (hn : 6 + x.declaredLen ≤ c.bRx) : Session.Inv c x.extracted :=
  ⟨hi.1, hi.2.1, hi.2.2.1, hi.2.2.2.1, hi.2.2.2.2.1, by
    rw [Session.extracted_payloadLen]; omega, hi.2.2.2.2.2.2⟩

/-- The answer to a completed request keeps a session's invariant, and resets it. -/
theorem answerRequest_inv {c : Config} {t : List Binding} {cb : Callback} {r r' : Run} (hv : c.Valid)
    (hi : Session.Inv c r.sess) (hn : 6 + r.sess.declaredLen ≤ c.bRx)
    (h : answerRequest c t cb r = .ok r') :
    Session.Inv c r'.sess ∧ r'.sess.decoder = { phase := .awaitMarker, accumulated := 0, expected := 0 } ∧
      r'.sess.sessInit = r.sess.sessInit ∧ r'.cur = r.cur := by
  obtain ⟨y, hd, -, rfl⟩ := answerRequest_eq_ok hv h
  refine ⟨Session.inv_decReset (encodedTx_inv hv (dispatchRequest_inv (Session.inv_extracted hi hn) hd)),
    rfl, ?_, rfl⟩
  exact (dispatchRequest_eq_ok hd).1

/-! ### One turn -/

/-- The run after the FEED of one turn, before a completed request is answered. -/
def afterTurnFeed (c : Config) (input : List Byte) (r : Run) : Run :=
  r.afterFeed (feedAnswer c r.sess (input.drop r.cur))

/-- What one turn can do (R134). -/
theorem processTurn_eq {c : Config} {t : List Binding} {cb : Callback} {input : List Byte} {r : Run}
    (hv : c.Valid) (hf : Session.Feedable c r.sess) :
    processTurn c t cb input r =
      if (afterTurnFeed c input r).sess.decoder.phase = .complete
      then answerRequest c t cb (afterTurnFeed c input r) else .ok (afterTurnFeed c input r) := by
  simp only [processTurn, feed_eq _ hv hf.2.1 hf.2.2, Res.ok_bind, afterTurnFeed]
  rfl

/-- One in phase AwaitChecksum. -/
def checksumTurn : Phase → Nat
  | .awaitChecksum => 1
  | _ => 0

@[simp] theorem checksumTurn_awaitMarker : checksumTurn .awaitMarker = 0 := rfl

theorem checksumTurn_le (p : Phase) : checksumTurn p ≤ 1 := by cases p <;> decide

/-- Twice the bytes that remain, less one in phase AwaitChecksum: every turn makes it smaller (R141). -/
def turnMeasure (input : List Byte) (r : Run) : Nat :=
  2 * (input.length - r.cur) - checksumTurn r.sess.decoder.phase

/-- After the FEED of one turn the decoder is at rest, the cursor within the input, and either no frame is
complete and the measure is smaller, or a frame is complete and the cursor has advanced. -/
theorem afterTurnFeed_spec {c : Config} {input : List Byte} {r : Run} (hv : c.Valid)
    (hf : Session.Feedable c r.sess) (hl : r.cur < input.length) :
    (afterTurnFeed c input r).sess.decInv c = true ∧ (afterTurnFeed c input r).sess.sessInit = true ∧
      (afterTurnFeed c input r).frames = r.frames ∧
      r.cur ≤ (afterTurnFeed c input r).cur ∧ (afterTurnFeed c input r).cur ≤ input.length ∧
      ((afterTurnFeed c input r).sess.decoder.phase = .complete → r.cur < (afterTurnFeed c input r).cur) ∧
      ((afterTurnFeed c input r).sess.decoder.phase ≠ .complete →
        turnMeasure input (afterTurnFeed c input r) < turnMeasure input r) := by
  obtain ⟨hi, hd, hc⟩ := hf
  have hne : input.drop r.cur ≠ [] := by
    intro h; have := congrArg List.length h; simp at this; omega
  have hrest := feedAnswer_rest (input.drop r.cur) hv hd hc
  have hframe := (feedAnswer_frame c r.sess (input.drop r.cur)).2.2
  unfold afterTurnFeed turnMeasure
  cases ha : feedAnswer c r.sess (input.drop r.cur) with
  | mk res y =>
    rw [ha] at hrest hframe
    cases res with
    | ok n =>
      obtain ⟨hn, h0, hcp⟩ := feedAnswer_progress hd hc hne ha
      rw [List.length_drop] at hn
      simp only [Run.afterFeed_ok]
      refine ⟨hrest, hframe.trans hi, trivial, by omega, by omega, fun h => by have := hcp h; omega,
        fun _ => ?_⟩
      have h1 := checksumTurn_le y.decoder.phase
      have h2 := checksumTurn_le r.sess.decoder.phase
      rcases Nat.eq_zero_or_pos n with h | h
      · obtain ⟨hp, -, rfl⟩ := h0 h
        subst h
        simp [hp, checksumTurn]; omega
      · omega
    | err k =>
      simp only [Run.afterFeed_err]
      refine ⟨Session.decInv_decReset c y, hframe.trans hi, trivial, by omega, by omega, fun h => ?_,
        fun _ => ?_⟩
      · simp at h
      · have := checksumTurn_le r.sess.decoder.phase
        simp only [Session.decReset_decoder, checksumTurn_awaitMarker]; omega

/-- In phase Complete at rest, the whole frame fits `rx`. -/
theorem Session.fits_of_complete {c : Config} {x : Session} (h : x.decInv c = true)
    (hp : x.decoder.phase = .complete) : 6 + x.declaredLen ≤ c.bRx := by
  have := ((Session.decInv_complete hp).1 h).2.1; omega

/-- A turn that answers leaves the session feedable and makes progress, whatever the handlers and the callback. -/
theorem processTurn_progress {c : Config} {t : List Binding} {cb : Callback} {input : List Byte} {r r' : Run}
    (hv : c.Valid) (hf : Session.Feedable c r.sess) (hl : r.cur < input.length)
    (h : processTurn c t cb input r = .ok r') :
    Session.Feedable c r'.sess ∧ r'.cur ≤ input.length ∧ turnMeasure input r' < turnMeasure input r := by
  obtain ⟨h1, h2, -, -, h5, h6, h7⟩ := afterTurnFeed_spec hv hf hl
  rw [processTurn_eq hv hf] at h
  split at h
  · next hp =>
    obtain ⟨y, hy, -, rfl⟩ := answerRequest_eq_ok hv h
    refine ⟨⟨?_, Session.decInv_decReset _ _, by simp⟩, h5, ?_⟩
    · exact (dispatchRequest_eq_ok hy).1.trans h2
    · have := h6 hp
      have := checksumTurn_le r.sess.decoder.phase
      simp only [turnMeasure, Session.decReset_decoder, checksumTurn_awaitMarker]; omega
  · next hp => cases h; exact ⟨⟨h2, h1, hp⟩, h5, h7 hp⟩

/-- One turn on a feedable session, its handlers and callback conforming, answers. -/
theorem processTurn_ok {c : Config} {t : List Binding} {input : List Byte} {r : Run} (hv : c.Valid)
    (ht : TableConforming c t) (hf : Session.Feedable c r.sess) (hl : r.cur < input.length) :
    ∃ r', processTurn c t .conforming input r = .ok r' ∧ Session.Feedable c r'.sess ∧
      r'.cur ≤ input.length ∧ turnMeasure input r' < turnMeasure input r := by
  suffices h : ∃ r', processTurn c t .conforming input r = .ok r' by
    obtain ⟨r', h⟩ := h
    exact ⟨r', h, processTurn_progress hv hf hl h⟩
  obtain ⟨h1, -, -, -, -, -, -⟩ := afterTurnFeed_spec hv hf hl
  rw [processTurn_eq hv hf]
  by_cases hp : (afterTurnFeed c input r).sess.decoder.phase = .complete
  · rw [if_pos hp]
    have hfit := Session.fits_of_complete h1 hp
    generalize afterTurnFeed c input r = r1 at *
    cases hl' : lookupHandler t r1.sess.extracted.req.cmdId with
    | none => exact ⟨_, answerRequest_ok hv (dispatchRequest_unknown hl')⟩
    | some g =>
      obtain ⟨o, ho⟩ := ht _ (lookupHandler_mem hl') r1.sess.extracted.req.cmdId
        (Memory.getBytes r1.sess.extracted.rx payloadOff r1.sess.extracted.req.payloadLen.toNat)
      refine ⟨_, answerRequest_ok hv (dispatchRequest_found hv ?_ hl' ho)⟩
      rw [Session.extracted_payloadLen, payloadOff]; omega
  · rw [if_neg hp]
    exact ⟨_, rfl⟩

/-! ### The loop -/

/-- The loop ends with the input consumed and the session feedable (R136, R140, R141). -/
theorem processLoop_ok {c : Config} {t : List Binding} {input : List Byte} (hv : c.Valid)
    (ht : TableConforming c t) : ∀ (fuel : Nat) (r : Run), Session.Feedable c r.sess →
      r.cur ≤ input.length → turnMeasure input r ≤ fuel →
      ∃ r', processLoop c t .conforming input fuel r = .ok r' ∧ Session.Feedable c r'.sess ∧
        r'.cur = input.length := by
  intro fuel
  induction fuel with
  | zero =>
    intro r hf hl hm
    refine ⟨r, rfl, hf, ?_⟩
    have := checksumTurn_le r.sess.decoder.phase
    unfold turnMeasure at hm; omega
  | succ fuel ih =>
    intro r hf hl hm
    by_cases hlt : r.cur < input.length
    · obtain ⟨r1, h1, h2, h3, h4⟩ := processTurn_ok hv ht hf hlt
      obtain ⟨r2, h5, h6, h7⟩ := ih r1 h2 h3 (by omega)
      refine ⟨r2, ?_, h6, h7⟩
      simp only [processLoop, hlt, if_true, h1, Res.ok_bind, h5]
    · exact ⟨r, by simp only [processLoop, hlt, if_false], hf, by omega⟩

/-- An induction over the turns of a loop that answers: what every turn keeps, the loop keeps. -/
theorem processLoop_keeps {c : Config} {t : List Binding} {cb : Callback} {input : List Byte}
    (P : Run → Prop) (hstep : ∀ r r', P r → r.cur < input.length →
      processTurn c t cb input r = .ok r' → P r') :
    ∀ (fuel : Nat) (r r' : Run), P r → processLoop c t cb input fuel r = .ok r' → P r' := by
  intro fuel
  induction fuel with
  | zero => intro r r' hp h; cases h; exact hp
  | succ fuel ih =>
    intro r r' hp h
    simp only [processLoop] at h
    split at h
    · next hlt =>
      obtain ⟨r1, h1, h⟩ := Res.bind_eq_ok h
      exact ih r1 r' (hstep r r1 hp hlt h1) h
    · cases h; exact hp

/-- The same for loops that may stop: a loop of turns none of which faults does not fault. -/
theorem processLoop_no_fault {c : Config} {t : List Binding} {cb : Callback} {input : List Byte} {f : Fault}
    (P : Run → Prop) (hstep : ∀ r r', P r → r.cur < input.length →
      processTurn c t cb input r = .ok r' → P r')
    (hsafe : ∀ r, P r → r.cur < input.length → processTurn c t cb input r ≠ .error (.fault f)) :
    ∀ (fuel : Nat) (r : Run), P r → processLoop c t cb input fuel r ≠ .error (.fault f) := by
  intro fuel
  induction fuel with
  | zero => intro r _ h; cases h
  | succ fuel ih =>
    intro r hp h
    simp only [processLoop] at h
    split at h
    · next hlt =>
      cases h1 : processTurn c t cb input r with
      | error e => rw [h1] at h; cases h; exact hsafe r hp hlt h1
      | ok r1 => rw [h1] at h; exact ih r1 (hstep r r1 hp hlt h1) h
    · cases h

/-- What a run of PROCESS keeps between turns. -/
abbrev Run.Inv (c : Config) (r : Run) : Prop := Session.Inv c r.sess ∧ Session.Feedable c r.sess

/-- One turn keeps the session's invariant, whatever the handlers and the callback. -/
theorem processTurn_inv {c : Config} {t : List Binding} {cb : Callback} {input : List Byte} {r r' : Run}
    (hv : c.Valid) (hi : Run.Inv c r) (hl : r.cur < input.length)
    (h : processTurn c t cb input r = .ok r') : Run.Inv c r' := by
  obtain ⟨hs, hf⟩ := hi
  obtain ⟨h1, h2, -, -, -, -, -⟩ := afterTurnFeed_spec hv hf hl
  have hinv : Session.Inv c (afterTurnFeed c input r).sess := by
    have ha := feedAnswer_inv (input.drop r.cur) hv hs hf.2.1 hf.2.2
    unfold afterTurnFeed
    cases hx : feedAnswer c r.sess (input.drop r.cur) with
    | mk res y =>
      rw [hx] at ha
      cases res with
      | ok n => exact ha
      | err k => exact Session.inv_decReset ha
  rw [processTurn_eq hv hf] at h
  split at h
  · next hp =>
    obtain ⟨h3, h4, h5, -⟩ := answerRequest_inv hv hinv (Session.fits_of_complete h1 hp) h
    refine ⟨h3, h5.trans h2, ?_, by simp [h4]⟩
    rw [Session.decInv_awaitMarker (by simp [h4])]; simp [h4]
  · next hp => cases h; exact ⟨hinv, h2, h1, hp⟩

theorem processTurn_no_fault {c : Config} {t : List Binding} {cb : Callback} {input : List Byte} {r : Run}
    {f : Fault} (hv : c.Valid) (hi : Run.Inv c r) (hl : r.cur < input.length) :
    processTurn c t cb input r ≠ .error (.fault f) := by
  obtain ⟨h1, -, -, -, -, -, -⟩ := afterTurnFeed_spec hv hi.2 hl
  rw [processTurn_eq hv hi.2]
  split
  · next hp =>
    have := Session.fits_of_complete h1 hp
    exact answerRequest_no_fault hv (by omega)
  · intro h; cases h

/-! ### Entry -/

theorem processInput_eq {c : Config} {t : List Binding} {cb : Callback} {x : Session} {input : List Byte}
    (hf : Session.Feedable c x) :
    processInput c t cb x input = processLoop c t cb input (2 * input.length) (Run.start x) := by
  have hc := hf.2.2
  simp only [processInput, ne_eq, hc, not_false_eq_true, decide_true, require_true, Res.ok_bind, hf.2.1]

/-- PROCESS answers only from a session that is at rest, its phase not Complete. -/
theorem processInput_eq_ok {c : Config} {t : List Binding} {cb : Callback} {x : Session} {input : List Byte}
    {r : Run} (h : processInput c t cb x input = .ok r) :
    x.decoder.phase ≠ .complete ∧ x.decInv c = true ∧
      processLoop c t cb input (2 * input.length) (Run.start x) = .ok r := by
  obtain ⟨u, h1, h⟩ := Res.bind_eq_ok h
  obtain ⟨v, h2, h⟩ := Res.bind_eq_ok h
  refine ⟨?_, ?_, h⟩
  · intro hc; simp [hc] at h1
  · cases hd : x.decInv c with
    | true => rfl
    | false => rw [hd] at h2; cases h2

/-- PROCESS on a feedable session, handlers and callback conforming, answers with the input consumed and the
session feedable (R136, R140, R141). -/
theorem processInput_ok {c : Config} {t : List Binding} {x : Session} (input : List Byte) (hv : c.Valid)
    (ht : TableConforming c t) (hf : Session.Feedable c x) :
    ∃ r, processInput c t .conforming x input = .ok r ∧ Session.Feedable c r.sess ∧
      r.cur = input.length := by
  rw [processInput_eq hf]
  exact processLoop_ok hv ht _ _ hf (Nat.zero_le _) (by simp [turnMeasure])

/-- PROCESS keeps a session's invariant. -/
theorem processInput_inv {c : Config} {t : List Binding} {cb : Callback} {x : Session} {input : List Byte}
    {r : Run} (hv : c.Valid) (hi : Session.Inv c x) (hs : x.sessInit = true)
    (h : processInput c t cb x input = .ok r) : Session.Inv c r.sess ∧ r.sess.sessInit = true := by
  obtain ⟨h1, h2, h3⟩ := processInput_eq_ok h
  have := processLoop_keeps (Run.Inv c) (fun r r' hp hl h => processTurn_inv hv hp hl h) _
    (Run.start x) r ⟨hi, hs, h2, h1⟩ h3
  exact ⟨this.1, this.2.1⟩

theorem processInput_no_fault {c : Config} {t : List Binding} {cb : Callback} {x : Session}
    {input : List Byte} {f : Fault} (hv : c.Valid) (hi : Session.Inv c x) (hs : x.sessInit = true) :
    processInput c t cb x input ≠ .error (.fault f) := by
  by_cases hc : x.decoder.phase = .complete
  · simp [processInput, hc]
  · cases hd : x.decInv c with
    | false => simp [processInput, hc, hd]
    | true =>
      rw [processInput_eq ⟨hs, hd, hc⟩]
      exact processLoop_no_fault (Run.Inv c) (fun r r' hp hl h => processTurn_inv hv hp hl h)
        (fun r hp hl => processTurn_no_fault hv hp hl) _ _ ⟨hi, hs, hd, hc⟩

/-- A PROCESS that hands no frame to the callback leaves `tx` as it was: only an answer writes it (R33). -/
theorem processInput_silent {c : Config} {t : List Binding} {cb : Callback} {x : Session} {input : List Byte}
    {r : Run} (hv : c.Valid) (hs : x.sessInit = true) (h : processInput c t cb x input = .ok r)
    (hr : r.frames = []) : r.sess.tx = x.tx := by
  obtain ⟨h1, h2, h3⟩ := processInput_eq_ok h
  have := processLoop_keeps (fun q => Session.Feedable c q.sess ∧ (q.frames = [] → q.sess.tx = x.tx))
    (fun q q' hq hl hturn => ⟨(processTurn_progress hv hq.1 hl hturn).1, fun hf => ?_⟩) _
    (Run.start x) r ⟨⟨hs, h2, h1⟩, fun _ => rfl⟩ h3
  · exact this.2 hr
  · rw [processTurn_eq hv hq.1] at hturn
    split at hturn
    · obtain ⟨y, -, -, rfl⟩ := answerRequest_eq_ok hv hturn
      simp at hf
    · cases hturn
      have htx := (feedAnswer_frame c q.sess (input.drop q.cur)).1
      unfold afterTurnFeed at hf ⊢
      cases ha : feedAnswer c q.sess (input.drop q.cur) with
      | mk res y =>
        rw [ha] at htx hf
        cases res with
        | ok n => exact htx.trans (hq.2 hf)
        | err k => exact htx.trans (hq.2 hf)

/-! ### Runs on a longer input -/

theorem Run.shift_afterFeed (n : Nat) (fs : List (List Byte)) (r : Run) (a : FeedResult × Session) :
    (r.shift n fs).afterFeed a = (r.afterFeed a).shift n fs := by
  obtain ⟨res, y⟩ := a
  cases res with
  | ok m => simp [Run.shift, Run.afterFeed, Nat.add_assoc]
  | err k => simp [Run.shift, Run.afterFeed, Run.resync, Nat.add_assoc]

theorem answerRequest_shift (c : Config) (t : List Binding) (cb : Callback) (n : Nat)
    (fs : List (List Byte)) (r : Run) :
    answerRequest c t cb (r.shift n fs) = (answerRequest c t cb r).map (Run.shift n fs) := by
  simp only [answerRequest, Run.shift_sess]
  cases extractRequest c r.sess with
  | error e => rfl
  | ok x =>
    simp only [Res.ok_bind]
    cases dispatchRequest c t x with
    | error e => rfl
    | ok y =>
      simp only [Res.ok_bind]
      cases encodeFrame c y with
      | error e => rfl
      | ok p =>
        obtain ⟨tlen, z⟩ := p
        simp only [Res.ok_bind]
        split
        · cases memRead c .tx z.tx 0 tlen with
          | error e => rfl
          | ok b =>
            cases cb with
            | conforming => simp [callTransmit, Except.map, Run.shift]
            | breaching b => rfl
        · rfl

/-- A turn in the later part of an input is the turn on that part. -/
theorem processTurn_shift (c : Config) (t : List Binding) (cb : Callback) (pre rest : List Byte)
    (fs : List (List Byte)) (r : Run) :
    processTurn c t cb (pre ++ rest) (r.shift pre.length fs) =
      (processTurn c t cb rest r).map (Run.shift pre.length fs) := by
  simp only [processTurn, Run.shift_sess, Run.shift_cur, ← List.drop_drop, List.drop_left]
  cases feed c r.sess (rest.drop r.cur) with
  | error e => rfl
  | ok a =>
    simp only [Res.ok_bind, Run.shift_afterFeed, Run.shift_sess]
    split
    · exact answerRequest_shift c t cb pre.length fs _
    · rfl

/-- A loop in the later part of an input is the loop on that part. -/
theorem processLoop_shift (c : Config) (t : List Binding) (cb : Callback) (pre rest : List Byte)
    (fs : List (List Byte)) : ∀ (fuel : Nat) (r : Run),
    processLoop c t cb (pre ++ rest) fuel (r.shift pre.length fs) =
      (processLoop c t cb rest fuel r).map (Run.shift pre.length fs) := by
  intro fuel
  induction fuel with
  | zero => intro r; rfl
  | succ fuel ih =>
    intro r
    simp only [processLoop, Run.shift_cur, List.length_append, Nat.add_lt_add_iff_left]
    split
    · rw [processTurn_shift]
      cases processTurn c t cb rest r with
      | error e => rfl
      | ok r1 => simp only [Except.map, Res.ok_bind]; exact ih r1
    · rfl

/-- More turns than the measure asks for change nothing, whatever the handlers and the callback. -/
theorem processLoop_more {c : Config} {t : List Binding} {cb : Callback} {input : List Byte} (hv : c.Valid)
    {fuel more : Nat} {r : Run} (hf : Session.Feedable c r.sess)
    (hl : r.cur ≤ input.length) (hm : turnMeasure input r ≤ fuel) :
    processLoop c t cb input (fuel + more) r = processLoop c t cb input fuel r := by
  induction fuel generalizing r with
  | zero =>
    have hge : ¬ r.cur < input.length := by
      have := checksumTurn_le r.sess.decoder.phase
      unfold turnMeasure at hm; omega
    cases more with
    | zero => rfl
    | succ m => simp only [processLoop, hge, if_false]
  | succ fuel ih =>
    rw [Nat.add_right_comm]
    simp only [processLoop]
    split
    · next hlt =>
      cases h : processTurn c t cb input r with
      | error e => rfl
      | ok r1 =>
        obtain ⟨h2, h3, h4⟩ := processTurn_progress hv hf hlt h
        exact ih h2 h3 (by omega)
    · rfl

/-- A loop that has reached the end of the first part of its input goes on as PROCESS on the rest. -/
theorem processLoop_rest {c : Config} {t : List Binding} {cb : Callback} (hv : c.Valid)
    (pre rest : List Byte) (fs : List (List Byte)) {r : Run} {fuel : Nat} (hs : Session.Feedable c r.sess)
    (hr : r = (Run.start r.sess).shift pre.length fs) (hf : 2 * rest.length ≤ fuel) :
    processLoop c t cb (pre ++ rest) fuel r =
      (processInput c t cb r.sess rest).map (Run.shift pre.length fs) := by
  rw [processInput_eq hs]
  conv => lhs; rw [hr]
  rw [processLoop_shift]
  obtain ⟨k, rfl⟩ : ∃ k, fuel = 2 * rest.length + k := ⟨fuel - 2 * rest.length, by omega⟩
  rw [processLoop_more (r := Run.start r.sess) hv hs (by simp) (by simp [turnMeasure])]

/-! ### The state after a failed FEED (R95) -/

/-- A session after a failed FEED is not at rest, and its phase is not Complete. -/
theorem Session.not_atRest_of_afterFailure {c : Config} {x : Session} (h : x.afterFailure c = true) :
    x.decInv c = false ∧ x.decoder.phase ≠ .complete := by
  refine ⟨?_, fun hq => by simp [Session.afterFailure, hq] at h⟩
  rw [← Bool.not_eq_true]; intro hd
  cases hq : x.decoder.phase with
  | awaitLengthField =>
    have := (Session.decInv_awaitLengthField hq).1 hd
    simp [Session.afterFailure, hq] at h; omega
  | awaitChecksum =>
    have := (Session.decInv_awaitChecksum hq).1 hd
    simp [Session.afterFailure, hq] at h; omega
  | awaitMarker => simp [Session.afterFailure, hq] at h
  | awaitPayload => simp [Session.afterFailure, hq] at h
  | complete => simp [Session.afterFailure, hq] at h

end Sys2Proof.Machine
end

