-- ==== Sys2Proof/Laws/Frames.lean ====
section
/-!
SUPPORT. The turns of PROCESS: one that goes on, one that completes a frame and one that fails, the first FEEDs on a
frame, and the input a failure gives up (R92, R134, R138, R158).
-/

namespace Sys2Proof.Machine

/-- A session that holds the bytes `bs` of a frame in progress, in phase `p`, with `e` bytes expected. -/
def Session.holding (x : Session) (p : Phase) (bs : List Byte) (e : Nat) : Session :=
  { x with rx := Memory.setBytes x.rx 0 bs,
           decoder := { phase := p, accumulated := bs.length, expected := e } }

section
variable (x : Session) (p q : Phase) (bs cs : List Byte) (e n : Nat)

@[simp] theorem Session.holding_decoder :
    (x.holding p bs e).decoder = { phase := p, accumulated := bs.length, expected := e } := rfl
@[simp] theorem Session.holding_rx : (x.holding p bs e).rx = Memory.setBytes x.rx 0 bs := rfl
@[simp] theorem Session.holding_tx : (x.holding p bs e).tx = x.tx := rfl
@[simp] theorem Session.holding_req : (x.holding p bs e).req = x.req := rfl
@[simp] theorem Session.holding_sessInit : (x.holding p bs e).sessInit = x.sessInit := rfl
@[simp] theorem Session.holding_setPhase : (x.holding p bs e).setPhase q = x.holding q bs e := rfl
@[simp] theorem Session.holding_setExpected : (x.holding p bs e).setExpected n = x.holding p bs n := rfl

@[simp] theorem Session.holding_afterCopy :
    (x.holding p bs e).afterCopy cs = x.holding p (bs ++ cs) (e - cs.length) := by
  simp only [Session.holding, Session.afterCopy, Memory.setBytes_append, Nat.zero_add, List.length_append]

theorem Session.get_holding_lt {j : Nat} (h : j < bs.length) :
    Memory.get (x.holding p bs e).rx j = bs.getD j 0 := by
  rw [Session.holding_rx, Memory.get_setBytes, if_pos (by omega), Nat.sub_zero]

/-- The declared length of a held header (R31). -/
@[simp] theorem Session.declaredLen_holding (m cmd l1 l0 : Byte) :
    (x.holding p (m :: cmd :: l1 :: l0 :: bs) e).declaredLen = (be16 l1 l0).toNat := by
  simp only [Session.declaredLen]
  rw [Session.get_holding_lt _ _ _ _ (by simp), Session.get_holding_lt _ _ _ _ (by simp)]
  rfl

end

/-! ### FEED on a session that holds the beginning of a frame -/

theorem feedAnswer_marker {c : Config} {x : Session} (hx : Session.Idle x) (rest : List Byte) :
    feedAnswer c x (c.marker :: rest) = (.ok 1, x.holding .awaitLengthField [c.marker] 3) := by
  simp only [feedAnswer, hx.2, if_true]; rfl

/-- A byte that is no marker fails and changes nothing (R85, R151). -/
theorem feedAnswer_noise {c : Config} {x : Session} (hx : Session.Idle x) {b : Byte} (hb : b ≠ c.marker)
    (rest : List Byte) : feedAnswer c x (b :: rest) = (.err .badMarker, x) := by
  simp only [feedAnswer, hx.2, hb, if_false]

/-- The header's last bytes, where the frame does not fit (R86, R152). -/
theorem feedAnswer_tooLong {c : Config} {x : Session} {bs hs rest : List Byte} {m cmd l1 l0 : Byte}
    (hh : bs ++ hs = [m, cmd, l1, l0]) (hn : c.bRx < 4 + (be16 l1 l0).toNat + 2) :
    feedAnswer c (x.holding .awaitLengthField bs hs.length) (hs ++ rest) =
      (.err .frameTooLong, x.holding .awaitLengthField [m, cmd, l1, l0] (be16 l1 l0).toNat) := by
  simp only [feedAnswer, Session.holding_decoder, List.take_left, Session.holding_afterCopy, hh,
    Session.declaredLen_holding]
  rw [if_neg (by simp), if_pos hn]
  rfl

/-! ### The turns of PROCESS -/

/-- One successful turn of the loop that completes no frame. -/
theorem processLoop_turn {c : Config} {t : List Binding} {cb : Callback} {input : List Byte} {fuel n : Nat}
    {r : Run} {y : Session} (hv : c.Valid) (hf : Session.Feedable c r.sess) (hl : r.cur < input.length)
    (ha : feedAnswer c r.sess (input.drop r.cur) = (.ok n, y)) (hy : y.decoder.phase ≠ .complete) :
    processLoop c t cb input (fuel + 1) r =
      processLoop c t cb input fuel { r with sess := y, cur := r.cur + n } := by
  simp only [processLoop, hl, if_true, processTurn_eq hv hf, afterTurnFeed, ha, Run.afterFeed_ok, hy,
    if_false, Res.ok_bind]

/-- One turn of the loop that completes a frame. -/
theorem processLoop_complete {c : Config} {t : List Binding} {cb : Callback} {input : List Byte}
    {fuel n : Nat} {r : Run} {y : Session} (hv : c.Valid) (hf : Session.Feedable c r.sess)
    (hl : r.cur < input.length) (ha : feedAnswer c r.sess (input.drop r.cur) = (.ok n, y))
    (hy : y.decoder.phase = .complete) :
    processLoop c t cb input (fuel + 1) r =
      (answerRequest c t cb { r with sess := y, cur := r.cur + n } >>= processLoop c t cb input fuel) := by
  simp only [processLoop, hl, if_true, processTurn_eq hv hf, afterTurnFeed, ha, Run.afterFeed_ok, hy]

/-- One failed turn of the loop: the resync (R158). -/
theorem processLoop_resync {c : Config} {t : List Binding} {cb : Callback} {input : List Byte} {fuel : Nat}
    {r : Run} {y : Session} {k : FeedError} (hv : c.Valid) (hf : Session.Feedable c r.sess)
    (hl : r.cur < input.length) (ha : feedAnswer c r.sess (input.drop r.cur) = (.err k, y)) :
    processLoop c t cb input (fuel + 1) r =
      processLoop c t cb input fuel { r with sess := y.decReset, cur := r.cur + 1 } := by
  have : ¬ (y.decReset.decoder.phase = .complete) := by simp
  simp only [processLoop, hl, if_true, processTurn_eq hv hf, afterTurnFeed, ha, Run.afterFeed_err, this,
    if_false, Res.ok_bind]

/-- The loop has nothing left to do. -/
theorem processLoop_done {c : Config} {t : List Binding} {cb : Callback} {input : List Byte} {r : Run}
    (h : input.length ≤ r.cur) (fuel : Nat) : processLoop c t cb input fuel r = .ok r := by
  cases fuel with
  | zero => rfl
  | succ n => simp only [processLoop, show ¬ r.cur < input.length by omega, if_false]

/-- The decoder's side of an idle session. -/
theorem Session.Idle.feedable {x : Session} (c : Config) (hx : Session.Idle x) : Session.Feedable c x := by
  refine ⟨hx.1, ?_, by simp [hx.2]⟩
  rw [Session.decInv_awaitMarker (by simp [hx.2])]; simp [hx.2]

theorem Session.holding_feedable_length {c : Config} {x : Session} (hx : x.sessInit = true) {bs : List Byte}
    {e : Nat} (h0 : bs.head? = some c.marker) (h3 : bs.length ≤ 3) (he : bs.length + e = 4) :
    Session.Feedable c (x.holding .awaitLengthField bs e) := by
  have h1 : 0 < bs.length := by cases bs <;> simp_all
  refine ⟨hx, ?_, by simp⟩
  rw [Session.decInv_awaitLengthField rfl, Session.get_holding_lt _ _ _ _ h1]
  refine ⟨?_, h1, h3, he⟩
  cases bs <;> simp_all

/-! ### Request frames (R117) -/

/-- A request frame is the image of its fields with the checksum of its head. -/
theorem requestFrame_eq_reqImage (c : Config) (cmd : Byte) (p : List Byte) :
    requestFrame c cmd p = reqImage c.marker cmd p (crc16Fn c (requestHead c cmd p)) := by
  simp [requestFrame, reqImage, requestHead, halfBytes]

/-- A payload within `N_MAX` has a length field and fits `rx` (R5, R87). -/
theorem fits_of_le_nMax {c : Config} (hv : c.Valid) {n : Nat} (h : n ≤ nMax c) :
    n ≤ 65535 ∧ 4 + n + 2 ≤ c.bRx := by
  have := hv.1; unfold nMax at h; omega

theorem Session.Idle.decReset_eq {x : Session} (hx : Session.Idle x) : x.decReset = x := by
  unfold Session.decReset; rw [← hx.2]

/-! ### Input that is given up (R138) -/

/-- A reset session is feedable. -/
theorem Session.feedable_decReset (c : Config) {x : Session} (hx : x.sessInit = true) :
    Session.Feedable c x.decReset := ⟨hx, Session.decInv_decReset c x, by simp⟩

/-- A failed FEED on the first turn of PROCESS: its first byte is given up, and what follows it is processed as a
call of its own, from the session reset (R138). -/
theorem processInput_giveUp {c : Config} {t : List Binding} {cb : Callback} {x y : Session} {k : FeedError}
    {b : Byte} {bs : List Byte} (hv : c.Valid) (hf : Session.Feedable c x)
    (ha : feedAnswer c x (b :: bs) = (.err k, y)) :
    processInput c t cb x (b :: bs) = (processInput c t cb y.decReset bs).map (Run.shift 1 []) := by
  have hy : y.sessInit = true := by
    have := (feedAnswer_frame c x (b :: bs)).2.2
    rw [ha] at this; exact this.trans hf.1
  rw [processInput_eq hf, show 2 * (b :: bs).length = 2 * bs.length + 1 + 1 by simp; omega,
    processLoop_resync (r := Run.start x) hv hf (by simp [Run.start]) ha]
  exact processLoop_rest hv [b] bs [] (Session.feedable_decReset c hy) rfl (by omega)

/-- One byte of noise: a resync that changes nothing but the cursor (R151, R158). -/
theorem processTurn_noise {c : Config} {t : List Binding} {cb : Callback} {input : List Byte} {r : Run}
    {b : Byte} (hv : c.Valid) (hx : Session.Idle r.sess) (hb : input[r.cur]? = some b) (hn : b ≠ c.marker) :
    processTurn c t cb input r = .ok { r with cur := r.cur + 1 } := by
  obtain ⟨hl, rfl⟩ := List.getElem?_eq_some_iff.1 hb
  have ha : afterTurnFeed c input r = { r with cur := r.cur + 1 } := by
    rw [afterTurnFeed, List.drop_eq_getElem_cons hl, feedAnswer_noise hx hn, Run.afterFeed_err, hx.decReset_eq]
  rw [processTurn_eq hv (hx.feedable c), ha, if_neg (by simp [hx.2])]

/-- Noise before the rest of an input is dropped, and the rest is processed as a call of its own (R138, R141). -/
theorem processInput_noise {c : Config} {t : List Binding} {cb : Callback} {x : Session}
    {noise : List Byte} (rest : List Byte) (hv : c.Valid) (hx : Session.Idle x)
    (hn : ∀ b ∈ noise, b ≠ c.marker) :
    processInput c t cb x (noise ++ rest) = (processInput c t cb x rest).map (Run.shift noise.length []) := by
  induction noise with
  | nil =>
    rw [List.nil_append]
    cases processInput c t cb x rest with
    | error e => rfl
    | ok r => simp [Except.map, Run.shift]
  | cons b noise ih =>
    rw [List.cons_append, processInput_giveUp hv (hx.feedable c) (feedAnswer_noise hx (hn b (by simp)) _),
      hx.decReset_eq, ih fun b hb => hn b (by simp [hb])]
    cases processInput c t cb x rest with
    | error e => rfl
    | ok r => simp [Except.map, Run.shift]; omega

end Sys2Proof.Machine
end

