-- ==== Sys2Proof/Laws/PerInstr.lean ====
section
/-!
SUPPORT. A fact stated for every instruction, constructor by constructor: the form of its encoded word.
-/

namespace Sys2Proof.Laws.WordForm

/-- A frame's word opens with the marker and is at least a header and a checksum long (R50, R51); an operation's
word is one select code of R60, complete, that is with its phase bits where it is a FEED form. -/
def Statement (i : Instr) : Prop :=
  ∀ marker : Byte,
    match (encode marker i).fmt with
    | .req => (encode marker i).word.head? = some marker ∧ 6 ≤ (encode marker i).word.length
    | .rsp => (encode marker i).word.head? = some marker ∧ 8 ≤ (encode marker i).word.length
    | .op => ∃ b, (encode marker i).word = [b] ∧
        (b.toNat ≤ 0xA ∧ b.toNat ≠ 0x3 ∨ 0x18 ≤ b.toNat ∧ b.toNat ≤ 0x1C)

theorem req (l : Link) (cmd : Byte) (payload : List Byte) (crc : Half) :
    Statement (.req l cmd payload crc) :=
  fun _ => ⟨rfl, by simp [encode, reqImage, halfBytes]⟩

theorem rspOk (l : Link) (cmd err : Byte) (output : List Byte) (crc : Half) :
    Statement (.rspOk l cmd err output crc) :=
  fun _ => ⟨rfl, by simp [encode, rspImage, halfBytes]⟩

theorem rspErr (l : Link) (cmd err : Byte) (output : List Byte) (crc : Half) :
    Statement (.rspErr l cmd err output crc) :=
  fun _ => ⟨rfl, by simp [encode, rspImage, halfBytes]⟩

theorem rspErrUnknown (l : Link) (cmd : Byte) (crc : Half) : Statement (.rspErrUnknown l cmd crc) :=
  fun _ => ⟨rfl, by simp [encode, rspImage, halfBytes]⟩

theorem rspErrInternal (l : Link) (cmd : Byte) (crc : Half) : Statement (.rspErrInternal l cmd crc) :=
  fun _ => ⟨rfl, by simp [encode, rspImage, halfBytes]⟩

theorem crc16 (bytes : Option (List Byte)) : Statement (.crc16 bytes) := fun _ => ⟨_, rfl, by decide⟩

theorem sessionInit (s : Nat) : Statement (.sessionInit s) := fun _ => ⟨_, rfl, by decide⟩

theorem decReset (s : Nat) : Statement (.decReset s) := fun _ => ⟨_, rfl, by decide⟩

theorem feedAm (s : Nat) (chunk : List Byte) : Statement (.feedAm s chunk) := fun _ => ⟨_, rfl, by decide⟩

theorem feedAlf (s : Nat) (chunk : List Byte) : Statement (.feedAlf s chunk) := fun _ => ⟨_, rfl, by decide⟩

theorem feedAp (s : Nat) (chunk : List Byte) : Statement (.feedAp s chunk) := fun _ => ⟨_, rfl, by decide⟩

theorem feedAc (s : Nat) (chunk : List Byte) : Statement (.feedAc s chunk) := fun _ => ⟨_, rfl, by decide⟩

theorem feedCp (s : Nat) (chunk : List Byte) : Statement (.feedCp s chunk) := fun _ => ⟨_, rfl, by decide⟩

theorem tableInit (t : Nat) : Statement (.tableInit t) := fun _ => ⟨_, rfl, by decide⟩

theorem register (t : Nat) (cmd : Byte) (handler : Option Handler) : Statement (.register t cmd handler) :=
  fun _ => ⟨_, rfl, by decide⟩

theorem lookup (t : Nat) (cmd : Byte) : Statement (.lookup t cmd) := fun _ => ⟨_, rfl, by decide⟩

theorem dispatch (t s : Nat) : Statement (.dispatch t s) := fun _ => ⟨_, rfl, by decide⟩

theorem encodeResponse (s : Nat) : Statement (.encodeResponse s) := fun _ => ⟨_, rfl, by decide⟩

theorem encodeRequest (cmd : Byte) (payload : List Byte) : Statement (.encodeRequest cmd payload) :=
  fun _ => ⟨_, rfl, by decide⟩

theorem process (t s : Nat) (input : List Byte) (callback : Callback) :
    Statement (.process t s input callback) := fun _ => ⟨_, rfl, by decide⟩

end Sys2Proof.Laws.WordForm
end

