-- ==== Sys2Proof/Laws/Reassembly.lean ====
section
/-!
SUPPORT. A request in fragments: what a session that holds the first bytes of a frame makes of the bytes to come, one
FEED at a time and through PROCESS, whichever calls brought the first bytes (R82, R94, R134).
-/

namespace Sys2Proof.Machine

/-! ### A session that holds a prefix of a frame -/

theorem Memory.getBytes_getD (m : Memory) {n j : Nat} (a : Nat) (h : j < n) :
    (Memory.getBytes m a n).getD j 0 = Memory.get m (a + j) := by
  induction n generalizing a j with
  | zero => omega
  | succ n ih =>
    cases j with
    | zero => simp [Memory.getBytes]
    | succ j =>
      simp only [Memory.getBytes, List.getD_cons_succ]
      rw [ih (a + 1) (by omega), Nat.add_right_comm, Nat.add_assoc]

/-- The bytes held and the bytes to come make the frame. -/
abbrev Session.Holds (x : Session) (frame missing : List Byte) : Prop :=
  Memory.getBytes x.rx 0 x.decoder.accumulated ++ missing = frame

section
variable {x : Session} {frame missing : List Byte}

theorem Session.Holds.length (h : x.Holds frame missing) :
    x.decoder.accumulated + missing.length = frame.length := by
  have := congrArg List.length h; simpa using this

theorem Session.Holds.get (h : x.Holds frame missing) {j : Nat} (hj : j < x.decoder.accumulated) :
    Memory.get x.rx j = frame.getD j 0 := by
  have := Memory.getBytes_getD x.rx 0 hj
  rw [Nat.zero_add] at this
  rw [← this, ← h, List.getD_append _ _ _ _ (by simpa using hj)]

/-- COPY takes bytes from those to come (R82). -/
theorem Session.Holds.afterCopy {bs : List Byte} (h : x.Holds frame (bs ++ missing)) :
    (x.afterCopy bs).Holds frame missing := by
  unfold Session.Holds at *
  rw [Session.afterCopy_accumulated, Memory.getBytes_add, Session.afterCopy_rx, Nat.zero_add,
    Memory.getBytes_setBytes_same, List.append_assoc, ← h]
  congr 1
  exact Memory.getBytes_congr fun j _ hj => Memory.get_setBytes_of_lt (by omega)

end

/-- The image of a request byte by byte (R31, R50). -/
theorem reqImage_cons (m cmd : Byte) (p : List Byte) (crc : Half) :
    reqImage m cmd p crc =
      m :: cmd :: hi8 (lengthField p) :: lo8 (lengthField p) :: (p ++ [hi8 crc, lo8 crc]) := by
  simp [reqImage, halfBytes]

@[simp] theorem length_reqImage (m cmd : Byte) (p : List Byte) (crc : Half) :
    (reqImage m cmd p crc).length = 6 + p.length := by
  simp [reqImage, halfBytes]; omega

section
variable {c : Config} {x : Session} {cmd : Byte} {crc : Half} {p missing : List Byte}

/-- Once the header is in, the declared length is the payload's (R31, R34). -/
theorem Session.Holds.declaredLen (h : x.Holds (reqImage c.marker cmd p crc) missing) (hp : p.length ≤ 65535)
    (ha : 4 ≤ x.decoder.accumulated) : x.declaredLen = p.length := by
  unfold Session.declaredLen
  rw [h.get (by omega), h.get (by omega), reqImage_cons]
  exact be16_of_lengthField hp

/-- Once the whole frame is in, what is compared is its checksum and that of its head (R89, R117). -/
theorem Session.Holds.checksum (h : x.Holds (reqImage c.marker cmd p crc) [])
    (ha : x.decoder.accumulated = 6 + p.length) :
    be16 (Memory.get x.rx (4 + p.length)) (Memory.get x.rx (5 + p.length)) = crc ∧
      Memory.getBytes x.rx 0 (4 + p.length) = requestHead c cmd p := by
  have hl : (requestHead c cmd p).length = 4 + p.length := by simp [requestHead, halfBytes]; omega
  have hi : reqImage c.marker cmd p crc = requestHead c cmd p ++ halfBytes crc := by simp [reqImage, requestHead]
  unfold Session.Holds at h
  rw [List.append_nil, ha, show 6 + p.length = (4 + p.length) + 2 by omega, Memory.getBytes_add, hi] at h
  obtain ⟨h1, h2⟩ := List.append_inj h (by rw [hl]; simp)
  simp only [Memory.getBytes, halfBytes, List.cons.injEq, and_true, Nat.zero_add] at h2
  exact ⟨by rw [show 5 + p.length = 4 + p.length + 1 by omega, h2.1, h2.2, be16_halves], h1⟩

/-- How many bytes the phase still expects, against what is missing: all of the next part of the frame (R22). -/
theorem Session.Awaits.length (hx : Session.Awaits c x (reqImage c.marker cmd p crc) missing)
    (hp : p.length ≤ 65535) :
    x.decoder.accumulated + missing.length = 6 + p.length ∧
      match x.decoder.phase with
      | .awaitMarker => x.decoder.accumulated = 0 ∧ x.decoder.expected = 0
      | .awaitLengthField => 1 ≤ x.decoder.accumulated ∧ x.decoder.accumulated + x.decoder.expected = 4 ∧
          x.decoder.accumulated ≤ 3
      | .awaitPayload => 4 ≤ x.decoder.accumulated ∧ x.decoder.accumulated + x.decoder.expected = 4 + p.length ∧
          (x.decoder.expected = 0 → p.length = 0) ∧ x.declaredLen = p.length
      | .awaitChecksum => x.decoder.accumulated + x.decoder.expected = 6 + p.length ∧ 1 ≤ x.decoder.expected ∧
          x.decoder.expected ≤ 2 ∧ x.declaredLen = p.length
      | .complete => False := by
  have hh : x.Holds (reqImage c.marker cmd p crc) missing := hx.2
  have hl := hh.length
  rw [length_reqImage] at hl
  refine ⟨hl, ?_⟩
  have hd := hx.1.2.1
  cases hq : x.decoder.phase with
  | complete => exact absurd hq hx.1.2.2
  | awaitMarker => exact (Session.decInv_awaitMarker hq).1 hd
  | awaitLengthField => have := (Session.decInv_awaitLengthField hq).1 hd; simp only; omega
  | awaitPayload =>
    have := (Session.decInv_awaitPayload hq).1 hd
    have := hh.declaredLen hp (by omega)
    simp only; omega
  | awaitChecksum =>
    have := (Session.decInv_awaitChecksum hq).1 hd
    have := hh.declaredLen hp (by omega)
    simp only; omega

end

/-! ### FEED on a part of what is missing -/

/-- FEED takes the next `n` bytes of a request, whatever its checksum is while that is not whole; it moves to the next
phase unless the chunk is shorter than what the phase expects, and then takes all of it (R82, R84 to R89). -/
theorem feedAnswer_fragment {c : Config} {x : Session} {cmd : Byte} {crc : Half} {p chunk later : List Byte}
    (hx : Session.Awaits c x (reqImage c.marker cmd p crc) (chunk ++ later)) (h1 : p.length ≤ 65535)
    (hfit : p.length + 6 ≤ c.bRx ∨ x.decoder.accumulated + chunk.length < 4)
    (hcrc : x.decoder.phase = .awaitChecksum → later = [] → crc = crc16Fn c (requestHead c cmd p))
    (hne : chunk ≠ []) :
    ∃ n y, feedAnswer c x chunk = (.ok n, y) ∧ n ≤ chunk.length ∧
      y.Holds (reqImage c.marker cmd p crc) (chunk.drop n ++ later) ∧
      y.rx = Memory.setBytes x.rx x.decoder.accumulated (chunk.take n) ∧
      y.decoder.accumulated = x.decoder.accumulated + n ∧
      (Phase.code y.decoder.phase = Phase.code x.decoder.phase + 1 ∨ (n = chunk.length ∧ later ≠ [] ∧
        y.decoder.phase = x.decoder.phase)) := by
  obtain ⟨hlen, hph⟩ := Session.Awaits.length hx h1
  obtain ⟨⟨-, hd, hc⟩, hh⟩ := hx
  replace hh : x.Holds (reqImage c.marker cmd p crc) (chunk ++ later) := hh
  rw [List.length_append] at hlen
  have hlne := List.length_pos_iff.2 hne
  have hsplit : ∀ e, x.Holds (reqImage c.marker cmd p crc) (chunk.take e ++ (chunk.drop e ++ later)) := fun e => by
    rw [← List.append_assoc, List.take_append_drop]; exact hh
  by_cases hm : x.decoder.phase = .awaitMarker
  · rw [hm] at hph
    obtain ⟨b, bs, rfl⟩ := List.exists_cons_of_ne_nil hne
    have hb : b = c.marker := by
      have : x.Holds (reqImage c.marker cmd p crc) (b :: bs ++ later) := hh
      unfold Session.Holds at this
      rw [hph.1, Memory.getBytes_zero, reqImage_cons] at this
      simp only [List.nil_append, List.cons_append, List.cons.injEq] at this
      exact this.1
    subst hb
    refine ⟨1, { x with rx := Memory.setBytes x.rx 0 [c.marker],
                        decoder := { phase := .awaitLengthField, accumulated := 1, expected := 3 } },
      by simp only [feedAnswer, hm, if_true], by simp, ?_, ?_, ?_, .inl (by rw [hm]; rfl)⟩
    · have := (hsplit 1).afterCopy
      simp only [List.take_succ_cons, List.take_zero, Session.Holds, Session.afterCopy_rx,
        Session.afterCopy_accumulated, hph.1] at this
      exact this
    · rw [hph.1]; rfl
    · rw [hph.1]
  · by_cases hshort : chunk.length < x.decoder.expected
    · refine ⟨chunk.length, x.afterCopy chunk, feedAnswer_short hm hc hshort, Nat.le_refl _, ?_, ?_, rfl,
        .inr ⟨rfl, ?_, rfl⟩⟩
      · rw [List.drop_length, List.nil_append]; exact hh.afterCopy
      · rw [List.take_length]; rfl
      · rintro rfl
        cases hq : x.decoder.phase with
        | awaitMarker => exact hm hq
        | complete => exact hc hq
        | awaitLengthField => rw [hq] at hph; simp at hlen; omega
        | awaitPayload => rw [hq] at hph; simp at hlen; omega
        | awaitChecksum => rw [hq] at hph; simp at hlen; omega
    · have hle : x.decoder.expected ≤ chunk.length := Nat.le_of_not_lt hshort
      have htl : (chunk.take x.decoder.expected).length = x.decoder.expected := by simp; omega
      have hy := (hsplit x.decoder.expected).afterCopy
      have hacc : (x.afterCopy (chunk.take x.decoder.expected)).decoder.accumulated =
          x.decoder.accumulated + x.decoder.expected := by rw [Session.afterCopy_accumulated, htl]
      refine ⟨x.decoder.expected, (feedAnswer c x chunk).2, ?_⟩
      cases hq : x.decoder.phase with
      | awaitMarker => exact absurd hq hm
      | complete => exact absurd hq hc
      | awaitLengthField =>
        rw [hq] at hph
        have hdl := hy.declaredLen h1 (by omega)
        rw [feedAnswer_accepts hq hle (by omega)]
        exact ⟨rfl, hle, hy, rfl, hacc, .inl rfl⟩
      | awaitPayload =>
        rw [feedAnswer_payloadDone hq hle]
        exact ⟨rfl, hle, hy, rfl, hacc, .inl rfl⟩
      | awaitChecksum =>
        rw [hq] at hph
        have hnil : chunk.drop x.decoder.expected ++ later = [] := by
          apply List.eq_nil_of_length_eq_zero
          rw [List.length_append, List.length_drop]; omega
        have hl : later = [] := (List.append_eq_nil_iff.1 hnil).2
        rw [feedAnswer_matches hq hle (by
          rw [hph.2.2.2]; rw [hnil] at hy
          obtain ⟨e1, e2⟩ := hy.checksum (by omega)
          rw [e1, e2, hcrc hq hl])]
        exact ⟨rfl, hle, hy, rfl, hacc, .inl rfl⟩

/-- The last bytes of a request whose checksum is wrong (R89, R153). -/
theorem feedAnswer_wrongChecksum {c : Config} {x : Session} {cmd : Byte} {crc : Half} {p missing rest : List Byte}
    (hx : Session.Awaits c x (reqImage c.marker cmd p crc) missing) (h1 : p.length ≤ 65535)
    (hq : x.decoder.phase = .awaitChecksum) (hcrc : crc ≠ crc16Fn c (requestHead c cmd p)) :
    feedAnswer c x (missing ++ rest) = (.err .checksumError, x.afterCopy missing) := by
  obtain ⟨hlen, hph⟩ := Session.Awaits.length hx h1
  rw [hq] at hph
  have hh : x.Holds (reqImage c.marker cmd p crc) (missing ++ []) := by rw [List.append_nil]; exact hx.2
  have he : x.decoder.expected = missing.length := by omega
  have ht : (missing ++ rest).take x.decoder.expected = missing := by rw [he, List.take_left]
  obtain ⟨e1, e2⟩ := hh.afterCopy.checksum (by rw [Session.afterCopy_accumulated]; omega)
  rw [feedAnswer_mismatch hq (by rw [he, List.length_append]; omega) (by
    rw [ht, hph.2.2.2, e1, e2]; exact hcrc), ht]

/-! ### PROCESS on what is missing -/

/-- FEED looks at no more of a chunk than the phase expects (R84; D29). -/
theorem feedAnswer_append {c : Config} {x : Session} {chunk : List Byte} (rest : List Byte) (hne : chunk ≠ [])
    (h : x.decoder.expected ≤ chunk.length) : feedAnswer c x (chunk ++ rest) = feedAnswer c x chunk := by
  have h1 : ¬ (chunk ++ rest).length < x.decoder.expected := by rw [List.length_append]; omega
  have h2 : ¬ chunk.length < x.decoder.expected := by omega
  unfold feedAnswer
  cases x.decoder.phase with
  | awaitMarker => obtain ⟨b, bs, rfl⟩ := List.exists_cons_of_ne_nil hne; rfl
  | awaitLengthField => simp only [List.take_append_of_le_length h, if_neg h1, if_neg h2]
  | awaitPayload => simp only [List.take_append_of_le_length h, if_neg h1, if_neg h2]
  | awaitChecksum => simp only [List.take_append_of_le_length h, if_neg h1, if_neg h2]
  | complete => rfl

/-- A session that has taken in a whole request: `(Complete, 6 + N, 0)`, the frame in `rx`, and nothing else changed. -/
structure Session.Received (c : Config) (x : Session) (cmd : Byte) (p : List Byte) (y : Session) : Prop where
  decoder : y.decoder = { phase := .complete, accumulated := 6 + p.length, expected := 0 }
  rx : Memory.getBytes y.rx 0 (6 + p.length) = requestFrame c cmd p
  beyond : ∀ j, 6 + p.length ≤ j → Memory.get y.rx j = Memory.get x.rx j
  tx : y.tx = x.tx
  req : y.req = x.req
  sessInit : y.sessInit = x.sessInit

section
variable {c : Config} {x y : Session} {cmd : Byte} {p : List Byte}

theorem Session.Received.holds (h : Session.Received c x cmd p y) :
    y.Holds (reqImage c.marker cmd p (crc16Fn c (requestHead c cmd p))) [] := by
  rw [← requestFrame_eq_reqImage]; unfold Session.Holds; rw [h.decoder, List.append_nil, h.rx]

theorem Session.Received.declaredLen (h : Session.Received c x cmd p y) (hp : p.length ≤ 65535) :
    y.declaredLen = p.length := h.holds.declaredLen hp (by rw [h.decoder]; simp; omega)

/-- EXTRACT on a request received reads its command id and length (R135). -/
theorem Session.Received.extracted (h : Session.Received c x cmd p y) :
    y.extracted = { y with req := { x.req with cmdId := cmd, payloadLen := lengthField p } } := by
  unfold Session.extracted
  have hg : ∀ j, j < 6 + p.length → Memory.get y.rx j =
      (reqImage c.marker cmd p (crc16Fn c (requestHead c cmd p))).getD j 0 := fun j hj =>
    h.holds.get (by rw [h.decoder]; exact hj)
  rw [hg 1 (by omega), hg 2 (by omega), hg 3 (by omega), reqImage_cons, h.req]
  simp only [List.getD_cons_succ, List.getD_cons_zero, be16_halves]

/-- The payload view of a request received is its payload (R17, R31). -/
theorem Session.Received.payload (h : Session.Received c x cmd p y) : Memory.getBytes y.rx 4 p.length = p := by
  have := h.rx
  rw [show 6 + p.length = 4 + (p.length + 2) by omega, Memory.getBytes_add, Memory.getBytes_add, requestFrame,
    requestHead, show c.marker :: cmd :: (halfBytes (lengthField p) ++ p) =
      [c.marker, cmd, hi8 (lengthField p), lo8 (lengthField p)] ++ p from rfl, List.append_assoc] at this
  exact (List.append_inj (List.append_inj this (by simp)).2 (by simp)).1

end

/-- The turns on what is missing of a request up to its checksum, wherever it stands in the input and whatever the
checksum is: the FEED on the checksum bytes comes next, and everything before them is in `rx` (R134). -/
theorem processLoop_toChecksum {c : Config} {cmd : Byte} {crc : Half} {p : List Byte} (hv : c.Valid)
    (hp : p.length ≤ nMax c) :
    ∀ (k : Nat) (x : Session) (missing : List Byte), Phase.code x.decoder.phase + k = 3 →
      Session.Awaits c x (reqImage c.marker cmd p crc) missing →
      let n := missing.length - 2
      ∃ z, z.decoder.phase = .awaitChecksum ∧
        Session.Awaits c z (reqImage c.marker cmd p crc) (missing.drop n) ∧
        z.rx = Memory.setBytes x.rx x.decoder.accumulated (missing.take n) ∧
        z.decoder.accumulated = x.decoder.accumulated + n ∧ z.tx = x.tx ∧ z.req = x.req ∧
        z.sessInit = x.sessInit ∧
        ∀ (t : List Binding) (cb : Callback) (pre rest : List Byte) (fuel : Nat),
          processLoop c t cb (pre ++ (missing ++ rest)) (fuel + k) { sess := x, cur := pre.length, frames := [] } =
            processLoop c t cb (pre ++ (missing ++ rest)) fuel
              { sess := z, cur := pre.length + n, frames := [] } := by
  obtain ⟨h1, h2⟩ := fits_of_le_nMax hv hp
  intro k
  induction k with
  | zero =>
    intro x missing hk hx
    obtain ⟨hl, hph⟩ := Session.Awaits.length hx h1
    cases hq : x.decoder.phase with
    | awaitChecksum =>
      rw [hq] at hph
      have : missing.length - 2 = 0 := by omega
      simp only [this, List.drop_zero, List.take_zero, Memory.setBytes_nil]
      exact ⟨x, hq, hx, rfl, rfl, rfl, rfl, rfl, fun _ _ _ _ _ => rfl⟩
    | awaitMarker => rw [hq] at hk; cases hk
    | awaitLengthField => rw [hq] at hk; cases hk
    | awaitPayload => rw [hq] at hk; cases hk
    | complete => rw [hq] at hk; cases hk
  | succ k ih =>
    intro x missing hk hx
    obtain ⟨hl, hph⟩ := Session.Awaits.length hx h1
    have hac : x.decoder.phase ≠ .awaitChecksum := fun hq => by
      rw [hq, show Phase.code .awaitChecksum = 3 from rfl] at hk; omega
    have hexp : x.decoder.expected + 2 ≤ missing.length := by
      cases hq : x.decoder.phase with
      | awaitMarker => rw [hq] at hph; omega
      | awaitLengthField => rw [hq] at hph; omega
      | awaitPayload => rw [hq] at hph; omega
      | awaitChecksum => exact absurd hq hac
      | complete => exact absurd hq hx.1.2.2
    have hne : missing ≠ [] := List.length_pos_iff.1 (by omega)
    obtain ⟨n, y, ha, hn, hh, hrx, hacc, hcode⟩ := feedAnswer_fragment (later := [])
      (by rw [List.append_nil]; exact hx) h1 (.inl (by omega)) (fun hq => absurd hq hac) hne
    rw [List.append_nil] at hh
    replace hcode : Phase.code y.decoder.phase = Phase.code x.decoder.phase + 1 := by
      rcases hcode with h | ⟨-, h, -⟩
      · exact h
      · exact absurd rfl h
    have hrest := feedAnswer_rest missing hv hx.1.2.1 hx.1.2.2
    obtain ⟨htx, hreq, hsi⟩ := feedAnswer_frame c x missing
    rw [ha] at hrest htx hreq hsi
    simp only at hrest htx hreq hsi
    have hc : y.decoder.phase ≠ .complete := fun h => by
      rw [h, show Phase.code .complete = 4 from rfl] at hcode; omega
    have hy : Session.Awaits c y (reqImage c.marker cmd p crc) (missing.drop n) :=
      ⟨⟨hsi.trans hx.1.1, hrest, hc⟩, hh⟩
    have hn2 : n + 2 ≤ missing.length := by
      obtain ⟨hyl, hyph⟩ := Session.Awaits.length hy h1
      rw [List.length_drop] at hyl
      cases hq : y.decoder.phase with
      | awaitMarker => rw [hq] at hcode; cases hcode
      | awaitLengthField => rw [hq] at hyph; omega
      | awaitPayload => rw [hq] at hyph; omega
      | awaitChecksum =>
        -- the payload's last byte ended the turn: both checksum bytes are to come
        have hpx : x.decoder.phase = .awaitPayload := by
          rw [hq, show Phase.code .awaitChecksum = 3 from rfl] at hcode
          cases hqx : x.decoder.phase with
          | awaitPayload => rfl
          | awaitMarker => rw [hqx] at hcode; cases hcode
          | awaitLengthField => rw [hqx] at hcode; cases hcode
          | awaitChecksum => exact absurd hqx hac
          | complete => exact absurd hqx hx.1.2.2
        rw [feedAnswer_payloadDone hpx (by omega)] at ha
        cases ha; omega
      | complete => exact absurd hq hc
    obtain ⟨z, hz, hza, hzrx, hzacc, hztx, hzreq, hzsi, hloop⟩ := ih y (missing.drop n) (by omega) hy
    rw [List.length_drop] at hza hzrx hzacc hloop
    rw [List.drop_drop, show n + (missing.length - n - 2) = missing.length - 2 by omega] at hza
    have hcut : missing.take (missing.length - 2) =
        missing.take n ++ (missing.drop n).take (missing.length - n - 2) := by
      rw [← List.take_add]; congr 1; omega
    refine ⟨z, hz, hza, ?_, by omega, hztx.trans htx, hzreq.trans hreq, hzsi.trans hsi,
      fun t cb pre rest fuel => ?_⟩
    · rw [hzrx, hrx, hacc, hcut, Memory.setBytes_append, List.length_take, Nat.min_eq_left hn]
    · rw [show fuel + (k + 1) = fuel + k + 1 from rfl,
        processLoop_turn (r := { sess := x, cur := pre.length, frames := [] }) hv hx.1 (by simp; omega)
          (by simpa using (feedAnswer_append rest hne (by omega)).trans ha) hc]
      have := hloop t cb (pre ++ missing.take n) rest fuel
      rw [List.append_assoc, ← List.append_assoc (missing.take n), List.take_append_drop, List.length_append,
        List.length_take, Nat.min_eq_left hn,
        show pre.length + n + (missing.length - n - 2) = pre.length + (missing.length - 2) by omega] at this
      exact this

/-- The turns of R141 are enough for the phases still to come before the checksum, for the checksum, and for the
bytes from the one after the first checksum byte still to come. -/
theorem Session.Awaits.turns {c : Config} {x : Session} {cmd : Byte} {crc : Half} {p missing : List Byte}
    (hx : Session.Awaits c x (reqImage c.marker cmd p crc) missing) (hp : p.length ≤ 65535) :
    ∃ k, Phase.code x.decoder.phase + k = 3 ∧
      k + 1 + 2 * (missing.length - (missing.length - 2 + 1)) ≤ 2 * missing.length := by
  obtain ⟨hl, hph⟩ := Session.Awaits.length hx hp
  cases hq : x.decoder.phase with
  | awaitMarker => rw [hq] at hph; exact ⟨3, rfl, by omega⟩
  | awaitLengthField => rw [hq] at hph; exact ⟨2, rfl, by omega⟩
  | awaitPayload => rw [hq] at hph; exact ⟨1, rfl, by omega⟩
  | awaitChecksum => rw [hq] at hph; exact ⟨0, rfl, by omega⟩
  | complete => exact absurd hq hx.1.2.2

/-- PROCESS on what is missing of a request and on what follows it is the loop that stands at its checksum, with
turns enough for it and for the rest (R134, R141). -/
theorem processInput_toChecksum {c : Config} {x : Session} {cmd : Byte} {crc : Half} {p missing : List Byte}
    (hv : c.Valid) (hx : Session.Awaits c x (reqImage c.marker cmd p crc) missing) (hp : p.length ≤ nMax c) :
    let n := missing.length - 2
    ∃ z, z.decoder.phase = .awaitChecksum ∧
      Session.Awaits c z (reqImage c.marker cmd p crc) (missing.drop n) ∧
      z.rx = Memory.setBytes x.rx x.decoder.accumulated (missing.take n) ∧
      z.decoder.accumulated = x.decoder.accumulated + n ∧ z.tx = x.tx ∧ z.req = x.req ∧ z.sessInit = x.sessInit ∧
      ∀ (t : List Binding) (cb : Callback) (rest : List Byte), ∃ fuel,
        2 * (missing.length - (n + 1) + rest.length) ≤ fuel ∧
        processInput c t cb x (missing ++ rest) =
          processLoop c t cb (missing ++ rest) (fuel + 1) { sess := z, cur := n, frames := [] } := by
  obtain ⟨h1, -⟩ := fits_of_le_nMax hv hp
  obtain ⟨hl, -⟩ := Session.Awaits.length hx h1
  obtain ⟨k, hk, hle⟩ := Session.Awaits.turns hx h1
  obtain ⟨z, hz, hza, hzrx, hzacc, hztx, hzreq, hzsi, hloop⟩ := processLoop_toChecksum hv hp k x missing hk hx
  refine ⟨z, hz, hza, hzrx, hzacc, hztx, hzreq, hzsi, fun t cb rest =>
    ⟨2 * (missing ++ rest).length - k - 1, ?_, ?_⟩⟩
  · rw [List.length_append]; omega
  · have := hloop t cb [] rest (2 * (missing ++ rest).length - k - 1 + 1)
    rw [List.nil_append, List.length_nil, Nat.zero_add,
      show 2 * (missing ++ rest).length - k - 1 + 1 + k = 2 * (missing ++ rest).length by
        rw [List.length_append]; omega] at this
    rw [processInput_eq hx.1]; exact this

/-- PROCESS on what is missing of a request and on what follows it: the request is taken in and answered, and the
loop goes on with turns enough for the rest (R134, R137). -/
theorem processInput_missing {c : Config} {x : Session} {cmd : Byte} {p missing : List Byte} (hv : c.Valid)
    (hx : Session.Awaits c x (requestFrame c cmd p) missing) (hp : p.length ≤ nMax c) :
    ∃ y, Session.Received c x cmd p y ∧ ∀ (t : List Binding) (cb : Callback) (rest : List Byte), ∃ fuel,
      2 * rest.length ≤ fuel ∧ processInput c t cb x (missing ++ rest) =
        answerRequest c t cb { sess := y, cur := missing.length, frames := [] } >>=
          processLoop c t cb (missing ++ rest) fuel := by
  obtain ⟨h1, h2⟩ := fits_of_le_nMax hv hp
  rw [requestFrame_eq_reqImage] at hx
  obtain ⟨hl, -⟩ := Session.Awaits.length hx h1
  obtain ⟨z, hz, hza, hzrx, hzacc, hztx, hzreq, hzsi, hloop⟩ := processInput_toChecksum hv hx hp
  obtain ⟨hzl, hzph⟩ := Session.Awaits.length hza h1
  rw [hz] at hzph
  rw [List.length_drop] at hzl
  have hne : missing.drop (missing.length - 2) ≠ [] := by
    rw [← List.length_pos_iff, List.length_drop]; omega
  have hdrop : missing.drop (missing.length - 2) ++ [] = missing.drop (missing.length - 2) := List.append_nil _
  obtain ⟨n, y, ha, hn, hh, hrx, hacc, hcode⟩ := feedAnswer_fragment (later := [])
    (by rw [hdrop]; exact hza) h1 (.inl (by omega)) (fun _ _ => rfl) hne
  rw [List.append_nil] at hh
  have hc : y.decoder.phase = .complete := by
    rcases hcode with h | ⟨-, h, -⟩
    · rw [hz, show Phase.code .awaitChecksum + 1 = 4 from rfl] at h
      cases hq : y.decoder.phase with
      | complete => rfl
      | awaitMarker => rw [hq] at h; cases h
      | awaitLengthField => rw [hq] at h; cases h
      | awaitPayload => rw [hq] at h; cases h
      | awaitChecksum => rw [hq] at h; cases h
    · exact absurd rfl h
  have hrest := feedAnswer_rest (missing.drop (missing.length - 2)) hv hza.1.2.1 hza.1.2.2
  obtain ⟨htx, hreq, hsi⟩ := feedAnswer_frame c z (missing.drop (missing.length - 2))
  rw [ha] at hrest htx hreq hsi
  simp only at hrest htx hreq hsi
  have hi := (Session.decInv_complete hc).1 hrest
  have hdl := hh.declaredLen h1 (by omega)
  have hy6 : y.decoder.accumulated = 6 + p.length := by omega
  have hhl := hh.length
  rw [length_reqImage, hy6] at hhl
  have hnil : (missing.drop (missing.length - 2)).drop n = [] := List.eq_nil_of_length_eq_zero (by omega)
  have hnn : n = missing.length - (missing.length - 2) := by omega
  refine ⟨y, ⟨?_, ?_, ?_, htx.trans hztx, hreq.trans hzreq, hsi.trans hzsi⟩, fun t cb rest => ?_⟩
  · have he := hi.2.1.2.1
    generalize y.decoder = d at hc hy6 he
    cases d; subst hc hy6 he; rfl
  · unfold Session.Holds at hh; rw [hnil, List.append_nil, hy6] at hh; exact hh
  · intro j hj
    rw [hrx, hzrx, Memory.get_setBytes_of_ge (by simp; omega), Memory.get_setBytes_of_ge (by simp; omega)]
  · obtain ⟨fuel, hf, h⟩ := hloop t cb rest
    refine ⟨fuel, by omega, ?_⟩
    rw [h, processLoop_complete (r := { sess := z, cur := missing.length - 2, frames := [] }) hv hza.1
      (by simp; omega) (y := y) (n := n) ?_ hc]
    · rw [show missing.length - 2 + n = missing.length by omega]
    · rw [List.drop_append_of_le_length (Nat.sub_le _ _)]
      exact (feedAnswer_append (x := z) rest hne (by rw [List.length_drop]; omega)).trans ha

/-- PROCESS on what is missing of a request whose checksum is wrong, and on what follows it: the first checksum byte
the failed FEED was given is given up, and what follows it is processed as a call of its own, from the session reset
with the frame in `rx` (R138, R153). -/
theorem processInput_wrongChecksum {c : Config} {x : Session} {cmd : Byte} {crc : Half} {p missing : List Byte}
    (hv : c.Valid) (hx : Session.Awaits c x (reqImage c.marker cmd p crc) missing) (hp : p.length ≤ nMax c)
    (hcrc : crc ≠ crc16Fn c (requestHead c cmd p)) (t : List Binding) (cb : Callback) (rest : List Byte) :
    let n := missing.length - 2 + 1
    processInput c t cb x (missing ++ rest) =
      (processInput c t cb
        { x with rx := Memory.setBytes x.rx x.decoder.accumulated missing
                 decoder := { phase := .awaitMarker, accumulated := 0, expected := 0 } }
        (missing.drop n ++ rest)).map (Run.shift n []) := by
  obtain ⟨h1, h2⟩ := fits_of_le_nMax hv hp
  obtain ⟨hl, -⟩ := Session.Awaits.length hx h1
  obtain ⟨z, hz, hza, hzrx, hzacc, hztx, hzreq, hzsi, hloop⟩ := processInput_toChecksum hv hx hp
  obtain ⟨hzl, hzph⟩ := Session.Awaits.length hza h1
  rw [hz] at hzph
  rw [List.length_drop] at hzl
  obtain ⟨fuel, hf, h⟩ := hloop t cb rest
  have ha := feedAnswer_wrongChecksum (rest := rest) hza h1 hz hcrc
  intro n
  have hn : n ≤ missing.length := by simp only [n]; omega
  have hsess : (z.afterCopy (missing.drop (missing.length - 2))).decReset =
      { x with rx := Memory.setBytes x.rx x.decoder.accumulated missing
               decoder := { phase := .awaitMarker, accumulated := 0, expected := 0 } } := by
    have hrx : Memory.setBytes z.rx z.decoder.accumulated (missing.drop (missing.length - 2)) =
        Memory.setBytes x.rx x.decoder.accumulated missing := by
      conv => rhs; rw [← List.take_append_drop (missing.length - 2) missing]
      rw [Memory.setBytes_append, hzrx, hzacc, List.length_take, Nat.min_eq_left (by omega)]
    obtain ⟨si, dec, rx, tx, req⟩ := z
    simp only at hrx hztx hzreq hzsi
    subst hztx hzreq hzsi
    simp only [Session.decReset, Session.afterCopy, hrx]
  rw [h, processLoop_resync (r := { sess := z, cur := missing.length - 2, frames := [] }) hv hza.1
    (by simp; omega) (by rw [List.drop_append_of_le_length (Nat.sub_le _ _)]; exact ha), hsess]
  have := processLoop_rest (t := t) (cb := cb) (r := { sess := _, cur := n, frames := [] }) hv (missing.take n)
    (missing.drop n ++ rest) []
    (Session.feedable_decReset c (x := { x with rx := Memory.setBytes x.rx x.decoder.accumulated missing }) hx.1.1)
    (by simp [Run.shift, Run.start, Nat.min_eq_left hn]) (fuel := fuel) (by simp; omega)
  rw [← List.append_assoc, List.take_append_drop, List.length_take, Nat.min_eq_left hn] at this
  exact this

/-- PROCESS on the last bytes of a request is its answer (R134, R139). -/
theorem processInput_lastBytes {c : Config} {x : Session} {cmd : Byte} {p missing : List Byte} (hv : c.Valid)
    (hx : Session.Awaits c x (requestFrame c cmd p) missing) (hp : p.length ≤ nMax c) :
    ∃ y, Session.Received c x cmd p y ∧ ∀ (t : List Binding) (cb : Callback),
      processInput c t cb x missing =
        answerRequest c t cb { sess := y, cur := missing.length, frames := [] } := by
  obtain ⟨y, hy, h⟩ := processInput_missing hv hx hp
  refine ⟨y, hy, fun t cb => ?_⟩
  obtain ⟨f, -, h⟩ := h t cb []
  rw [List.append_nil] at h
  rw [h]
  cases ha : answerRequest c t cb { sess := y, cur := missing.length, frames := [] } with
  | error e => rfl
  | ok r =>
    obtain ⟨z, -, -, rfl⟩ := answerRequest_eq_ok hv ha
    rw [Res.ok_bind, processLoop_done (by simp)]

/-- An idle session awaits the whole of every frame. -/
theorem Session.Idle.awaits {x : Session} (c : Config) (hx : Session.Idle x) (frame : List Byte) :
    Session.Awaits c x frame frame := ⟨hx.feedable c, by rw [hx.2]; rfl⟩

/-- What brings a request's last bytes is a delivery of what its session awaits (R57, R131, R134). -/
theorem BringsRequest.exec_eq {s : State} {i : Instr} {t k : Nat} {cmd : Byte} {p : List Byte} {cb : Callback}
    (h : BringsRequest s t k cmd p cb i) :
    ∃ missing, Session.Awaits s.cfg (s.session k) (requestFrame s.cfg cmd p) missing ∧
      exec i s = Res.toOutcome (deliver t k missing cb s) := by
  rcases h with ⟨hx, rfl⟩ | ⟨missing, hm, rfl⟩
  · exact ⟨_, hx.awaits _ _, by simp only [exec, execReq, arrive, requestFrame_eq_reqImage]⟩
  · exact ⟨missing, hm, rfl⟩

/-- An instruction that completes a request first delivers what its session awaits, and then the rest (R134). -/
theorem ReachesRequest.exec_eq {s : State} {i : Instr} {t k : Nat} {cmd : Byte} {p : List Byte} {cb : Callback}
    (h : ReachesRequest s t k cmd p cb i) :
    ∃ missing rest, Session.Awaits s.cfg (s.session k) (requestFrame s.cfg cmd p) missing ∧
      exec i s = Res.toOutcome (deliver t k (missing ++ rest) cb s) := by
  rcases h with h | ⟨missing, rest, hm, rfl⟩
  · obtain ⟨missing, hm, he⟩ := h.exec_eq
    exact ⟨missing, [], hm, by rw [List.append_nil]; exact he⟩
  · exact ⟨missing, rest, hm, rfl⟩

/-- A request whose answer is refused refuses the whole PROCESS, whatever follows it (R169). -/
theorem processInput_refused {c : Config} {x : Session} {cmd : Byte} {p missing : List Byte} (hv : c.Valid)
    (hx : Session.Awaits c x (requestFrame c cmd p) missing) (hp : p.length ≤ nMax c) :
    ∃ y, Session.Received c x cmd p y ∧
      ∀ (t : List Binding) (cb : Callback) (rest : List Byte) (e : Stop),
        answerRequest c t cb { sess := y, cur := missing.length, frames := [] } = .error e →
        processInput c t cb x (missing ++ rest) = .error e := by
  obtain ⟨y, hy, h⟩ := processInput_missing hv hx hp
  refine ⟨y, hy, fun t cb rest e he => ?_⟩
  obtain ⟨fuel, -, h⟩ := h t cb rest
  rw [h, he]; rfl

/-! ### An input that ends inside a frame -/

/-- The number of bytes taken in says the phase and the counters, but where nothing is declared and the header alone is
in: there FEED.AP moves to AwaitChecksum without a byte (R22, R88). -/
theorem Session.Awaits.decoder_eq {c : Config} {x : Session} {cmd : Byte} {crc : Half} {p missing : List Byte}
    (hx : Session.Awaits c x (reqImage c.marker cmd p crc) missing) (hp : p.length ≤ 65535)
    (h0 : p.length = 0 → x.decoder.accumulated = 4 → x.decoder.phase = .awaitPayload) :
    x.decoder = Decoder.inFrame p.length x.decoder.accumulated := by
  obtain ⟨-, hph⟩ := Session.Awaits.length hx hp
  have hc := hx.1.2.2
  clear hx
  generalize x.decoder = d at *
  obtain ⟨q, a, e⟩ := d
  unfold Decoder.inFrame
  simp only at h0 hph hc ⊢
  cases q with
  | complete => exact absurd rfl hc
  | awaitMarker => simp only at hph; rw [if_pos hph.1, hph.1, hph.2]
  | awaitLengthField =>
    simp only at hph; rw [if_neg (by omega), if_pos (by omega)]; congr 1; omega
  | awaitPayload =>
    simp only at hph; rw [if_neg (by omega), if_neg (by omega), if_pos (by omega)]; congr 1; omega
  | awaitChecksum =>
    simp only at hph
    have : a ≠ 4 := fun h => by
      by_cases hn : p.length = 0
      · exact Phase.noConfusion (h0 hn h)
      · omega
    rw [if_neg (by omega), if_neg (by omega), if_neg (by omega)]; congr 1; omega

/-- The turns on a part of what is missing: no frame is completed, and all of it is taken in (R134, R136). -/
theorem processLoop_fragment {c : Config} {cmd : Byte} {crc : Half} {p later : List Byte} (hv : c.Valid)
    (h1 : p.length ≤ 65535) (hl : later ≠ []) :
    ∀ (k : Nat) (x : Session) (now : List Byte), Phase.code x.decoder.phase + k = 4 → now ≠ [] →
      Session.Awaits c x (reqImage c.marker cmd p crc) (now ++ later) →
      p.length + 6 ≤ c.bRx ∨ x.decoder.accumulated + now.length < 4 →
      ∃ y, Session.Awaits c y (reqImage c.marker cmd p crc) later ∧
        y.rx = Memory.setBytes x.rx x.decoder.accumulated now ∧
        y.decoder = Decoder.inFrame p.length (x.decoder.accumulated + now.length) ∧
        y.tx = x.tx ∧ y.req = x.req ∧ y.sessInit = x.sessInit ∧
        ∀ (t : List Binding) (cb : Callback) (pre : List Byte) (fuel : Nat),
          processLoop c t cb (pre ++ now) (fuel + k) { sess := x, cur := pre.length, frames := [] } =
            .ok { sess := y, cur := pre.length + now.length, frames := [] } := by
  intro k
  induction k with
  | zero =>
    intro x now hk _ hx
    cases hq : x.decoder.phase with
    | complete => exact absurd hq hx.1.2.2
    | awaitMarker => rw [hq] at hk; cases hk
    | awaitLengthField => rw [hq] at hk; cases hk
    | awaitPayload => rw [hq] at hk; cases hk
    | awaitChecksum => rw [hq] at hk; cases hk
  | succ k ih =>
    intro x now hk hne hx hfit
    obtain ⟨n, y, ha, hn, hh, hrx, hacc, hcode⟩ :=
      feedAnswer_fragment hx h1 hfit (fun _ h => absurd h hl) hne
    have hrest := feedAnswer_rest now hv hx.1.2.1 hx.1.2.2
    obtain ⟨htx, hreq, hsi⟩ := feedAnswer_frame c x now
    rw [ha] at hrest htx hreq hsi
    simp only at hrest htx hreq hsi
    have hpos := List.length_pos_iff.2 hl
    have hnow := List.length_pos_iff.2 hne
    have hhl := hh.length
    rw [length_reqImage, List.length_append] at hhl
    have hc : y.decoder.phase ≠ .complete := fun hc => by
      have hi := (Session.decInv_complete hc).1 hrest
      have := hh.declaredLen h1 (by omega)
      omega
    have hy : Session.Awaits c y (reqImage c.marker cmd p crc) (now.drop n ++ later) :=
      ⟨⟨hsi.trans hx.1.1, hrest, hc⟩, hh⟩
    have hturn : ∀ (t : List Binding) (cb : Callback) (pre : List Byte) (fuel : Nat),
        processLoop c t cb (pre ++ now) (fuel + (k + 1)) { sess := x, cur := pre.length, frames := [] } =
          processLoop c t cb (pre ++ now) (fuel + k) { sess := y, cur := pre.length + n, frames := [] } :=
      fun t cb pre fuel => by
        rw [show fuel + (k + 1) = fuel + k + 1 from rfl]
        exact processLoop_turn (r := { sess := x, cur := pre.length, frames := [] }) hv hx.1 (by simp; omega)
          (by simpa using ha) hc
    by_cases hd : now.drop n = []
    · have hnn : n = now.length := by
        have := congrArg List.length hd; rw [List.length_drop, List.length_nil] at this; omega
      subst hnn
      rw [hd] at hy
      have h0 : p.length = 0 → y.decoder.accumulated = 4 → y.decoder.phase = .awaitPayload := fun hp0 h4 => by
        -- the bytes of this turn ended the header
        obtain ⟨-, hph⟩ := Session.Awaits.length hx h1
        obtain ⟨-, hyph⟩ := Session.Awaits.length hy h1
        have hx2 : Phase.code x.decoder.phase ≤ 1 := by
          cases hq : x.decoder.phase with
          | awaitMarker => decide
          | awaitLengthField => decide
          | awaitPayload => rw [hq] at hph; omega
          | awaitChecksum => rw [hq] at hph; omega
          | complete => exact absurd hq hx.1.2.2
        cases hq : y.decoder.phase with
        | awaitPayload => rfl
        | awaitMarker => rw [hq] at hyph; omega
        | awaitLengthField => rw [hq] at hyph; omega
        | awaitChecksum =>
          rw [hq, show Phase.code .awaitChecksum = 3 from rfl] at hcode
          rcases hcode with h | ⟨-, -, h⟩
          · omega
          · rw [← h] at hx2; cases hx2 with | step h => cases h
        | complete => exact absurd hq hc
      refine ⟨y, hy, by rw [hrx, List.take_length], ?_, htx, hreq, hsi, fun t cb pre fuel => ?_⟩
      · rw [← hacc]; exact Session.Awaits.decoder_eq hy h1 h0
      · rw [hturn, processLoop_done (by simp)]
    · have hadv : Phase.code y.decoder.phase = Phase.code x.decoder.phase + 1 := by
        rcases hcode with h | ⟨rfl, -, -⟩
        · exact h
        · exact absurd List.drop_length hd
      obtain ⟨z, hz, hzrx, hzdec, hztx, hzreq, hzsi, hloop⟩ := ih y (now.drop n) (by omega) hd hy
        (by rw [List.length_drop]; omega)
      refine ⟨z, hz, ?_, ?_, hztx.trans htx, hzreq.trans hreq, hzsi.trans hsi, fun t cb pre fuel => ?_⟩
      · conv => rhs; rw [← List.take_append_drop n now]
        rw [hzrx, hrx, hacc, Memory.setBytes_append, List.length_take, Nat.min_eq_left hn]
      · rw [hzdec, hacc, List.length_drop]; congr 1; omega
      · rw [hturn]
        have := hloop t cb (pre ++ now.take n) fuel
        rw [List.append_assoc, List.take_append_drop, List.length_append, List.length_take, Nat.min_eq_left hn,
          List.length_drop, show pre.length + n + (now.length - n) = pre.length + now.length by omega] at this
        exact this

/-- PROCESS on a part of what is missing of a frame sends nothing and leaves the frame in progress (R131, R134 corner
case 6, R140). -/
theorem processInput_fragment {c : Config} {x : Session} {cmd : Byte} {crc : Half} {p now later : List Byte}
    (hv : c.Valid) (h1 : p.length ≤ 65535) (hl : later ≠ [])
    (hx : Session.Awaits c x (reqImage c.marker cmd p crc) (now ++ later))
    (hfit : p.length + 6 ≤ c.bRx ∨ x.decoder.accumulated + now.length < 4) :
    let y : Session := { x with
      rx := Memory.setBytes x.rx x.decoder.accumulated now
      decoder := if now = [] then x.decoder else Decoder.inFrame p.length (x.decoder.accumulated + now.length) }
    Session.Awaits c y (reqImage c.marker cmd p crc) later ∧
      ∀ (t : List Binding) (cb : Callback),
        processInput c t cb x now = .ok { sess := y, cur := now.length, frames := [] } := by
  by_cases hne : now = []
  · subst hne
    exact ⟨hx, fun t cb => by rw [processInput_eq hx.1]; rfl⟩
  · obtain ⟨k, hk, hle⟩ := Session.Awaits.turns hx h1
    obtain ⟨y, hy, hrx, hdec, htx, hreq, hsi, hloop⟩ :=
      processLoop_fragment hv h1 hl (k + 1) x now (by omega) hne hx hfit
    have he : y = { x with
        rx := Memory.setBytes x.rx x.decoder.accumulated now
        decoder := Decoder.inFrame p.length (x.decoder.accumulated + now.length) } := by
      obtain ⟨si, dec, rx, tx, req⟩ := y
      simp only at hrx hdec htx hreq hsi
      subst hrx hdec htx hreq hsi; rfl
    simp only [hne, if_false]
    rw [← he]
    refine ⟨hy, fun t cb => ?_⟩
    have := hloop t cb [] (2 * now.length)
    rw [List.nil_append, List.length_nil, Nat.zero_add] at this
    rw [processInput_eq hx.1, ← processLoop_more (more := k + 1) (r := Run.start x) hv hx.1 (Nat.zero_le _)
      (by simp [turnMeasure])]
    exact this

end Sys2Proof.Machine
end

