-- ==== Sys2Proof/Laws/Step.lean ====
section
/-!
SUPPORT. What each operation's answer is made of: one inversion lemma per operation that may stop, and what a
reset, a session write and a deliver keep.
-/

namespace Sys2Proof.Machine

/-- What a FEED form answers (R83, R85 to R89). -/
theorem feedForm_eq_ok {p : Phase} {k : Nat} {chunk : List Byte} {s t : State}
    (h : feedForm p k chunk s = .ok t) :
    (s.session k).sessInit = true ∧ (s.session k).decoder.phase = p ∧
      (s.session k).decInv s.cfg = true ∧ p ≠ .complete ∧
      ∃ r y, feed s.cfg (s.session k) chunk = .ok (r, y) ∧ t = (s.setSession k y).setResult (.feed r) := by
  obtain ⟨x, hx, h⟩ := Res.bind_eq_ok h
  obtain ⟨u, hp, h⟩ := Res.bind_eq_ok h
  obtain ⟨⟨r, y⟩, hf, h⟩ := Res.bind_eq_ok h
  cases h
  have hi : (s.session k).sessInit = true ∧ x = s.session k := by
    unfold State.readySession at hx; split at hx
    · next hi => cases hx; exact ⟨hi, rfl⟩
    · cases hx
  obtain ⟨hi, rfl⟩ := hi
  have hp' : (s.session k).decoder.phase = p := by
    by_contra hc; rw [decide_eq_false hc] at hp; cases hp
  obtain ⟨hd, hc⟩ := feed_eq_ok hf
  exact ⟨hi, hp', hd, hp' ▸ hc, r, y, hf, rfl⟩

/-- A FEED form on an initialised session at rest in its phase answers (R85 to R89). -/
theorem feedForm_ok {p : Phase} {k : Nat} {s : State} (chunk : List Byte) (hv : s.cfg.Valid)
    (hi : (s.session k).sessInit = true) (hp : (s.session k).decoder.phase = p)
    (hd : (s.session k).decInv s.cfg = true) (hc : p ≠ .complete) :
    feedForm p k chunk s = .ok ((s.setSession k (feedAnswer s.cfg (s.session k) chunk).2).setResult
      (.feed (feedAnswer s.cfg (s.session k) chunk).1)) := by
  simp only [feedForm, State.readySession_ok s k hi, Res.ok_bind, hp, decide_true, require_true,
    feed_eq chunk hv hd (hp ▸ hc)]

/-- The FEED form the phase register selects is the form of that phase (R60). -/
theorem exec_feedInstr (p : Phase) (k : Nat) (chunk : List Byte) (s : State) :
    exec (Phase.feedInstr p k chunk) s = Res.toOutcome (feedForm p k chunk s) := by
  cases p <;> rfl

/-- Executed on a session at rest in its phase, a FEED form answers `feedAnswer` (R85 to R89). -/
theorem exec_feedInstr_next {p : Phase} {k : Nat} {s : State} {chunk : List Byte} {r : FeedResult}
    {y : Session} (hv : s.cfg.Valid) (hi : (s.session k).sessInit = true)
    (hp : (s.session k).decoder.phase = p) (hd : (s.session k).decInv s.cfg = true) (hc : p ≠ .complete)
    (ha : feedAnswer s.cfg (s.session k) chunk = (r, y)) :
    exec (Phase.feedInstr p k chunk) s = .next ((s.setSession k y).setResult (.feed r)) := by
  rw [exec_feedInstr, feedForm_ok chunk hv hi hp hd hc, ha, Res.toOutcome_ok]

/-- What FEED answers is `feedAnswer`, on a session at rest. -/
theorem feed_eq_ok_answer {c : Config} {x y : Session} {chunk : List Byte} {r : FeedResult} (hv : c.Valid)
    (h : feed c x chunk = .ok (r, y)) :
    x.decInv c = true ∧ x.decoder.phase ≠ .complete ∧ feedAnswer c x chunk = (r, y) := by
  obtain ⟨h1, h2⟩ := feed_eq_ok h
  rw [feed_eq chunk hv h1 h2] at h
  exact ⟨h1, h2, by injection h⟩

theorem State.readySession_eq_ok {s : State} {k : Nat} {x : Session} (h : s.readySession k = .ok x) :
    (s.session k).sessInit = true ∧ x = s.session k := by
  unfold State.readySession at h; split at h
  · next hi => cases h; exact ⟨hi, rfl⟩
  · cases h

theorem State.readyServer_eq_ok {s : State} {k : Nat} {v : Server} (h : s.readyServer k = .ok v) :
    (s.server k).srvInit = true ∧ v = s.server k := by
  unfold State.readyServer at h; split at h
  · next hi => cases h; exact ⟨hi, rfl⟩
  · cases h

/-- What a delivered chunk answers (R131, R134). -/
theorem deliver_eq_ok {t k : Nat} {input : List Byte} {cb : Callback} {s u : State}
    (h : deliver t k input cb s = .ok u) :
    (s.server t).srvInit = true ∧ (s.session k).sessInit = true ∧
      ∃ r, processInput s.cfg (s.server t).table cb (s.session k) input = .ok r ∧
        u = ((s.setSession k r.sess).addSent k r.frames).setResult .none := by
  obtain ⟨v, hv, h⟩ := Res.bind_eq_ok h
  obtain ⟨x, hx, h⟩ := Res.bind_eq_ok h
  obtain ⟨r, hr, h⟩ := Res.bind_eq_ok h
  cases h
  obtain ⟨h1, rfl⟩ := State.readyServer_eq_ok hv
  obtain ⟨h2, rfl⟩ := State.readySession_eq_ok hx
  exact ⟨h1, h2, r, hr, rfl⟩

theorem deliver_of_ok {t k : Nat} {input : List Byte} {cb : Callback} {s : State} {r : Run}
    (ht : (s.server t).srvInit = true) (hk : (s.session k).sessInit = true)
    (h : processInput s.cfg (s.server t).table cb (s.session k) input = .ok r) :
    deliver t k input cb s = .ok (((s.setSession k r.sess).addSent k r.frames).setResult .none) := by
  simp only [deliver, State.readyServer_ok s t ht, State.readySession_ok s k hk, Res.ok_bind, h]

theorem execDispatch_eq_next {t k : Nat} {s u : State} (h : execDispatch t k s = .next u) :
    (s.server t).srvInit = true ∧ (s.session k).sessInit = true ∧
      ∃ y, dispatchRequest s.cfg (s.server t).table (s.session k) = .ok y ∧
        u = (s.setSession k y).setResult .none := by
  obtain ⟨v, hv, h⟩ := Res.bind_eq_ok (Res.toOutcome_eq_next h)
  obtain ⟨x, hx, h⟩ := Res.bind_eq_ok h
  obtain ⟨y, hy, h⟩ := Res.bind_eq_ok h
  cases h
  obtain ⟨h1, rfl⟩ := State.readyServer_eq_ok hv
  obtain ⟨h2, rfl⟩ := State.readySession_eq_ok hx
  exact ⟨h1, h2, y, hy, rfl⟩

theorem execEncodeResponse_eq_next {k : Nat} {s u : State} (h : execEncodeResponse k s = .next u) :
    (s.session k).sessInit = true ∧ ∃ n y, encodeFrame s.cfg (s.session k) = .ok (n, y) ∧
      u = (s.setSession k y).setResult (.encodedLength n) := by
  obtain ⟨x, hx, h⟩ := Res.bind_eq_ok (Res.toOutcome_eq_next h)
  obtain ⟨⟨n, y⟩, hy, h⟩ := Res.bind_eq_ok h
  cases h
  obtain ⟨h2, rfl⟩ := State.readySession_eq_ok hx
  exact ⟨h2, n, y, hy, rfl⟩

theorem execDecReset_eq_next {k : Nat} {s u : State} (h : execDecReset k s = .next u) :
    (s.session k).sessInit = true ∧ u = (s.setSession k (s.session k).decReset).setResult .none := by
  obtain ⟨x, hx, h⟩ := Res.bind_eq_ok (Res.toOutcome_eq_next h)
  cases h
  obtain ⟨h2, rfl⟩ := State.readySession_eq_ok hx
  exact ⟨h2, rfl⟩

theorem execLookup_eq_next {t : Nat} {cmd : Byte} {s u : State} (h : execLookup t cmd s = .next u) :
    (s.server t).srvInit = true ∧ u = s.setResult (.lookup (lookupHandler (s.server t).table cmd)) := by
  obtain ⟨v, hv, h⟩ := Res.bind_eq_ok (Res.toOutcome_eq_next h)
  cases h
  obtain ⟨h1, rfl⟩ := State.readyServer_eq_ok hv
  exact ⟨h1, rfl⟩

/-- REGISTER always answers, and changes nothing but a table and the result (R101). -/
theorem execRegister_cases (t : Nat) (cmd : Byte) (handler : Option Handler) (s : State) :
    ∃ u, execRegister t cmd handler s = .next u ∧
      ((∃ e, u = s.setResult (.register (.err e))) ∨
        ∃ h, handler = some h ∧ u = (s.setServer t { s.server t with
          table := (s.server t).table ++ [(cmd, h)] }).setResult (.register .ok)) := by
  cases hi : (s.server t).srvInit with
  | false => exact ⟨_, by simp only [execRegister, hi]; rfl, .inl ⟨_, rfl⟩⟩
  | true =>
    cases handler with
    | none => exact ⟨_, by simp only [execRegister, hi]; rfl, .inl ⟨_, rfl⟩⟩
    | some h => exact ⟨_, by simp only [execRegister, hi]; rfl, .inr ⟨h, rfl, by simp only [hi]⟩⟩

/-! ### The invariant through the named updates -/

/-- A session read by handle satisfies the invariant. -/
theorem State.Inv.session {s : State} (hi : s.Inv) (k : Nat) : Session.Inv s.cfg (s.session k) := by
  rcases Sparse.get_mem_or_default Session.blank s.sessions k with h | h
  · unfold State.session; rw [h]
    exact ⟨⟨.nil, by simp [Session.blank]⟩, by simp [Session.blank], ⟨.nil, by simp [Session.blank]⟩,
      by simp [Session.blank], .inl (by simp [Session.blank, Session.decInv]),
      by simpa [Session.blank] using hi.1.1, by simp [Session.blank]⟩
  · exact hi.2.2.2 _ h

theorem State.Inv.setSession {s : State} (hi : s.Inv) {k : Nat} {x : Session} (hx : Session.Inv s.cfg x) :
    (s.setSession k x).Inv := by
  refine ⟨hi.1, Sparse.wf_set hi.2.1, hi.2.2.1, fun e he => ?_⟩
  rcases Sparse.mem_set he with rfl | he
  · exact hx
  · exact hi.2.2.2 e he

theorem State.Inv.setServer {s : State} (hi : s.Inv) {k : Nat} {v : Server} : (s.setServer k v).Inv :=
  ⟨hi.1, hi.2.1, Sparse.wf_set hi.2.2.1, hi.2.2.2⟩

theorem State.Inv.setResult {s : State} (hi : s.Inv) {r : OpResult} : (s.setResult r).Inv := hi

theorem State.Inv.addSent {s : State} (hi : s.Inv) {k : Nat} {fs : List (List Byte)} : (s.addSent k fs).Inv := hi

theorem State.Inv.withPort {s : State} (hi : s.Inv) {p : List Command} : State.Inv { s with port := p } := hi

/-- A delivered chunk keeps the invariant. -/
theorem deliver_inv {t k : Nat} {input : List Byte} {cb : Callback} {s u : State} (hi : s.Inv)
    (h : deliver t k input cb s = .ok u) : u.Inv := by
  obtain ⟨-, hk, r, hr, rfl⟩ := deliver_eq_ok h
  exact ((hi.setSession (processInput_inv hi.1 (hi.session k) hk hr).1).addSent).setResult

/-- A delivered chunk raises no fault. -/
theorem deliver_no_fault {t k : Nat} {input : List Byte} {cb : Callback} {s : State} (hi : s.Inv) (f : Fault) :
    deliver t k input cb s ≠ .error (.fault f) := by
  intro h
  simp only [deliver] at h
  cases ht : s.readyServer t with
  | error e =>
    rw [ht] at h; cases h
    unfold State.readyServer at ht; split at ht <;> cases ht
  | ok v =>
    cases hk : s.readySession k with
    | error e =>
      rw [ht, hk] at h; cases h
      unfold State.readySession at hk; split at hk <;> cases hk
    | ok x =>
      obtain ⟨hk', rfl⟩ := State.readySession_eq_ok hk
      rw [ht, hk] at h
      simp only [Res.ok_bind] at h
      cases hp : processInput s.cfg v.table cb (s.session k) input with
      | error e =>
        rw [hp] at h; cases h
        exact processInput_no_fault hi.1 (hi.session k) hk' hp
      | ok r => rw [hp] at h; cases h

/-- A FEED form keeps the invariant. -/
theorem feedForm_inv {p : Phase} {k : Nat} {chunk : List Byte} {s t : State} (hi : s.Inv)
    (h : feedForm p k chunk s = .ok t) : t.Inv := by
  obtain ⟨-, -, hd, hc, r, y, hf, rfl⟩ := feedForm_eq_ok h
  obtain ⟨-, hc'⟩ := feed_eq_ok hf
  have ha := feedAnswer_inv chunk hi.1 (hi.session k) hd hc'
  rw [feed_eq chunk hi.1 hd hc', Except.ok.injEq] at hf
  rw [hf] at ha
  exact (hi.setSession ha).setResult

/-- A FEED form raises no fault. -/
theorem feedForm_no_fault {p : Phase} {k : Nat} {chunk : List Byte} {s : State} (hi : s.Inv) (f : Fault) :
    feedForm p k chunk s ≠ .error (.fault f) := by
  intro h
  simp only [feedForm] at h
  cases hk : s.readySession k with
  | error e =>
    rw [hk] at h; cases h
    unfold State.readySession at hk; split at hk <;> cases hk
  | ok x =>
    obtain ⟨-, rfl⟩ := State.readySession_eq_ok hk
    rw [hk] at h
    simp only [Res.ok_bind] at h
    cases hp : decide ((s.session k).decoder.phase = p) with
    | false => rw [hp] at h; cases h
    | true =>
      rw [hp] at h
      simp only [require_true, Res.ok_bind] at h
      by_cases hc : (s.session k).decoder.phase = .complete
      · simp only [feed, hc, if_true, feedComplete, Res.error_bind] at h; cases h
      · by_cases hd : (s.session k).decInv s.cfg = true
        · rw [feed_eq chunk hi.1 hd hc] at h; cases h
        · simp only [feed, hc, hd, if_false] at h; cases h

end Sys2Proof.Machine
end

