-- ==== Sys2Proof/Tests/Slice0.lean ====
section
/-!
SUPPORT. Tests of the model on the vectors of spec/95_test_vectors.md (each test names its vector), the smoke tests
of WellFormed, a word of every row decoded, and for each statement with hypotheses a state that meets them.
-/

namespace Sys2Proof.Tests

open Sys2Proof Sys2Proof.Machine

/-! ### Fixtures (section 1 of 95_test_vectors.md) -/

def failok : HandlerOutcome :=
  { ret := 0xFFFFFFFF, status := some .ok, errorCode := some 0, outputLen := some 2, written := [0xBE, 0xEF] }
def custerr : HandlerOutcome :=
  { ret := 0xFFFFFFFF, status := some .error, errorCode := some 0x20, outputLen := some 1, written := [0xEE] }
def echo2 : HandlerOutcome :=
  { ret := 0, status := some .ok, errorCode := some 0, outputLen := some 1, written := [0x99] }

/-- Table T0. -/
def t0 : List Binding :=
  [(0x01, .echo), (0x02, .fixed (.returned failok)), (0x03, .fixed (.returned custerr)),
    (0x01, .fixed (.returned echo2))]

/-- A session with a decoder state, `rx` and `tx` from offset 0. -/
def sess (p : Phase) (a e : Nat) (rx tx : List Byte) : Session :=
  { Session.blank with
    sessInit := true, decoder := { phase := p, accumulated := a, expected := e },
    rx := Memory.setBytes [] 0 rx, tx := Memory.setBytes [] 0 tx }

/-- The machine with table T0 and one session. -/
def withSession (x : Session) : State := (State.reset.setServer 0 { srvInit := true, table := t0 }).setSession 0 x

/-- A session whose record holds a command id and output, as ENCODE_RESPONSE and DISPATCH find it. -/
def withRequest (x : Session) (cmd : Byte) (n : Half) (st : Status) (err : Byte) (m : Half) : Session :=
  { x with req := { cmdId := cmd, payloadLen := n, status := st, errorCode := err, outputLen := m } }

def idle : State := withSession (sess .awaitMarker 0 0 [] [])

/-- A handler that reports an output length and writes some bytes. -/
def bigHandler (m : Nat) (w : List Byte) : Handler :=
  .fixed (.returned { ret := 0, status := none, errorCode := none, outputLen := some m, written := w })

/-- The machine with one binding of id 1 and a request for it in session 0. -/
def bound (h : Handler) : State :=
  (State.reset.setServer 0 { srvInit := true, table := [(1, h)] }).setSession 0
    (withRequest (sess .complete 6 0 [0xA5, 1, 0, 0, 0xE5, 0xC3] []) 1 0 .ok 0 0)

def link : Link := { server := 0, session := 0, callback := .conforming }

/-- What a test looks at: one value of the next state. -/
def nextIs {α : Type} [DecidableEq α] (o : Host.Outcome State Fault Refusal) (f : State → α) (v : α) : Bool :=
  match o with
  | .next s => decide (f s = v)
  | .fault _ => false
  | .refused _ => false

/-- A refusal, by name. -/
def refusedIs (o : Host.Outcome State Fault Refusal) (r : Refusal) : Bool :=
  match o with
  | .next _ => false
  | .fault _ => false
  | .refused q => decide (q = r)

/-- Result and decoder of session 0. -/
def seen (s : State) : OpResult × Decoder := (s.result, (s.session 0).decoder)

/-- The frames sent, and the decoder of session 0. -/
def sentAnd (s : State) : List (List Byte) × Decoder := (s.sent.map (·.frame), (s.session 0).decoder)

def reset : Decoder := { phase := .awaitMarker, accumulated := 0, expected := 0 }

/-! ### WellFormed refuses an ill-formed term for each check -/

theorem test_wf_lengthFits : lengthFits (List.replicate 65536 0) = false :=
  decide_eq_false (by rw [List.length_replicate]; omega)
theorem test_wf_req (l : Link) : (Instr.req l 1 (List.replicate 65536 0) 0).wellFormed = false :=
  test_wf_lengthFits
theorem test_wf_rspOk (l : Link) : (Instr.rspOk l 1 0 (List.replicate 65536 0) 0).wellFormed = false :=
  test_wf_lengthFits
theorem test_wf_rspErr (l : Link) : (Instr.rspErr l 1 0x20 (List.replicate 65536 0) 0).wellFormed = false := by
  simp only [Instr.wellFormed, test_wf_lengthFits, Bool.false_and]
theorem test_wf_rspErr_unknown : (Instr.rspErr link 1 1 [] 0).wellFormed = false := by decide
theorem test_wf_rspErr_internal : (Instr.rspErr link 1 4 [] 0).wellFormed = false := by decide
theorem test_wf_encodeRequest : (Instr.encodeRequest 1 (List.replicate 65536 0)).wellFormed = false :=
  test_wf_lengthFits

/-! ### A word of every row, written out from R50, R51, R60 and R62 -/

def word (f : Format) (w : List Byte) : Command := { fmt := f, word := w, args := Args.zero }

theorem test_decode_req : decode 0xA5 (word .req [0xA5, 0x7F, 0x00, 0x02, 0xDE, 0xAD, 0xE8, 0x49]) =
    .ok (.req link 0x7F [0xDE, 0xAD] 0xE849) := by decide
theorem test_decode_rspOk : decode 0xA5 (word .rsp [0xA5, 0x01, 0, 0, 0, 3, 0x11, 0x22, 0x33, 0xB9, 0x18]) =
    .ok (.rspOk link 0x01 0 [0x11, 0x22, 0x33] 0xB918) := by decide
theorem test_decode_rspErr : decode 0xA5 (word .rsp [0xA5, 0x03, 1, 0x20, 0, 1, 0xEE, 0x31, 0x48]) =
    .ok (.rspErr link 0x03 0x20 [0xEE] 0x3148) := by decide
theorem test_decode_rspErrUnknown : decode 0xA5 (word .rsp [0xA5, 0x7F, 1, 1, 0, 0, 0x95, 0xC2]) =
    .ok (.rspErrUnknown link 0x7F 0x95C2) := by decide
theorem test_decode_rspErrInternal : decode 0xA5 (word .rsp [0xA5, 0x02, 1, 4, 0, 0, 0x42, 0xCE]) =
    .ok (.rspErrInternal link 0x02 0x42CE) := by decide
theorem test_decode_crc16 : decode 0xA5 (word .op [0b0000]) = .ok (.crc16 (some [])) := by decide
theorem test_decode_sessionInit : decode 0xA5 (word .op [0b0001]) = .ok (.sessionInit 0) := by decide
theorem test_decode_decReset : decode 0xA5 (word .op [0b0010]) = .ok (.decReset 0) := by decide
theorem test_decode_feedAm : decode 0xA5 (word .op [0b0011000]) = .ok (.feedAm 0 []) := by decide
theorem test_decode_feedAlf : decode 0xA5 (word .op [0b0011001]) = .ok (.feedAlf 0 []) := by decide
theorem test_decode_feedAp : decode 0xA5 (word .op [0b0011010]) = .ok (.feedAp 0 []) := by decide
theorem test_decode_feedAc : decode 0xA5 (word .op [0b0011011]) = .ok (.feedAc 0 []) := by decide
theorem test_decode_feedCp : decode 0xA5 (word .op [0b0011100]) = .ok (.feedCp 0 []) := by decide
theorem test_decode_tableInit : decode 0xA5 (word .op [0b0100]) = .ok (.tableInit 0) := by decide
theorem test_decode_register : decode 0xA5 (word .op [0b0101]) =
    .ok (.register 0 0 (some (.external 0))) := by decide
theorem test_decode_lookup : decode 0xA5 (word .op [0b0110]) = .ok (.lookup 0 0) := by decide
theorem test_decode_dispatch : decode 0xA5 (word .op [0b0111]) = .ok (.dispatch 0 0) := by decide
theorem test_decode_encodeResponse : decode 0xA5 (word .op [0b1000]) = .ok (.encodeResponse 0) := by decide
theorem test_decode_encodeRequest : decode 0xA5 (word .op [0b1001]) = .ok (.encodeRequest 0 []) := by decide
theorem test_decode_process : decode 0xA5 (word .op [0b1010]) = .ok (.process 0 0 [] .conforming) := by decide
theorem test_decode_unassigned : decode 0xA5 (word .op [0b1011]) = .error (.unassignedSelect 0x0B) := by decide
theorem test_decode_phase5 : decode 0xA5 (word .op [0b0011101]) = .error (.undefinedPhase 0x1D) := by decide
theorem test_decode_notMarker : decode 0xA5 (word .req [0xA4, 1, 0, 0, 0xE5, 0xC3]) = .error (.notMarker 0xA4) := by
  decide
theorem test_decode_status2 : decode 0xA5 (word .rsp [0xA5, 1, 2, 0, 0, 0, 0, 0]) =
    .error (.undefinedStatus 2) := by decide

/-! ### The operations on the spec's vectors -/

/-- V-C6. -/
theorem test_crc16_check : crc16Fn Config.default [0x31, 0x32, 0x33, 0x34, 0x35, 0x36, 0x37, 0x38, 0x39] = 0x29B1 := by
  decide +kernel
/-- V-C1. -/
theorem test_crc16_empty : nextIs (exec (.crc16 (some [])) State.reset) id
    (State.reset.setResult (.checksum 0xFFFF)) := by decide
/-- R130: a second initialisation discards the frame in progress. -/
theorem test_sessionInit : nextIs (exec (.sessionInit 0) (withSession (sess .awaitPayload 5 2 [0xA5, 1, 0, 3, 0x11] [])))
    (fun s => s.session 0) (sess .awaitMarker 0 0 [] []) := by decide
/-- V-D24. -/
theorem test_decReset : nextIs (exec (.decReset 0) (withSession (sess .awaitChecksum 9 0 [0xA5, 1] [])))
    (fun s => s.session 0) (sess .awaitMarker 0 0 [0xA5, 1] []) := by decide
/-- V-D1. -/
theorem test_feedAm_marker : nextIs (exec (.feedAm 0 [0xA5, 0x01, 0, 0, 0xE5, 0xC3]) idle) seen
    (.feed (.ok 1), { phase := .awaitLengthField, accumulated := 1, expected := 3 }) := by decide
/-- V-D2. -/
theorem test_feedAm_noise : nextIs (exec (.feedAm 0 [0x5A, 0xA5, 0x01]) idle) seen
    (.feed (.err .badMarker), reset) := by decide
/-- V-D8: the largest length accepted. -/
theorem test_feedAlf_58 : nextIs (exec (.feedAlf 0 [0x01, 0, 0x3A]) (withSession (sess .awaitLengthField 1 3 [0xA5] [])))
    seen (.feed (.ok 3), { phase := .awaitPayload, accumulated := 4, expected := 58 }) := by decide
/-- V-D11: the failing call began at the last length byte. -/
theorem test_feedAlf_59 : nextIs (exec (.feedAlf 0 [0x3B, 0]) (withSession (sess .awaitLengthField 3 1 [0xA5, 1, 0] [])))
    seen (.feed (.err .frameTooLong), { phase := .awaitLengthField, accumulated := 4, expected := 59 }) := by decide
/-- V-D13. -/
theorem test_feedAp_done : nextIs (exec (.feedAp 0 [0x22, 0x33, 0x81, 0xFD])
    (withSession (sess .awaitPayload 5 2 [0xA5, 1, 0, 3, 0x11] []))) seen
    (.feed (.ok 2), { phase := .awaitChecksum, accumulated := 7, expected := 2 }) := by decide
/-- V-D14: an empty payload consumes nothing. -/
theorem test_feedAp_empty : nextIs (exec (.feedAp 0 [0xE5, 0xC3])
    (withSession (sess .awaitPayload 4 0 [0xA5, 1, 0, 0] []))) seen
    (.feed (.ok 0), { phase := .awaitChecksum, accumulated := 4, expected := 2 }) := by decide
/-- V-D17. -/
theorem test_feedAc_match : nextIs (exec (.feedAc 0 [0xFD, 0xA5])
    (withSession (sess .awaitChecksum 8 1 [0xA5, 1, 0, 3, 0x11, 0x22, 0x33, 0x81] []))) seen
    (.feed (.ok 1), { phase := .complete, accumulated := 9, expected := 0 }) := by decide +kernel
/-- V-D18. -/
theorem test_feedAc_mismatch : nextIs (exec (.feedAc 0 [0x81, 0xFC])
    (withSession (sess .awaitChecksum 7 2 [0xA5, 1, 0, 3, 0x11, 0x22, 0x33] []))) seen
    (.feed (.err .checksumError), { phase := .awaitChecksum, accumulated := 9, expected := 0 }) := by decide +kernel
/-- V-D19. -/
theorem test_feedCp : refusedIs (exec (.feedCp 0 [0x00])
    (withSession (sess .complete 9 0 [0xA5, 1, 0, 3, 0x11, 0x22, 0x33, 0x81, 0xFD] [])))
    .feedInComplete := by decide +kernel
/-- V-D25. -/
theorem test_feed_after_failure : refusedIs (exec (.feedAc 0 [0x00])
    (withSession (sess .awaitChecksum 9 0 [0xA5, 1, 0, 3, 0x11, 0x22, 0x33, 0x81, 0xFC] [])))
    .feedPrecondition := by decide
/-- R100. -/
theorem test_tableInit : nextIs (exec (.tableInit 0) idle) (fun s => s.server 0)
    { srvInit := true, table := [] } := by decide
/-- V-X7. -/
theorem test_register_null : nextIs (exec (.register 0 0x05 none) idle) id
    (idle.setResult (.register (.err .nullHandler))) := by decide
/-- V-X9: NotInitialised is tested first. -/
theorem test_register_uninitialised : nextIs (exec (.register 7 0x05 none) idle) (·.result)
    (.register (.err .notInitialised)) := by decide
/-- V-X1: the second binding of 0x01 is unreachable. -/
theorem test_lookup_first : nextIs (exec (.lookup 0 0x01) idle) (·.result) (.lookup (some .echo)) := by decide
/-- R102: NotFound. -/
theorem test_lookup_none : nextIs (exec (.lookup 0 0x7F) idle) (·.result) (.lookup none) := by decide
/-- V-X3: a negative return with status OK. -/
theorem test_dispatch_failok : nextIs (exec (.dispatch 0 0)
    (withSession (withRequest (sess .complete 7 0 [0xA5, 2, 0, 1, 0xAA, 0xD2, 0xC6] []) 0x02 1 .ok 0 0)))
    (fun s => ((s.session 0).req, Memory.getBytes (s.session 0).tx 6 2))
    ({ cmdId := 0x02, payloadLen := 1, status := .error, errorCode := 4, outputLen := 0 }, [0xBE, 0xEF]) := by decide
/-- V-X4: a negative return with status Error. -/
theorem test_dispatch_custerr : nextIs (exec (.dispatch 0 0)
    (withSession (withRequest (sess .complete 6 0 [0xA5, 3, 0, 0, 0x8B, 0xA3] []) 0x03 0 .ok 0 0)))
    (fun s => ((s.session 0).req, Memory.getBytes (s.session 0).tx 6 1))
    ({ cmdId := 0x03, payloadLen := 0, status := .error, errorCode := 0x20, outputLen := 1 }, [0xEE]) := by decide
/-- V-E8. -/
theorem test_encodeResponse : nextIs (exec (.encodeResponse 0)
    (withSession (withRequest (sess .complete 0 0 [] [0, 0, 0, 0, 0, 0, 0x11, 0x22, 0x33]) 0x01 3 .ok 0 3)))
    (fun s => (s.result, Memory.getBytes (s.session 0).tx 0 11))
    (.encodedLength 11, [0xA5, 0x01, 0, 0, 0, 3, 0x11, 0x22, 0x33, 0xB9, 0x18]) := by decide +kernel
/-- V-E11: the checksum overwrites what a handler left. -/
theorem test_encodeResponse_overwrites : nextIs (exec (.encodeResponse 0)
    (withSession (withRequest (sess .complete 0 0 [] [0, 0, 0, 0, 0, 0, 0xBE, 0xEF]) 0x02 1 .error 4 0)))
    (fun s => Memory.getBytes (s.session 0).tx 0 8) [0xA5, 0x02, 1, 4, 0, 0, 0x42, 0xCE] := by decide +kernel
/-- V-E2. -/
theorem test_encodeRequest : nextIs (exec (.encodeRequest 0x01 [0x11, 0x22, 0x33]) State.reset) (·.result)
    (.frame [0xA5, 0x01, 0, 3, 0x11, 0x22, 0x33, 0x81, 0xFD]) := by decide +kernel
/-- P4: two requests in one call. -/
theorem test_process_two : nextIs (exec (.process 0 0
    [0xA5, 2, 0, 1, 0xAA, 0xD2, 0xC6, 0xA5, 1, 0, 0, 0xE5, 0xC3] .conforming) idle) sentAnd
    ([[0xA5, 2, 1, 4, 0, 0, 0x42, 0xCE], [0xA5, 1, 0, 0, 0, 0, 0x06, 0x68]], reset) := by decide +kernel
/-- P5, its variant: the low length byte of the rejected header is the marker of the frame answered. -/
theorem test_process_rescan : nextIs (exec (.process 0 0
    [0xA5, 1, 0xFF, 0xA5, 1, 0, 0, 0xE5, 0xC3] .conforming) idle) sentAnd
    ([[0xA5, 1, 0, 0, 0, 0, 0x06, 0x68]], reset) := by decide +kernel
/-- P1. -/
theorem test_req : nextIs (exec (.req link 0x01 [0x11, 0x22, 0x33] 0x81FD) idle) sentAnd
    ([[0xA5, 1, 0, 0, 0, 3, 0x11, 0x22, 0x33, 0xB9, 0x18]], reset) := by decide +kernel
/-- V-D20: a payload bit flipped. -/
theorem test_req_corrupt : nextIs (exec (.req link 0x01 [0x10, 0x22, 0x33] 0x81FD) idle) sentAnd ([], reset) := by
  decide +kernel
/-- R57: a response read as a request with length 0 fails its checksum; the rest is noise. -/
theorem test_rspOk : nextIs (exec (.rspOk link 0x01 0 [] 0x0668) idle) sentAnd ([], reset) := by decide +kernel
/-- R57: length 0x0120 = 288 does not fit. -/
theorem test_rspErr : nextIs (exec (.rspErr link 0x03 0x20 [0xEE] 0x3148) idle) sentAnd ([], reset) := by
  decide +kernel
/-- R57: length 0x0101 = 257 does not fit. -/
theorem test_rspErrUnknown : nextIs (exec (.rspErrUnknown link 0x7F 0x95C2) idle) sentAnd ([], reset) := by
  decide +kernel
/-- R57: length 0x0104 = 260 does not fit. -/
theorem test_rspErrInternal : nextIs (exec (.rspErrInternal link 0x02 0x42CE) idle) sentAnd ([], reset) := by
  decide +kernel
/-- R60: select 0x3 runs the form of the phase register. -/
theorem test_step_feed : nextIs (step { withSession (sess .awaitPayload 5 2 [0xA5, 1, 0, 3, 0x11] []) with
    port := [opCommand 0x3 (feedArgs 0 [0x22])] }) seen
    (.feed (.ok 1), { phase := .awaitPayload, accumulated := 6, expected := 1 }) := by decide

/-! ### For each statement with hypotheses, a state and operands that meet them -/

theorem witness_DecodeEncodeRoundTrip :
    (Instr.req link 0xFF [] 0).wellFormed = true ∧ (Instr.rspErr link 1 1 [0] 0).wellFormed = true ∧
      (Instr.rspErr link 1 2 [] 0).wellFormed = true ∧ (Instr.process 3 4 [0] (.breaching .reentered)).wellFormed = true := by
  decide

theorem witness_DecodeEncodeRoundTrip_longest (n : Nat) (h : n = 65535) :
    (Instr.encodeRequest 1 (List.replicate n 0)).wellFormed = true :=
  decide_eq_true (by rw [List.length_replicate]; omega)

theorem witness_DecodedWordIsTheEncodedWord :
    decode 0xA5 (word .rsp [0xA5, 0x03, 1, 1, 0, 1, 0xEE, 0, 0]) = .ok (.rspErr link 0x03 1 [0xEE] 0) ∧
      decode 0xA5 (word .rsp [0xA5, 0x03, 1, 1, 0, 0, 0, 0]) = .ok (.rspErrUnknown link 0x03 0) := by decide

/-- The first and last value of each of the two ranges. -/
theorem witness_UnassignedSelectsRefused : ∀ b ∈ [(0x0B : Byte), 0x0F, 0x1D, 0x1F],
    (0xB ≤ b.toNat ∧ b.toNat ≤ 0xF ∨ 0x1D ≤ b.toNat ∧ b.toNat ≤ 0x1F) ∧
      (opCommand b Args.zero).fmt = .op ∧ (opCommand b Args.zero).word = [b] := by decide

theorem witness_StepRunsDecodedInstruction :
    let s := { idle with port := [opCommand 0x6 { Args.zero with cmd := 1 }] }
    s.port = [opCommand 0x6 { Args.zero with cmd := 1 }] ∧
      decode s.cfg.marker (s.completeSelect (opCommand 0x6 { Args.zero with cmd := 1 })) = .ok (.lookup 0 1) := by
  decide

theorem witness_EmptyPortHoldsState : State.reset.port = [] := rfl

/-- An operation, a FEED form and a frame of the opcode table. -/
theorem witness_PlacedWordRunsNext : State.reset.cfg.marker = Config.default.marker ∧
    decodeTableWord 4 0x6 = some (.lookup 0 0) ∧ decodeTableWord 7 0x1B = some (.feedAc 0 []) ∧
      decodeTableWord 48 0xA57F01010000 = some (.rspErrUnknown link 0x7F 0) := by decide

theorem witness_HandleWriteTouchesOneEntry : (1 : Nat) ≠ 0 := by decide

/-- The first and last byte of a range of two, and the offsets on either side of it. -/
theorem witness_BufferWriteTouchesOnlyItsRange :
    ([1, 2] : List Byte)[0]? = some 1 ∧ ([1, 2] : List Byte)[1]? = some 2 ∧ 4 < 5 ∧
      5 + ([1, 2] : List Byte).length ≤ 7 := by decide

theorem witness_OneByteChangeChangesChecksum :
    CrcParams.ccittFalse.poly.getLsbD 0 = true ∧ (0 : Byte) ≠ 1 := by decide

/-- Also of SESSION_INIT's counterpart: a session that is initialised and one that is not. -/
theorem witness_DecResetReturnsToMarker :
    (idle.session 0).sessInit = true ∧ (idle.session 7).sessInit = false := by decide

/-- What the FEED statements ask of the session of handle 0. -/
def atRestIn (x : Session) (p : Phase) : Prop :=
  let s := withSession x
  s.cfg.Valid ∧ (s.session 0).sessInit = true ∧ (s.session 0).decInv s.cfg = true ∧
    (s.session 0).decoder.phase = p

/-- The clauses of this statement are met by the chunks of test_feedAm_marker, test_feedAm_noise and by []. -/
theorem witness_FeedAwaitMarker : atRestIn (sess .awaitMarker 0 0 [] []) .awaitMarker := by
  unfold atRestIn; decide

/-- With the chunks of test_feedAlf_58 and test_feedAlf_59 (the header whole, its frame just fitting and just too
long) and with a chunk one byte short. -/
theorem witness_FeedAwaitLengthField : atRestIn (sess .awaitLengthField 1 3 [0xA5] []) .awaitLengthField ∧
    atRestIn (sess .awaitLengthField 3 1 [0xA5, 1, 0] []) .awaitLengthField ∧
      ([0, 0] : List Byte).length < 3 ∧ ¬ ([1, 0, 0x3A] : List Byte).length < 3 ∧
      4 + (be16 0 0x3A).toNat + 2 = Config.default.bRx ∧ Config.default.bRx < 4 + (be16 0 0x3B).toNat + 2 := by
  unfold atRestIn; decide

/-- An empty payload, and a payload with two bytes to come. -/
theorem witness_FeedAwaitPayload : atRestIn (sess .awaitPayload 4 0 [0xA5, 1, 0, 0] []) .awaitPayload ∧
    atRestIn (sess .awaitPayload 5 2 [0xA5, 1, 0, 3, 0x11] []) .awaitPayload ∧
      ([0] : List Byte).length < 2 ∧ ¬ ([0, 0] : List Byte).length < 2 := by
  unfold atRestIn; decide

/-- One and two checksum bytes to come; test_feedAc_match and test_feedAc_mismatch reach the last two clauses. -/
theorem witness_FeedAwaitChecksum :
    atRestIn (sess .awaitChecksum 8 1 [0xA5, 1, 0, 3, 0x11, 0x22, 0x33, 0x81] []) .awaitChecksum ∧
      atRestIn (sess .awaitChecksum 7 2 [0xA5, 1, 0, 3, 0x11, 0x22, 0x33] []) .awaitChecksum := by
  unfold atRestIn; decide

theorem witness_FeedCompleteRefused :
    atRestIn (sess .complete 6 0 [0xA5, 1, 0, 0, 0xE5, 0xC3] []) .complete := by
  unfold atRestIn; decide +kernel

/-- A form of another phase than the register's, FEED.CP and in Complete among them; a session after each of the two
failures, and one that is neither at rest nor just failed. -/
theorem witness_FeedOutsideRestRefused :
    (∀ e ∈ [(sess .awaitMarker 0 0 [] [], Phase.complete), (sess .complete 6 0 [] [], .awaitMarker),
        (sess .awaitPayload 4 4 [0xA5, 1, 0, 4] [], .awaitChecksum)],
      e.1.sessInit = true ∧ e.1.decoder.phase ≠ e.2) ∧
    (sess .awaitLengthField 4 59 [0xA5, 1, 0, 0x3B] []).afterFailure Config.default = true ∧
      (sess .awaitChecksum 6 0 [0xA5, 1, 0, 0, 0xE5, 0xC2] []).afterFailure Config.default = true ∧
      (sess .awaitMarker 1 0 [] []).decInv Config.default = false := by decide

theorem witness_EmptyChunkConsumesNothing : atRestIn (sess .awaitMarker 0 0 [] []) .awaitMarker ∧
    atRestIn (sess .awaitPayload 4 0 [0xA5, 1, 0, 0] []) .awaitPayload ∧
      atRestIn (sess .awaitPayload 4 1 [0xA5, 1, 0, 1] []) .awaitPayload := by
  unfold atRestIn; decide

/-- FEED answers a result on a session: what the statements about every FEED ask. -/
def answers (x : Session) (chunk : List Byte) (r : FeedResult) : Prop :=
  (feed Config.default x chunk).toOption.map (·.1) = some r

/-- Both clauses: nothing consumed, and a byte consumed. -/
theorem witness_FeedMakesProgress : Config.default.Valid ∧
    answers (sess .awaitPayload 4 0 [0xA5, 1, 0, 0] []) [0xE5] (.ok 0) ∧
      answers (sess .awaitMarker 0 0 [] []) [0xA5] (.ok 1) := by
  unfold answers; decide

theorem witness_FeedMovesAtMostOnePhase :
    answers (sess .awaitLengthField 1 3 [0xA5] []) [0, 0, 0, 0xA5] (.ok 3) := by
  unfold answers; decide

theorem witness_FeedLeavesDecoderAtRestOrFailed :
    answers (sess .awaitMarker 0 0 [] []) [0] (.err .badMarker) ∧
      answers (sess .awaitLengthField 1 3 [0xA5] []) [0, 0, 0x3B] (.err .frameTooLong) ∧
      answers (sess .awaitChecksum 4 2 [0xA5, 1, 0, 0] []) [0xE5, 0xC2] (.err .checksumError) ∧
      answers (sess .awaitChecksum 4 2 [0xA5, 1, 0, 0] []) [0xE5, 0xC3] (.ok 2) := by
  unfold answers; decide +kernel

/-- A decoder whose frame fills the receive buffer. -/
theorem witness_FeedStaysInsideReceiveBuffer :
    (sess .awaitPayload 4 58 [0xA5, 1, 0, 0x3A] []).decInv Config.default = true ∧
      (sess .awaitChecksum 63 1 [0xA5, 1, 0, 0x3A] []).decInv Config.default = true := by decide

theorem witness_HeaderAcceptedIffPayloadFits :
    (sess .awaitLengthField 1 3 [0xA5] []).decInv Config.default = true ∧
      nMax Config.default = (be16 0 0x3A).toNat ∧ nMax Config.default < (be16 0 0x3B).toNat := by decide

/-- A frame cut into single bytes with empty chunks between, and the longest payload. -/
theorem witness_FragmentationDoesNotMatter : Config.default.Valid ∧ Session.Idle (sess .awaitMarker 0 0 [] []) ∧
    ([0x11, 0x22, 0x33] : List Byte).length ≤ nMax Config.default ∧
      [[0xA5], [], [0x01, 0x00], [0x03, 0x11], [0x22, 0x33, 0x81], [], [0xFD]].flatten =
        requestFrame Config.default 0x01 [0x11, 0x22, 0x33] ∧
      (List.replicate 58 (0 : Byte)).length ≤ nMax Config.default := by decide +kernel

theorem witness_RegisterAppendsBinding : (idle.server 0).srvInit = true ∧ (idle.server 7).srvInit = false := by
  decide

theorem witness_LookupReturnsFirstMatch : (idle.server 0).srvInit = true ∧
    (∀ b ∈ (idle.server 0).table, b.1 ≠ 0x7F) ∧
      (idle.server 0).table = [] ++ (0x01, .echo) :: (idle.server 0).table.drop 1 ∧
      (idle.server 0).table = (idle.server 0).table.take 1 ++ (0x02, .fixed (.returned failok)) ::
        (idle.server 0).table.drop 2 ∧ (∀ b ∈ (idle.server 0).table.take 1, b.1 ≠ 0x02) := by decide

theorem witness_DuplicateRegistrationIsShadowed : (idle.server 0).srvInit = true ∧
    lookupHandler (idle.server 0).table 0x01 = some .echo := by decide

theorem witness_RegisteredBindingIsVisible : (idle.server 0).srvInit = true ∧
    ∀ b ∈ (idle.server 0).table, b.1 ≠ 0x05 := by decide

/-- An id with no binding; FAILOK at the capacity of its output: an outcome that is downgraded. -/
theorem witness_DispatchNormalisesOutcome :
    (let s := withSession (withRequest (sess .complete 6 0 [] []) 0x7F 0 .ok 0 0);
      (s.server 0).srvInit = true ∧ (s.session 0).sessInit = true ∧
        ∀ b ∈ (s.server 0).table, b.1 ≠ (s.session 0).req.cmdId) ∧
    (let s := withSession (withRequest (sess .complete 64 0 [] []) 0x02 58 .ok 0 0);
      s.cfg.Valid ∧ 4 + (s.session 0).req.payloadLen.toNat ≤ s.cfg.bRx ∧
        lookupHandler (s.server 0).table (s.session 0).req.cmdId = some (.fixed (.returned failok)) ∧
        failok.written.length ≤ s.cfg.bTx - 8 ∧ failok.outputLen.getD 0 ≤ s.cfg.bTx - 8 ∧
        (BitVec.ofNat s.cfg.retW failok.ret).msb = true ∧ failok.status.getD .ok = .ok) := by decide

/-- The machine of `bound` with a transmit buffer larger than a length field can describe: OUT_CAP = 65542. -/
def boundLarge (h : Handler) : State := { bound h with cfg := { Config.default with bTx := 65550 } }

/-- R104: 65535 is the longest report whose value the field holds; one of 65542 = OUT_CAP is within the contract and
DISPATCH goes on; one of 65543 is refused. -/
theorem witness_DispatchNormalisesOutcome_longReport :
    nextIs (exec (.dispatch 0 0) (boundLarge (bigHandler 65535 []))) (fun s => (s.session 0).req.outputLen) 65535 ∧
    nextIs (exec (.dispatch 0 0) (boundLarge (bigHandler 65542 []))) (fun s => (s.session 0).req.status) .ok ∧
      refusedIs (exec (.dispatch 0 0) (boundLarge (bigHandler 65543 []))) .handlerOutputTooLong := by decide

/-- The request `A5 02 00 01 AA D2 C6` as earlier calls may have left it, a session in each of the three phases, with
the bytes that are missing. -/
def fragments : List (Session × List Byte) :=
  [(sess .awaitLengthField 2 2 [0xA5, 2] [], [0, 1, 0xAA, 0xD2, 0xC6]),
    (sess .awaitPayload 4 1 [0xA5, 2, 0, 1] [], [0xAA, 0xD2, 0xC6]),
    (sess .awaitChecksum 6 1 [0xA5, 2, 0, 1, 0xAA, 0xD2] [], [0xC6])]

theorem fragments_await : ∀ e ∈ fragments,
    Session.Awaits Config.default e.1 (requestFrame Config.default 0x02 [0xAA]) e.2 := by decide +kernel

/-- The last of them, in session 0. -/
def almost : State := withSession (sess .awaitChecksum 6 1 [0xA5, 2, 0, 1, 0xAA, 0xD2] [])

/-- For every statement on a request's last bytes: its REQ, and a PROCESS on what is missing; for those on a refused
call, also what is missing with a second request behind it. -/
theorem brings (cb : Callback) :
    (BringsRequest idle 0 0 0x02 [0xAA] cb (.req { link with callback := cb } 0x02 [0xAA]
      (crc16Fn idle.cfg (requestHead idle.cfg 0x02 [0xAA])))) ∧
    BringsRequest almost 0 0 0x02 [0xAA] cb (.process 0 0 [0xC6] cb) ∧
    ReachesRequest almost 0 0 0x02 [0xAA] cb (.process 0 0 [0xC6, 0xA5, 1, 0, 0, 0xE5, 0xC3] cb) :=
  ⟨.inl ⟨by decide, rfl⟩, .inr ⟨[0xC6], by decide +kernel, rfl⟩,
    .inr ⟨[0xC6], [0xA5, 1, 0, 0, 0xE5, 0xC3], by decide +kernel, rfl⟩⟩

/-- One byte more than the capacity written, one more reported, and a breach. -/
theorem witness_HandlerViolationRefused :
    (∀ h ∈ [bigHandler 0 (List.replicate 57 0), bigHandler 57 [], .fixed (.breached .didNotReturn)],
      let s := (almost.setServer 0 { srvInit := true, table := [(2, h)] })
      s.cfg.Valid ∧ (s.server 0).srvInit = true ∧ ([0xAA] : List Byte).length ≤ nMax s.cfg ∧
        Session.Awaits s.cfg (s.session 0) (requestFrame s.cfg 0x02 [0xAA]) [0xC6] ∧
        lookupHandler (s.server 0).table 0x02 = some h) ∧
    (∀ h ∈ [bigHandler 0 (List.replicate 57 0), bigHandler 57 [], .fixed (.breached .didNotReturn)],
      (bound h).cfg.Valid ∧ ((bound h).server 0).srvInit = true ∧ ((bound h).session 0).sessInit = true ∧
        4 + ((bound h).session 0).req.payloadLen.toNat ≤ (bound h).cfg.bRx ∧
        lookupHandler ((bound h).server 0).table ((bound h).session 0).req.cmdId = some h) ∧
      Config.default.bTx - 8 < (List.replicate 57 (0 : Byte)).length ∧
      Config.default.bTx - 8 < 57 := by decide +kernel

/-- The longest response. -/
theorem witness_EncodeResponseBuildsFrame :
    let s := withSession (withRequest (sess .complete 6 0 [] []) 1 0 .ok 0 56)
    s.cfg.Valid ∧ (s.session 0).sessInit = true ∧ (s.session 0).req.outputLen.toNat = s.cfg.bTx - 8 := by decide

theorem witness_EncodeResponseTooLongRefused :
    let s := withSession (withRequest (sess .complete 6 0 [] []) 1 0 .ok 0 57)
    (s.session 0).sessInit = true ∧ (s.session 0).req.outputLen.toNat = s.cfg.bTx - 8 + 1 := by decide

theorem witness_EncodeRequestBuildsFrame : (List.replicate 65535 (0 : Byte)).length ≤ 65535 ∧
    65535 < (List.replicate 65536 (0 : Byte)).length := by
  rw [List.length_replicate, List.length_replicate]; omega

/-- Every handler of T0 meets its obligations. -/
theorem t0_conforming : TableConforming Config.default t0 := by
  intro b hb
  simp only [t0, List.mem_cons, List.not_mem_nil, or_false] at hb
  obtain rfl | rfl | rfl | rfl := hb
  · exact Handler.conforming_echo _
  · exact Handler.conforming_fixed (by decide) (by decide)
  · exact Handler.conforming_fixed (by decide) (by decide)
  · exact Handler.conforming_fixed (by decide) (by decide)

/-- Ready, for ProcessConsumesItsInput and ArrivingFramesComplete: idle, and with a frame in progress. -/
theorem witness_ProcessConsumesItsInput : idle.Ready 0 0 ∧
    (withSession (sess .awaitPayload 4 4 [0xA5, 1, 0, 4] [])).Ready 0 0 :=
  ⟨⟨by decide, by decide, t0_conforming, by decide⟩, ⟨by decide, by decide, t0_conforming, by decide⟩⟩

theorem witness_ProcessEmptyInputChangesNothing : (idle.server 0).srvInit = true ∧
    Session.Feedable idle.cfg (idle.session 0) := by decide

/-- Four hypotheses that several statements on PROCESS share, met together by the idle machine with T0. -/
theorem idle_meets : idle.cfg.Valid ∧ (idle.server 0).srvInit = true ∧
    TableConforming idle.cfg (idle.server 0).table ∧ Session.Idle (idle.session 0) :=
  ⟨by decide, by decide, t0_conforming, by decide⟩

/-- The second byte of the noise for the clause on one turn. -/
theorem witness_NoiseIsDroppedByteByByte : ([1, 2, 3, 4, 5] : List Byte)[1]? = some 2 ∧ idle.cfg.Valid ∧ (idle.server 0).srvInit = true ∧
    Session.Idle (idle.session 0) ∧ ∀ b ∈ ([1, 2, 3, 4, 5] : List Byte), b ≠ idle.cfg.marker := by decide

/-- FAILOK: also a negative return with status OK, for InternalFailureIsAnswered. With `brings`. -/
theorem witness_ValidRequestIsAnswered : almost.cfg.Valid ∧ (almost.server 0).srvInit = true ∧
    ([0xAA] : List Byte).length ≤ nMax almost.cfg ∧
      lookupHandler (almost.server 0).table 0x02 = some (.fixed (.returned failok)) ∧
      acceptOutcome (outCap almost.cfg) (runHandler (.fixed (.returned failok)) 0x02 [0xAA] (outCap almost.cfg)) =
        .ok failok :=
  ⟨by decide, by decide, by decide, by decide, rfl⟩

theorem witness_InternalFailureIsAnswered : retNegative almost.cfg failok.ret = true ∧ failok.status ≠ some .error ∧
    nextIs (exec (.process 0 0 [0xC6] .conforming) almost) sentAnd ([[0xA5, 2, 1, 4, 0, 0, 0x42, 0xCE]], reset) = true :=
  ⟨by decide, by decide, by decide +kernel⟩

/-- An id with no binding, its request whole and all but its last byte there. -/
theorem witness_UnknownCommandIsAnswered : (∀ b ∈ (idle.server 0).table, b.1 ≠ 0x7F) ∧
    (let s := withSession (sess .awaitChecksum 7 1 [0xA5, 0x7F, 0, 2, 0xDE, 0xAD, 0xE8] [])
     s.cfg.Valid ∧ (s.server 0).srvInit = true ∧ ([0xDE, 0xAD] : List Byte).length ≤ nMax s.cfg ∧
       Session.Awaits s.cfg (s.session 0) (requestFrame s.cfg 0x7F [0xDE, 0xAD]) [0x49] ∧
       ∀ b ∈ (s.server 0).table, b.1 ≠ 0x7F) := by decide +kernel

theorem witness_BackToBackRequestsInOrder : Config.default.Valid ∧ ([0xAA] : List Byte).length ≤ nMax Config.default ∧
    ∀ e ∈ (sess .awaitMarker 0 0 [] [], [0xA5, 2, 0, 1, 0xAA, 0xD2, 0xC6]) :: fragments,
      Session.Awaits Config.default e.1 (requestFrame Config.default 0x02 [0xAA]) e.2 ∧
        (processInput Config.default t0 .conforming e.1 e.2).toOption.isSome = true := by decide +kernel

/-- A whole header; a header split after its marker, and before its last byte. -/
theorem witness_OversizeHeaderIsGivenUp : Config.default.Valid ∧
    Session.Idle (sess .awaitMarker 0 0 [] []) ∧ Config.default.bRx < 6 + (be16 0 0x3B).toNat ∧
      Config.default.bRx < 6 + (be16 0xFF 0xFF).toNat ∧
      (let x := sess .awaitLengthField 1 3 [0xA5] []
       let rx := Memory.setBytes x.rx 1 [1, 0, 0x3B]
       Session.Feedable Config.default x ∧ x.decoder.expected = ([1, 0, 0x3B] : List Byte).length ∧
         Config.default.bRx < 6 + (be16 (Memory.get rx 2) (Memory.get rx 3)).toNat) ∧
      (let x := sess .awaitLengthField 3 1 [0xA5, 1, 0] []
       let rx := Memory.setBytes x.rx 3 [0x3B]
       Session.Feedable Config.default x ∧ x.decoder.expected = ([0x3B] : List Byte).length ∧
         Config.default.bRx < 6 + (be16 (Memory.get rx 2) (Memory.get rx 3)).toNat) := by decide

/-- A session that holds a first part of a frame with a wrong checksum, none, some or all but a byte, with the frame's
id, payload and checksum and the bytes that are missing: call 2 of program P6, and call 2 of program P7 last. -/
def badFragments : List (Session × Byte × List Byte × Half × List Byte) :=
  [(sess .awaitMarker 0 0 [] [], 1, [0x11, 0x22, 0x33], 0x81FC, [0xA5, 1, 0, 3, 0x11, 0x22, 0x33, 0x81, 0xFC]),
    (sess .awaitLengthField 2 2 [0xA5, 1] [], 1, [], 0xE5C2, [0, 0, 0xE5, 0xC2]),
    (sess .awaitPayload 4 4 [0xA5, 1, 0, 4] [], 1, [0xA5, 1, 0, 0], 0xE5C3, [0xA5, 1, 0, 0, 0xE5, 0xC3]),
    (sess .awaitChecksum 4 2 [0xA5, 1, 0, 0] [], 1, [], 0xE5C2, [0xE5, 0xC2]),
    (sess .awaitChecksum 5 1 [0xA5, 1, 0, 0, 0xE5] [], 1, [], 0xE5C2, [0xC2])]

theorem witness_BadChecksumIsGivenUp : Config.default.Valid ∧ ∀ e ∈ badFragments,
    e.2.2.1.length ≤ nMax Config.default ∧
      e.2.2.2.1 ≠ crc16Fn Config.default (requestHead Config.default e.2.1 e.2.2.1) ∧
      Session.Awaits Config.default e.1 (reqImage Config.default.marker e.2.1 e.2.2.1 e.2.2.2.1) e.2.2.2.2 := by
  decide +kernel

/-- For the last clauses: a session after a failed FEED, and one that is neither at rest nor just failed. -/
theorem witness_ProcessIllegalEntryRefused :
    (idle.server 7).srvInit = false ∧ ((idle.server 0).srvInit = true ∧ (idle.session 7).sessInit = false) ∧
      (sess .complete 6 0 [] []).sessInit = true ∧ (sess .complete 6 0 [] []).decoder.phase = .complete ∧
      (∀ x ∈ [sess .awaitLengthField 4 59 [0xA5, 1, 0, 0x3B] [], sess .awaitMarker 1 0 [] []],
        x.sessInit = true ∧ x.decoder.phase ≠ .complete ∧ x.decInv Config.default = false) ∧
      (sess .awaitLengthField 4 59 [0xA5, 1, 0, 0x3B] []).afterFailure Config.default = true := by decide

/-- With `idle_meets`, `brings` and t0_conforming. -/
theorem witness_CallbackBreachRefused : ([0xAA] : List Byte).length ≤ nMax idle.cfg ∧ almost.cfg.Valid ∧
    (almost.server 0).srvInit = true ∧ (almost.server 0).table = t0 := by decide

theorem witness_ArrivingFramesComplete : idle.Ready link.server link.session ∧
    arrivalLink (.rspErr link 3 0x20 [0xEE] 0x3148) = some link ∧ link.callback = .conforming :=
  ⟨⟨by decide, by decide, t0_conforming, by decide⟩, by decide, by decide⟩

/-- A session, a frame's payload and checksum, what of it comes now and what comes later: call 1 of program P6; its
payload and all but the last checksum byte; a header with nothing declared; nothing; one byte of a header that, whole,
will not fit. -/
def inProgress : List (Session × List Byte × Half × List Byte × List Byte) :=
  [(sess .awaitMarker 0 0 [] [], [0xA5, 1, 0, 0], 0xE5C3, [0xA5, 1, 0, 4], [0xA5, 1, 0, 0, 0xE5, 0xC3]),
    (sess .awaitPayload 4 4 [0xA5, 1, 0, 4] [], [0xA5, 1, 0, 0], 0xE5C3, [0xA5, 1, 0, 0, 0xE5], [0xC3]),
    (sess .awaitLengthField 2 2 [0xA5, 1] [], [], 0xE5C3, [0, 0], [0xE5, 0xC3]),
    (sess .awaitChecksum 4 2 [0xA5, 1, 0, 0] [], [], 0xE5C3, [], [0xE5, 0xC3]),
    (sess .awaitLengthField 2 2 [0xA5, 1] [], List.replicate 256 0, 0, [1], 0 :: (List.replicate 256 0 ++ [0, 0]))]

theorem witness_FrameInProgressIsKept : ∀ e ∈ inProgress,
    let s := withSession e.1
    s.cfg.Valid ∧ (s.server 0).srvInit = true ∧ e.2.2.2.2 ≠ [] ∧
      Session.Awaits s.cfg (s.session 0) (reqImage s.cfg.marker 1 e.2.1 e.2.2.1) (e.2.2.2.1 ++ e.2.2.2.2) ∧
      (e.2.1.length ≤ nMax s.cfg ∨
        e.2.1.length ≤ 65535 ∧ (s.session 0).decoder.accumulated + e.2.2.2.1.length < 4) := by decide +kernel

/-- State.reset satisfies the invariant, and so does a state with a frame in progress and one after a failure. -/
theorem witness_StepKeepsInvariant :
    (withSession (sess .awaitPayload 5 2 [0xA5, 1, 0, 3, 0x11] [])).Inv ∧
      (withSession (sess .awaitChecksum 6 0 [0xA5, 1, 0, 0, 0xE5, 0xC2] [])).Inv ∧
      nextIs (step idle) id idle := by decide

theorem witness_StepNeverFaults : idle.Inv ∧
    (withSession (sess .awaitLengthField 4 59 [0xA5, 1, 0, 0x3B] [])).Inv := by decide

theorem witness_ParametersNeverChange : ∃ t, exec (.decReset 0) idle = .next t := ⟨_, rfl⟩

theorem witness_OtherSessionsUntouched : (∃ t, exec (.decReset 0) idle = .next t) ∧
    sessionTarget (.decReset 0) ≠ some 1 := ⟨⟨_, rfl⟩, by decide⟩

/-- A DISPATCH, an ENCODE_RESPONSE, a FEED, and a PROCESS that sends nothing; an answer to a completed request. -/
theorem witness_BufferOwnership : idle.cfg.Valid ∧ (∃ t, exec (.dispatch 0 0) idle = .next t) ∧
    nextIs (exec (.encodeResponse 0) idle) (fun s => (s.session 0).sessInit) true ∧
    (∃ t, exec (.feedAm 0 [0xA5]) idle = .next t) ∧
    nextIs (exec (.process 0 0 [0xA5, 0x01] .conforming) idle) (·.sent) idle.sent ∧
    (answerRequest idle.cfg t0 .conforming (Run.start (sess .complete 6 0 [0xA5, 1, 0, 0, 0xE5, 0xC3] []))).isOk = true :=
  ⟨by decide, ⟨_, rfl⟩, by decide +kernel, ⟨_, rfl⟩, by decide, by decide +kernel⟩

theorem witness_TablesOnlyGrow : (∃ t, exec (.register 0 5 (some .echo)) idle = .next t) ∧
    ∀ n, Instr.register 0 5 (some .echo) ≠ .tableInit n := ⟨⟨_, rfl⟩, fun _ h => by cases h⟩

theorem witness_UninitialisedSessionRefused : (idle.session 7).sessInit = false ∧ (idle.server 0).srvInit = true := by
  decide

theorem witness_UninitialisedServerRefused : (idle.server 7).srvInit = false := by decide

end Sys2Proof.Tests
end

/-! ### The command port: how a select code reaches the instruction it runs (R60) -/

namespace Sys2Proof.Machine

/-- The oldest transaction, completed and decoded, is executed with the port popped. -/
theorem step_of_decode {s : State} {c : Command} {rest : List Command} {i : Instr}
    (hp : s.port = c :: rest) (hd : decode s.cfg.marker (s.completeSelect c) = .ok i) :
    step s = exec i { s with port := rest } := by
  simp only [step, hp, hd]

/-- Only FEED's select takes bits from the phase register. -/
theorem State.completeSelect_opCommand (s : State) {code : Byte} (a : Args) (h : code ≠ 0x3) :
    s.completeSelect (opCommand code a) = opCommand code a := by
  have hw : [code] ≠ [(0x3 : Byte)] := fun e => h (List.singleton_injective e)
  exact if_neg hw

/-- A select code other than FEED's runs the instruction it decodes to. -/
theorem selectRuns_of_decodeOp (s : State) {code : Byte} {a : Args} {i : Instr} (h : code ≠ 0x3)
    (hd : decodeOp a [code] = .ok i) : SelectRuns s code a i := by
  intro rest
  refine step_of_decode rfl ?_
  rw [State.completeSelect_opCommand _ a h]
  exact hd

/-! ### CRC16 (R70) -/

/-- A defined input, the empty one included, is answered with its checksum as the only field written. -/
theorem exec_crc16_some (bytes : List Byte) (s : State) :
    exec (.crc16 (some bytes)) s = .next (s.setResult (.checksum (crc16Fn s.cfg bytes))) := rfl

/-- An undefined input is refused in every state. -/
theorem exec_crc16_none (s : State) : exec (.crc16 none) s = .refused .inputUndefined := rfl

/-- Settles O10: select 0x0 decodes to CRC16 whatever its byte operand, and the two arms of CRC16 are its
answer and its refusal. -/
theorem crc16ReturnsChecksum : Obligations.Crc16ReturnsChecksum := by
  intro s
  refine ⟨fun bytes => ?_, fun bytes => ?_, exec_crc16_none s⟩
  · exact selectRuns_of_decodeOp s (by decide) rfl
  · exact exec_crc16_some bytes s

end Sys2Proof.Machine

/-! ### The decoder's operations as instructions: DEC_RESET and FEED, phase by phase (R60, R81 to R91) -/

namespace Sys2Proof.Machine

/-- FEED's select is completed with the phase register and runs the form of that phase (R60). -/
theorem selectRuns_feed {s : State} {k : Nat} {p : Phase} (chunk : List Byte)
    (hp : (s.session k).decoder.phase = p) :
    SelectRuns s 0x3 (feedArgs k chunk) (Phase.feedInstr p k chunk) := by
  intro rest
  refine step_of_decode rfl ?_
  have hc : State.completeSelect { s with port := opCommand 0x3 (feedArgs k chunk) :: rest }
      (opCommand 0x3 (feedArgs k chunk)) = opCommand (Phase.feedSelect p) (feedArgs k chunk) := hp ▸ rfl
  rw [hc]
  cases p <;> rfl

/-- DEC_RESET on an initialised session (R81). -/
theorem exec_decReset_ready {s : State} {k : Nat} (hi : (s.session k).sessInit = true) :
    exec (.decReset k) s = .next ((s.setSession k (s.session k).decReset).setResult .none) := by
  simp only [exec, execDecReset, State.readySession_ok s k hi, Res.ok_bind, Res.toOutcome_ok]

/-- DEC_RESET on a session SESSION_INIT has not run on (R169, D23). -/
theorem exec_decReset_refused {s : State} {k : Nat} (hi : (s.session k).sessInit = false) :
    exec (.decReset k) s = .refused .sessionNotInitialised := by
  simp only [exec, execDecReset, State.readySession_refuse s k hi, Res.error_bind, Res.toOutcome_refuse]

/-- Settles O12: select 0x2 decodes to DEC_RESET, whose three assignments are `Session.decReset` whatever the
phase. -/
theorem decResetReturnsToMarker : Obligations.DecResetReturnsToMarker := by
  intro s k
  refine ⟨?_, exec_decReset_ready, exec_decReset_refused⟩
  exact selectRuns_of_decodeOp s (by decide) rfl

/-- FEED.CP on an initialised session passes its phase test and is refused (R90). -/
theorem feedForm_complete {s : State} {k : Nat} (chunk : List Byte) (hi : (s.session k).sessInit = true)
    (hp : (s.session k).decoder.phase = .complete) :
    feedForm .complete k chunk s = .error (.refuse .feedInComplete) := by
  simp only [feedForm, State.readySession_ok s k hi, Res.ok_bind, hp, decide_true, require_true, feed, if_true,
    feedComplete, Res.error_bind]

/-- Settles O17: in Complete the phase register selects FEED.CP, and FEED.CP has no behaviour. -/
theorem feedCompleteRefused : Obligations.FeedCompleteRefused := by
  intro s k chunk hi hp
  refine ⟨selectRuns_feed chunk hp, ?_⟩
  exact congrArg Res.toOutcome (feedForm_complete chunk hi hp)

/-! ### What the copying phases store, written out field by field (R82) -/

section
variable {c : Config} {x : Session} {p : Phase} {chunk : List Byte}

/-- A chunk shorter than what is expected is stored whole, and the phase stays. -/
theorem feedAnswer_short_eq (hp : x.decoder.phase = p) (hm : p ≠ .awaitMarker) (hc : p ≠ .complete)
    (h : chunk.length < x.decoder.expected) :
    feedAnswer c x chunk = (.ok chunk.length, { x with
      rx := Memory.setBytes x.rx x.decoder.accumulated (chunk.take x.decoder.expected)
      decoder := { phase := p, accumulated := x.decoder.accumulated + chunk.length,
                   expected := x.decoder.expected - chunk.length } }) := by
  subst hp
  rw [feedAnswer_short hm hc h, List.take_of_length_le (Nat.le_of_lt h)]
  rfl

/-- Where the chunk holds all that is expected, COPY leaves nothing expected. -/
theorem Session.afterCopy_expected_eq (hp : x.decoder.phase = p) (h : x.decoder.expected ≤ chunk.length) :
    x.afterCopy (chunk.take x.decoder.expected) = { x with
      rx := Memory.setBytes x.rx x.decoder.accumulated (chunk.take x.decoder.expected)
      decoder := { phase := p, accumulated := x.decoder.accumulated + x.decoder.expected, expected := 0 } } := by
  subst hp
  simp only [Session.afterCopy, List.length_take, Nat.min_eq_left h, Nat.sub_self]

/-- A declared length has 16 bits, so that its frame fits `rx` exactly when it is at most `N_MAX` (R5, R87). -/
theorem Session.declaredLen_fits_iff (hv : c.Valid) (y : Session) :
    4 + y.declaredLen + 2 ≤ c.bRx ↔ y.declaredLen ≤ nMax c := by
  have hrx := hv.1
  have hn : y.declaredLen ≤ 65535 := be16_toNat_le _ _
  unfold nMax
  omega

/-- At rest in AwaitMarker no frame is in progress (R22). -/
theorem Session.idle_of_awaitMarker (hi : x.sessInit = true) (hd : x.decInv c = true)
    (hp : x.decoder.phase = .awaitMarker) : Session.Idle x := by
  obtain ⟨ha, he⟩ := (Session.decInv_awaitMarker hp).1 hd
  exact ⟨hi, congr (congrArg₂ Decoder.mk hp ha) he⟩

/-- At rest inside a frame some byte is expected, but where an empty payload is declared (R22). -/
theorem Session.expected_pos (hd : x.decInv c = true) (hm : x.decoder.phase ≠ .awaitMarker)
    (hc : x.decoder.phase ≠ .complete) (h : ¬ (x.decoder.phase = .awaitPayload ∧ x.decoder.expected = 0)) :
    0 < x.decoder.expected := by
  cases hp : x.decoder.phase with
  | awaitMarker => exact absurd hp hm
  | complete => exact absurd hp hc
  | awaitLengthField => have := (Session.decInv_awaitLengthField hp).1 hd; omega
  | awaitPayload => exact Nat.pos_of_ne_zero fun h0 => h ⟨hp, h0⟩
  | awaitChecksum => have := (Session.decInv_awaitChecksum hp).1 hd; omega

/-- An empty chunk changes nothing before a frame, and nothing where bytes of a frame are expected (R85, R91). -/
theorem feedAnswer_empty (hc : x.decoder.phase ≠ .complete)
    (h : x.decoder.phase ≠ .awaitMarker → 0 < x.decoder.expected) : feedAnswer c x [] = (.ok 0, x) := by
  by_cases hm : x.decoder.phase = .awaitMarker
  · simp only [feedAnswer, hm]
  · exact feedAnswer_short hm hc (h hm)

end

/-! ### FEED in each phase -/

/-- Settles O13: the three cases of the chunk, none of which reads more than its first byte. -/
theorem feedAwaitMarker : Obligations.FeedAwaitMarker := by
  intro s k chunk hv hi hd hp
  refine ⟨selectRuns_feed chunk hp, ?_⟩
  have hnext {r y} := exec_feedInstr_next (p := .awaitMarker) (chunk := chunk) (r := r) (y := y)
    hv hi hp hd (by decide)
  have hidle := Session.idle_of_awaitMarker hi hd hp
  cases chunk with
  | nil => exact hnext (feedAnswer_empty (by simp [hp]) (absurd hp))
  | cons b bs =>
    by_cases hb : b = s.cfg.marker
    · subst hb
      exact (hnext (feedAnswer_marker hidle bs)).trans (if_pos rfl).symm
    · exact (hnext (feedAnswer_noise hidle hb bs)).trans (if_neg hb).symm

/-- Settles O14: a chunk too short for the header, a header that does not fit, and one that fits. -/
theorem feedAwaitLengthField : Obligations.FeedAwaitLengthField := by
  intro s k chunk hv hi hd hp x a e rx n
  refine ⟨selectRuns_feed chunk hp, ?_⟩
  have hnext {r y} := exec_feedInstr_next (p := .awaitLengthField) (chunk := chunk) (r := r) (y := y)
    hv hi hp hd (by decide)
  obtain ⟨-, -, -, h4⟩ := (Session.decInv_awaitLengthField hp).1 hd
  by_cases hs : chunk.length < e
  · rw [if_pos hs]
    exact hnext (feedAnswer_short_eq hp (by decide) (by decide) hs)
  · have hle : e ≤ chunk.length := Nat.le_of_not_lt hs
    rw [if_neg hs]
    by_cases hn : s.cfg.bRx < 4 + n + 2
    · rw [if_pos hn]
      refine hnext ((feedAnswer_rejects hp hle hn).trans ?_)
      rw [Session.afterCopy_expected_eq hp hle, h4]; rfl
    · rw [if_neg hn]
      refine hnext ((feedAnswer_accepts hp hle (Nat.le_of_not_lt hn)).trans ?_)
      rw [Session.afterCopy_expected_eq hp hle, h4]; rfl

/-- Settles O15: a chunk too short for the payload, and one that completes it, an empty payload included. -/
theorem feedAwaitPayload : Obligations.FeedAwaitPayload := by
  intro s k chunk hv hi hd hp x a e rx
  refine ⟨selectRuns_feed chunk hp, ?_⟩
  have hnext {r y} := exec_feedInstr_next (p := .awaitPayload) (chunk := chunk) (r := r) (y := y)
    hv hi hp hd (by decide)
  by_cases hs : chunk.length < e
  · rw [if_pos hs]
    exact hnext (feedAnswer_short_eq hp (by decide) (by decide) hs)
  · have hle : e ≤ chunk.length := Nat.le_of_not_lt hs
    rw [if_neg hs]
    refine hnext ((feedAnswer_payloadDone hp hle).trans ?_)
    rw [Session.afterCopy_expected_eq hp hle]; rfl

/-- Settles O16: a chunk too short for the checksum, one that matches, and one that does not. -/
theorem feedAwaitChecksum : Obligations.FeedAwaitChecksum := by
  intro s k chunk hv hi hd hp x a e rx
  refine ⟨selectRuns_feed chunk hp, ?_⟩
  have hnext {r y} := exec_feedInstr_next (p := .awaitChecksum) (chunk := chunk) (r := r) (y := y)
    hv hi hp hd (by decide)
  obtain ⟨-, -, -, hae, -⟩ := (Session.decInv_awaitChecksum hp).1 hd
  change a + e = 6 + x.declaredLen at hae
  by_cases hs : chunk.length < e
  · rw [if_pos hs]
    exact hnext (feedAnswer_short_eq hp (by decide) (by decide) hs)
  · have hle : e ≤ chunk.length := Nat.le_of_not_lt hs
    rw [if_neg hs, show a + e - 2 = 4 + x.declaredLen by omega, show a + e - 1 = 5 + x.declaredLen by omega]
    split
    · next hm =>
      refine hnext ((feedAnswer_matches hp hle hm).trans ?_)
      rw [Session.afterCopy_expected_eq hp hle]; rfl
    · next hm =>
      exact hnext ((feedAnswer_mismatch hp hle hm).trans
        (by rw [Session.afterCopy_expected_eq hp hle]))

/-- Settles O19: only an empty payload is at rest with nothing expected, and there FEED.AP moves the phase (R88). -/
theorem emptyChunkConsumesNothing : Obligations.EmptyChunkConsumesNothing := by
  intro s k p hv hi hd hp hc
  refine exec_feedInstr_next hv hi hp hd hc ?_
  subst hp
  split
  · next h =>
    obtain ⟨hp, h0⟩ := h
    rw [feedAnswer_payloadDone hp (by simp [h0]), h0]
    rfl
  · next h => exact feedAnswer_empty hc fun hm => Session.expected_pos hd hm hc h

/-- Settles O24: the header's two answers are split by the bound, and the bound is `N_MAX` since the field has 16
bits. -/
theorem headerAcceptedIffPayloadFits : Obligations.HeaderAcceptedIffPayloadFits := by
  intro c x chunk hv hd hp hle
  have hfeed := feed_eq chunk hv hd (by simp [hp])
  let z := x.afterCopy (chunk.take x.decoder.expected)
  have hiff := Session.declaredLen_fits_iff hv z
  by_cases hn : 4 + z.declaredLen + 2 ≤ c.bRx
  · rw [feedAnswer_accepts hp hle hn] at hfeed
    refine ⟨_, _, hfeed, iff_of_true rfl hn, hiff, iff_of_false (by simp) ?_⟩
    exact Nat.not_lt.2 (hiff.1 hn)
  · rw [feedAnswer_rejects hp hle (Nat.lt_of_not_le hn)] at hfeed
    refine ⟨_, _, hfeed, iff_of_false (by simp) hn, hiff, iff_of_true rfl ?_⟩
    exact Nat.lt_of_not_le fun h => hn (hiff.2 h)

/-! ### A request in chunks, each fed until it is consumed (R94, R118) -/

/-- A session at rest that has taken in the first bytes of a frame, of which `missing` are to come: `Session.Awaits`
without its test that the frame is not complete. -/
structure Session.TakesIn (c : Config) (x : Session) (frame missing : List Byte) : Prop where
  sessInit : x.sessInit = true
  atRest : x.decInv c = true
  holds : x.Holds frame missing

/-- A session that awaits bytes of a frame has taken in the others. -/
theorem Session.Awaits.takesIn {c : Config} {x : Session} {frame missing : List Byte}
    (hx : Session.Awaits c x frame missing) : x.TakesIn c frame missing := by
  obtain ⟨⟨hi, hd, -⟩, hh⟩ := hx
  exact ⟨hi, hd, hh⟩

section
variable {c : Config} {x : Session} {cmd : Byte} {p missing : List Byte}

/-- In Complete no byte of the request is missing (R22). -/
theorem Session.TakesIn.missing_eq_nil (hx : x.TakesIn c (requestFrame c cmd p) missing) (h1 : p.length ≤ 65535)
    (hc : x.decoder.phase = .complete) : missing = [] := by
  obtain ⟨-, hd, hh⟩ := hx
  rw [requestFrame_eq_reqImage] at hh
  obtain ⟨-, ⟨ha, -, -⟩, -⟩ := (Session.decInv_complete hc).1 hd
  have hn := hh.declaredLen h1 (by omega)
  have hl := hh.length
  rw [length_reqImage] at hl
  exact List.eq_nil_of_length_eq_zero (by omega)

/-- While bytes of the request are missing, the session awaits them. -/
theorem Session.TakesIn.awaits (hx : x.TakesIn c (requestFrame c cmd p) missing) (h1 : p.length ≤ 65535)
    (hne : missing ≠ []) : Session.Awaits c x (requestFrame c cmd p) missing :=
  ⟨⟨hx.sessInit, hx.atRest, fun hc => hne (hx.missing_eq_nil h1 hc)⟩, hx.holds⟩

/-- With no byte missing the request is complete: every other phase at rest expects more (R22). -/
theorem Session.TakesIn.complete (hx : x.TakesIn c (requestFrame c cmd p) []) (h1 : p.length ≤ 65535) :
    x.decoder = { phase := .complete, accumulated := 6 + p.length, expected := 0 } := by
  obtain ⟨hi, hd, hh⟩ := hx
  rw [requestFrame_eq_reqImage] at hh
  have hl := hh.length
  rw [length_reqImage, List.length_nil] at hl
  have hc : x.decoder.phase = .complete := by
    by_contra hc
    have hph := (Session.Awaits.length ⟨⟨hi, hd, hc⟩, hh⟩ h1).2
    cases hq : x.decoder.phase with
    | complete => exact hc hq
    | awaitMarker => rw [hq] at hph; omega
    | awaitLengthField => rw [hq] at hph; omega
    | awaitPayload => rw [hq] at hph; omega
    | awaitChecksum => rw [hq] at hph; omega
  obtain ⟨-, ⟨-, he, -⟩, -⟩ := (Session.decInv_complete hc).1 hd
  rw [← hc, ← he, ← hl]; rfl

/-- With no byte missing the session holds the request received (R94). -/
theorem Session.TakesIn.received (hx : x.TakesIn c (requestFrame c cmd p) []) (h1 : p.length ≤ 65535) :
    Session.Received c x cmd p x where
  decoder := hx.complete h1
  rx := by
    have hh := hx.holds
    rwa [Session.Holds, List.append_nil, hx.complete h1] at hh
  beyond _ _ := rfl
  tx := rfl
  req := rfl
  sessInit := rfl

/-- The command id of a request received is read at offset 1 (R31). -/
theorem Session.Received.cmdId {y : Session} (h : Session.Received c x cmd p y) : Memory.get y.rx 1 = cmd := by
  rw [h.holds.get (by rw [h.decoder]; change 1 < 6 + p.length; omega), reqImage_cons]
  rfl

/-- One FEED takes in the next bytes of the request, and the calls still to come on the chunk are fewer: twice its
bytes, less one in AwaitChecksum (R84, R93). -/
theorem Session.TakesIn.exists_feed {chunk later : List Byte} (hv : c.Valid) (hp : p.length ≤ nMax c)
    (hx : x.TakesIn c (requestFrame c cmd p) (chunk ++ later)) (hne : chunk ≠ []) :
    ∃ n y, feed c x chunk = .ok (.ok n, y) ∧
      y.TakesIn c (requestFrame c cmd p) (chunk.drop n ++ later) ∧
      2 * (chunk.drop n).length - checksumTurn y.decoder.phase <
        2 * chunk.length - checksumTurn x.decoder.phase := by
  obtain ⟨h1, h2⟩ := fits_of_le_nMax hv hp
  have hw := hx.awaits h1 (List.append_ne_nil_of_left_ne_nil hne later)
  obtain ⟨hi, hd, hc⟩ := hw.1
  rw [requestFrame_eq_reqImage] at hw ⊢
  obtain ⟨n, y, ha, -, hh, -⟩ := feedAnswer_fragment hw h1 (.inl (by omega)) (fun _ _ => rfl) hne
  have hrest := feedAnswer_rest chunk hv hd hc
  have hinit := (feedAnswer_frame c x chunk).2.2
  rw [ha] at hrest hinit
  refine ⟨n, y, (feed_eq chunk hv hd hc).trans (congrArg _ ha), ⟨hinit.trans hi, hrest, hh⟩, ?_⟩
  obtain ⟨hn, h0, -⟩ := feedAnswer_progress hd hc hne ha
  have hlen := List.length_pos_iff.2 hne
  have hturn := checksumTurn_le x.decoder.phase
  rw [List.length_drop]
  rcases Nat.eq_zero_or_pos n with hz | hpos
  · obtain ⟨hq, -, rfl⟩ := h0 hz
    simp only [hq, Session.setPhase_phase, checksumTurn]
    omega
  · omega

/-- Repeated FEED calls consume a chunk of the request, with calls enough where they are twice its bytes (R84, R94). -/
theorem Session.TakesIn.exists_feedUntilConsumed (hv : c.Valid) (hp : p.length ≤ nMax c) :
    ∀ (fuel : Nat) {x : Session} {chunk later : List Byte},
      x.TakesIn c (requestFrame c cmd p) (chunk ++ later) →
      2 * chunk.length - checksumTurn x.decoder.phase ≤ fuel →
      ∃ y, feedUntilConsumed c fuel x chunk = some y ∧ y.TakesIn c (requestFrame c cmd p) later := by
  intro fuel
  induction fuel with
  | zero =>
    intro x chunk later hx hfuel
    have hturn := checksumTurn_le x.decoder.phase
    obtain rfl : chunk = [] := List.eq_nil_of_length_eq_zero (by omega)
    exact ⟨x, rfl, hx⟩
  | succ fuel ih =>
    intro x chunk later hx hfuel
    cases chunk with
    | nil => exact ⟨x, rfl, hx⟩
    | cons b bs =>
      obtain ⟨n, y, hf, hy, hless⟩ := hx.exists_feed hv hp (List.cons_ne_nil b bs)
      simp only [feedUntilConsumed, hf]
      exact ih hy (by omega)

/-- The chunks of the request, fed in order, are taken in (R94). -/
theorem Session.TakesIn.exists_feedChunks (hv : c.Valid) (hp : p.length ≤ nMax c) :
    ∀ {chunks : List (List Byte)} {x : Session}, x.TakesIn c (requestFrame c cmd p) chunks.flatten →
      ∃ y, feedChunks c x chunks = some y ∧ y.TakesIn c (requestFrame c cmd p) [] := by
  intro chunks
  induction chunks with
  | nil => exact fun {x} hx => ⟨x, rfl, hx⟩
  | cons chunk chunks ih =>
    intro x hx
    obtain ⟨y, hy, hty⟩ := Session.TakesIn.exists_feedUntilConsumed hv hp (2 * chunk.length) hx (Nat.sub_le _ _)
    obtain ⟨z, hz, htz⟩ := ih hty
    refine ⟨z, ?_, htz⟩
    rw [feedChunks, List.foldlM_cons, hy]
    exact hz

end

/-- Settles O25: `TakesIn` holds of the idle session with the whole frame missing and is kept by every chunk; with
nothing missing it is the request received. -/
theorem fragmentationDoesNotMatter : Obligations.FragmentationDoesNotMatter := by
  intro c x cmd p chunks hv hx hp hflat
  obtain ⟨h1, -⟩ := fits_of_le_nMax hv hp
  have hstart : x.TakesIn c (requestFrame c cmd p) chunks.flatten := by
    rw [hflat]
    exact (hx.awaits c _).takesIn
  obtain ⟨y, hfeed, hy⟩ := hstart.exists_feedChunks hv hp
  have hr := hy.received h1
  exact ⟨y, hfeed, hr.decoder, hr.rx, hr.cmdId, hr.declaredLen h1, hr.payload⟩

end Sys2Proof.Machine

/-! ### The dispatch table: TABLE_INIT, REGISTER and LOOKUP (R60, R100 to R103) -/

namespace Sys2Proof.Machine

/-- TABLE_INIT answers in every state (R100). -/
theorem exec_tableInit (t : Nat) (s : State) :
    exec (.tableInit t) s = .next ((s.setServer t { srvInit := true, table := [] }).setResult .none) := rfl

/-- Settles O26: select 0x4 decodes to TABLE_INIT, which tests nothing. -/
theorem tableInitEmptiesTable : Obligations.TableInitEmptiesTable := by
  intro s t
  refine ⟨?_, exec_tableInit t s⟩
  exact selectRuns_of_decodeOp s (by decide) rfl

section
variable {s : State} {t : Nat}

/-- REGISTER on a server TABLE_INIT has not run on: the handler is not looked at (R101, R156). -/
theorem exec_register_notInitialised (hi : (s.server t).srvInit = false) (cmd : Byte) (handler : Option Handler) :
    exec (.register t cmd handler) s = .next (s.setResult (.register (.err .notInitialised))) := by
  simp only [exec, execRegister, hi, Bool.not_false, if_true]

/-- REGISTER of the null handler (R101, R157). -/
theorem exec_register_none (hi : (s.server t).srvInit = true) (cmd : Byte) :
    exec (.register t cmd none) s = .next (s.setResult (.register (.err .nullHandler))) := by
  simp only [exec, execRegister, hi, Bool.not_true, Bool.false_eq_true, if_false]

/-- REGISTER of a handler puts its binding at the end (R101). -/
theorem exec_register_some (hi : (s.server t).srvInit = true) (cmd : Byte) (h : Handler) :
    exec (.register t cmd (some h)) s =
      .next ((s.setServer t { srvInit := true, table := (s.server t).table ++ [(cmd, h)] }).setResult
        (.register .ok)) := by
  simp only [exec, execRegister, hi, Bool.not_true, Bool.false_eq_true, if_false]

/-- LOOKUP on an initialised server answers the search's result (R102). -/
theorem exec_lookup_ready (hi : (s.server t).srvInit = true) (cmd : Byte) :
    exec (.lookup t cmd) s = .next (s.setResult (.lookup (lookupHandler (s.server t).table cmd))) := by
  simp only [exec, execLookup, State.readyServer_ok s t hi, Res.ok_bind, Res.toOutcome_ok]

end

/-- Settles O27: the two failures and the append, with NotInitialised tested first. -/
theorem registerAppendsBinding : Obligations.RegisterAppendsBinding := by
  intro s t cmd
  refine ⟨fun handler => ?_, fun hi => exec_register_notInitialised hi cmd, fun hi => ⟨?_, ?_⟩⟩
  · exact selectRuns_of_decodeOp s (by decide) rfl
  · exact exec_register_none hi cmd
  · exact exec_register_some hi cmd

/-- The search finds a binding at the head of a table (R102). -/
@[simp] theorem lookupHandler_cons_same (cmd : Byte) (h : Handler) (post : List Binding) :
    lookupHandler ((cmd, h) :: post) cmd = some h := if_pos rfl

/-- Settles O28: LOOKUP answers the search's result, and the search passes over bindings of other ids. -/
theorem lookupReturnsFirstMatch : Obligations.LookupReturnsFirstMatch := by
  intro s t cmd hi
  refine ⟨?_, fun hne => ?_, fun pre h post ht hne => ?_⟩
  · exact selectRuns_of_decodeOp s (by decide) rfl
  · rw [exec_lookup_ready hi, lookupHandler_eq_none hne]
  · rw [exec_lookup_ready hi, ht, lookupHandler_append hne, lookupHandler_cons_same]

/-- The search of two tables in turn: the second one counts only where the first has no match (R102, R103). -/
theorem lookupHandler_append_or (pre post : List Binding) (cmd : Byte) :
    lookupHandler (pre ++ post) cmd = (lookupHandler pre cmd).or (lookupHandler post cmd) := by
  induction pre with
  | nil => rfl
  | cons b pre ih =>
    obtain ⟨id, h⟩ := b
    simp only [List.cons_append, lookupHandler]
    by_cases hid : id = cmd
    · rw [if_pos hid, if_pos hid, Option.some_or]
    · rw [if_neg hid, if_neg hid, ih]

/-- A second binding of a bound id changes no search (R103). -/
theorem lookupHandler_append_duplicate {table : List Binding} {cmd : Byte} {h : Handler}
    (hl : lookupHandler table cmd = some h) (h' : Handler) (id : Byte) :
    lookupHandler (table ++ [(cmd, h')]) id = lookupHandler table id := by
  rw [lookupHandler_append_or]
  by_cases hid : cmd = id
  · subst hid
    rw [hl, Option.some_or]
  · have hnew : lookupHandler [(cmd, h')] id = none := if_neg hid
    rw [hnew, Option.or_none]

/-- Settles O29: REGISTER appends the duplicate, which no search reaches. -/
theorem duplicateRegistrationIsShadowed : Obligations.DuplicateRegistrationIsShadowed := by
  intro s t cmd h h' hi hl
  refine ⟨_, exec_register_some hi cmd h', rfl, fun id => ?_⟩
  rw [exec_lookup_ready (by simp), State.server_setResult, State.server_setServer_same,
    lookupHandler_append_duplicate hl]

end Sys2Proof.Machine

/-! ### DISPATCH, and the refusal of a handler's breach (R104 to R106, R169) -/

namespace Sys2Proof.Machine

/-- DISPATCH on an initialised server and session is the dispatcher on the session's record (R105). -/
theorem exec_dispatch_ready {s : State} {t k : Nat} (ht : (s.server t).srvInit = true)
    (hk : (s.session k).sessInit = true) :
    exec (.dispatch t k) s = Res.toOutcome (dispatchRequest s.cfg (s.server t).table (s.session k) >>= fun y =>
      .ok ((s.setSession k y).setResult .none)) := by
  simp only [exec, execDispatch, State.readyServer_ok s t ht, State.readySession_ok s k hk, Res.ok_bind]

/-- DISPATCH answers with the session the dispatcher leaves (R105). -/
theorem exec_dispatch_next {s : State} {t k : Nat} {y : Session} (ht : (s.server t).srvInit = true)
    (hk : (s.session k).sessInit = true)
    (hd : dispatchRequest s.cfg (s.server t).table (s.session k) = .ok y) :
    exec (.dispatch t k) s = .next ((s.setSession k y).setResult .none) := by
  rw [exec_dispatch_ready ht hk, hd, Res.ok_bind, Res.toOutcome_ok]

/-- DISPATCH is refused with the dispatcher (R104, R169). -/
theorem exec_dispatch_refused {s : State} {t k : Nat} {e : Refusal} (ht : (s.server t).srvInit = true)
    (hk : (s.session k).sessInit = true)
    (hd : dispatchRequest s.cfg (s.server t).table (s.session k) = .error (.refuse e)) :
    exec (.dispatch t k) s = .refused e := by
  rw [exec_dispatch_ready ht hk, hd, Res.error_bind, Res.toOutcome_refuse]

/-! ### The outcome record field by field (R106) -/

/-- The 16-bit field after a handler ran over the defaults: what it reported, 0 where it reported nothing (R105). -/
def reportedLenField (o : HandlerOutcome) : Half := (o.outputLen.map outputLenField).getD 0

/-- A reported length the field can hold is held (R17, R105). -/
theorem reportedLenField_toNat {o : HandlerOutcome} (h : o.outputLen.getD 0 ≤ 65535) :
    (reportedLenField o).toNat = o.outputLen.getD 0 := by
  unfold reportedLenField
  cases ho : o.outputLen with
  | none => rfl
  | some n =>
    rw [ho] at h
    exact outputLenField_of_le h

/-- Normalisation after a handler ran over the defaults: only a negative return with status OK replaces the
handler's own fields (R105, R106). -/
theorem CurrentRequest.normalise_afterHandler (r : CurrentRequest) (o : HandlerOutcome) (negative : Bool) :
    (r.withDefaults.afterHandler o).normalise negative =
      { cmdId := r.cmdId
        payloadLen := r.payloadLen
        status := if negative = true ∧ o.status.getD .ok = .ok then .error else o.status.getD .ok
        errorCode := if negative = true ∧ o.status.getD .ok = .ok then 4 else o.errorCode.getD 0
        outputLen := if negative = true ∧ o.status.getD .ok = .ok then 0 else reportedLenField o } := by
  have hs : (r.withDefaults.afterHandler o).status = o.status.getD .ok := rfl
  cases negative with
  | false => simp only [Bool.false_eq_true, false_and, if_false]; rfl
  | true =>
    simp only [CurrentRequest.normalise, if_true, true_and, hs]
    cases hst : o.status.getD .ok with
    | ok => rfl
    | error =>
      simp only [reduceCtorEq, if_false]
      rw [← hst]
      rfl

/-- Settles O31: no binding, and a bound handler within its contract. -/
theorem dispatchNormalisesOutcome : Obligations.DispatchNormalisesOutcome := by
  intro s t k ht hk x
  refine ⟨?_, fun hne => ?_, ?_⟩
  · exact selectRuns_of_decodeOp s (by decide) rfl
  · exact exec_dispatch_next ht hk (dispatchRequest_unknown (lookupHandler_eq_none hne))
  · intro h o hv hn hl hr hw hlen downgrade
    refine ⟨reportedLenField o, reportedLenField_toNat, exec_dispatch_next ht hk ?_⟩
    have ho : acceptOutcome (outCap s.cfg) (runHandler h x.req.cmdId
        (Memory.getBytes x.rx payloadOff x.req.payloadLen.toNat) (outCap s.cfg)) = .ok o :=
      (congrArg (acceptOutcome _) hr).trans (acceptOutcome_ok hw hlen)
    rw [dispatchRequest_found hv hn hl ho, CurrentRequest.normalise_afterHandler]
    rfl

/-! ### A breach stops DISPATCH, the answer and the whole call -/

/-- The dispatcher stops where the handler's result is not accepted (R104). -/
theorem dispatchRequest_error {c : Config} {table : List Binding} {x : Session} {h : Handler} {e : Stop}
    (hn : payloadOff + x.req.payloadLen.toNat ≤ c.bRx) (hl : lookupHandler table x.req.cmdId = some h)
    (ha : acceptOutcome (outCap c) (runHandler h x.req.cmdId
      (Memory.getBytes x.rx payloadOff x.req.payloadLen.toNat) (outCap c)) = .error e) :
    dispatchRequest c table x = .error e := by
  rw [dispatchRequest_bound hn hl, ha, Res.error_bind]

/-- The answer to a completed request stops with the dispatcher (R134). -/
theorem answerRequest_error {c : Config} {table : List Binding} {cb : Callback} {r : Run} {e : Stop}
    (hv : c.Valid) (hd : dispatchRequest c table r.sess.extracted = .error e) :
    answerRequest c table cb r = .error e := by
  simp only [answerRequest, extractRequest_ok hv, Res.ok_bind, hd, Res.error_bind]

/-- The dispatcher on a request received stops where the bound handler's result on its payload is not accepted
(R104, R135). -/
theorem Session.Received.dispatch_not_accepted {c : Config} {x y : Session} {cmd : Byte} {p : List Byte}
    {table : List Binding} {h : Handler} {e : Stop} (hy : Session.Received c x cmd p y) (hv : c.Valid)
    (hp : p.length ≤ nMax c) (hl : lookupHandler table cmd = some h)
    (ha : acceptOutcome (outCap c) (runHandler h cmd p (outCap c)) = .error e) :
    dispatchRequest c table y.extracted = .error e := by
  obtain ⟨h1, h2⟩ := fits_of_le_nMax hv hp
  have hlen : y.extracted.req.payloadLen.toNat = p.length := by
    rw [Session.extracted_payloadLen, hy.declaredLen h1]
  have hcmd : y.extracted.req.cmdId = cmd := by rw [hy.extracted]
  have hview : Memory.getBytes y.extracted.rx payloadOff p.length = p := hy.payload
  refine dispatchRequest_error (h := h) ?_ (by rwa [hcmd]) (by rwa [hcmd, hlen, hview])
  rw [hlen, payloadOff]
  omega

/-- A delivered chunk whose processing is refused is refused (R169). -/
theorem deliver_of_error {t k : Nat} {input : List Byte} {cb : Callback} {s : State} {e : Stop}
    (ht : (s.server t).srvInit = true) (hk : (s.session k).sessInit = true)
    (h : processInput s.cfg (s.server t).table cb (s.session k) input = .error e) :
    deliver t k input cb s = .error e := by
  simp only [deliver, State.readyServer_ok s t ht, State.readySession_ok s k hk, Res.ok_bind, h, Res.error_bind]

/-- An instruction that completes a request first is refused where the handler's result is not accepted, whatever
it brings behind the request (R104, R169). -/
theorem ReachesRequest.exec_refused {s : State} {i : Instr} {t k : Nat} {cmd : Byte} {p : List Byte} {cb : Callback}
    {h : Handler} {e : Refusal} (hi : ReachesRequest s t k cmd p cb i) (hv : s.cfg.Valid)
    (ht : (s.server t).srvInit = true) (hp : p.length ≤ nMax s.cfg)
    (hl : lookupHandler (s.server t).table cmd = some h)
    (ha : acceptOutcome (outCap s.cfg) (runHandler h cmd p (outCap s.cfg)) = .error (.refuse e)) :
    exec i s = .refused e := by
  obtain ⟨missing, rest, hm, hexec⟩ := hi.exec_eq
  obtain ⟨y, hy, hstop⟩ := processInput_refused hv hm hp
  have hanswer : answerRequest s.cfg (s.server t).table cb { sess := y, cur := missing.length, frames := [] } =
      .error (.refuse e) := answerRequest_error hv (hy.dispatch_not_accepted hv hp hl ha)
  rw [hexec, deliver_of_error ht hm.1.1 (hstop _ _ rest _ hanswer), Res.toOutcome_refuse]

/-- Settles O32: a result that is not accepted stops the dispatcher, and with it DISPATCH and the whole call that
completes the request. -/
theorem handlerViolationRefused : Obligations.HandlerViolationRefused := by
  refine ⟨fun s t k h hv ht hk hn hl => ?_, fun s i t k cmd p cb h hv ht hp hi hl => ?_⟩
  · refine RefusedAsBreach.of_acceptOutcome fun e he => ?_
    exact exec_dispatch_refused ht hk (dispatchRequest_error hn hl he)
  · exact RefusedAsBreach.of_acceptOutcome fun e he => hi.exec_refused hv ht hp hl he

end Sys2Proof.Machine

/-! ### ENCODE_RESPONSE (R60, R115) -/

namespace Sys2Proof.Machine

/-- ENCODE_RESPONSE on an initialised session answers with the session the encoder leaves (R115). -/
theorem exec_encodeResponse_next {s : State} {k n : Nat} {y : Session} (hk : (s.session k).sessInit = true)
    (he : encodeFrame s.cfg (s.session k) = .ok (n, y)) :
    exec (.encodeResponse k) s = .next ((s.setSession k y).setResult (.encodedLength n)) := by
  simp only [exec, execEncodeResponse, State.readySession_ok s k hk, Res.ok_bind, he, Res.toOutcome_ok]

/-- What lies in the transmit buffer after ENCODE_RESPONSE is the response image of R51, for the record and the
output bytes found there before it (R115). -/
theorem getBytes_encodedTx_eq_responseImage (c : Config) (x : Session) :
    Memory.getBytes (encodedTx c x) 0 (8 + x.req.outputLen.toNat) =
      responseImage c x.req.cmdId x.req.status x.req.errorCode
        (Memory.getBytes x.tx 6 x.req.outputLen.toNat) := by
  rw [getBytes_encodedTx, responseImage_eq_responseFrame c x.req (Memory.length_getBytes _ _ _)]

/-- Settles O33: the transmit buffer is `encodedTx`, header and checksum written around the output already there. -/
theorem encodeResponseBuildsFrame : Obligations.EncodeResponseBuildsFrame := by
  intro s k hv hk hm x m
  refine ⟨?_, encodedTx s.cfg x, ?_, ?_, ?_⟩
  · exact selectRuns_of_decodeOp s (by decide) rfl
  · exact exec_encodeResponse_next hk (encodeFrame_ok hv hm)
  · exact getBytes_encodedTx_eq_responseImage s.cfg x
  · exact fun _ hj => get_encodedTx_beyond s.cfg x hj

end Sys2Proof.Machine

/-! ### PROCESS as an instruction: its answers, its refusals, and the frame rows it stands behind (R60, R131, R134) -/

namespace Sys2Proof.Machine

section
variable {s : State} {t k : Nat} {input : List Byte} {cb : Callback}

/-- PROCESS on an initialised server and session answers with the session and the frames of its run (R134). -/
theorem exec_process_next {r : Run} (ht : (s.server t).srvInit = true) (hk : (s.session k).sessInit = true)
    (h : processInput s.cfg (s.server t).table cb (s.session k) input = .ok r) :
    exec (.process t k input cb) s = .next (((s.setSession k r.sess).addSent k r.frames).setResult .none) := by
  simp only [exec, execProcess, deliver_of_ok ht hk h, Res.toOutcome_ok]

/-- PROCESS is refused with its run (R169). -/
theorem exec_process_refused {e : Refusal} (ht : (s.server t).srvInit = true)
    (hk : (s.session k).sessInit = true)
    (h : processInput s.cfg (s.server t).table cb (s.session k) input = .error (.refuse e)) :
    exec (.process t k input cb) s = .refused e := by
  simp only [exec, execProcess, deliver_of_error ht hk h, Res.toOutcome_refuse]

/-- PROCESS on a server TABLE_INIT has not run on: nothing else is looked at (R169, D23). -/
theorem exec_process_serverNotInitialised (ht : (s.server t).srvInit = false) :
    exec (.process t k input cb) s = .refused .serverNotInitialised := by
  simp only [exec, execProcess, deliver, State.readyServer_refuse s t ht, Res.error_bind, Res.toOutcome_refuse]

/-- PROCESS on a session SESSION_INIT has not run on (R169, D23). -/
theorem exec_process_sessionNotInitialised (ht : (s.server t).srvInit = true)
    (hk : (s.session k).sessInit = false) :
    exec (.process t k input cb) s = .refused .sessionNotInitialised := by
  simp only [exec, execProcess, deliver, State.readyServer_ok s t ht, State.readySession_refuse s k hk,
    Res.ok_bind, Res.error_bind, Res.toOutcome_refuse]

end

section
variable {c : Config} {x : Session} (table : List Binding) (cb : Callback) (input : List Byte)

/-- PROCESS entered in Complete (R169). -/
theorem processInput_complete (hp : x.decoder.phase = .complete) :
    processInput c table cb x input = .error (.refuse .processInComplete) := by
  simp only [processInput, hp, ne_eq, not_true_eq_false, decide_false, require_false, Res.error_bind]

/-- PROCESS entered where `DecInv` does not hold (R134). -/
theorem processInput_not_atRest (hp : x.decoder.phase ≠ .complete) (hd : x.decInv c = false) :
    processInput c table cb x input = .error (.refuse .processPrecondition) := by
  simp only [processInput, hp, hd, ne_eq, not_false_eq_true, decide_true, require_true, require_false,
    Res.ok_bind, Res.error_bind]

/-- PROCESS on an empty input takes no turn (R134 corner case 1). -/
theorem processInput_nil (hf : Session.Feedable c x) :
    processInput c table cb x [] = .ok (Run.start x) := by
  rw [processInput_eq hf, processLoop_done (Nat.zero_le _)]

end

/-- Settles O39: the turns of R141 are enough to consume the input, and every turn keeps the session feedable. -/
theorem processConsumesItsInput : Obligations.ProcessConsumesItsInput := by
  rintro s t k input ⟨hv, ht, htable, hf⟩
  obtain ⟨r, hr, hrest, hcur⟩ := processInput_ok input hv htable hf
  refine ⟨?_, r, hr, exec_process_next ht hf.1 hr, hcur, hrest⟩
  exact selectRuns_of_decodeOp s (by decide) rfl

/-- Settles O38: an empty input takes no turn. -/
theorem processEmptyInputChangesNothing : Obligations.ProcessEmptyInputChangesNothing := by
  intro s t k cb ht hf
  exact exec_process_next ht hf.1 (processInput_nil _ cb hf)

/-- Settles O47: the four entry tests in their order; a failed FEED leaves a state that the last one rejects. -/
theorem processIllegalEntryRefused : Obligations.ProcessIllegalEntryRefused := by
  intro s t k input cb
  refine ⟨exec_process_serverNotInitialised, exec_process_sessionNotInitialised, fun ht hk hp => ?_,
    fun ht hk hp hd => ?_, fun h => (Session.not_atRest_of_afterFailure h).symm⟩
  · exact exec_process_refused ht hk (processInput_complete _ cb input hp)
  · exact exec_process_refused ht hk (processInput_not_atRest _ cb input hp hd)

/-- Settles O36: select 0x1 decodes to SESSION_INIT, which reads nothing of the old session. -/
theorem sessionInitClearsSession : Obligations.SessionInitClearsSession := by
  intro s k
  refine ⟨?_, Session.fresh, rfl, rfl, rfl, Memory.get_nil, Memory.get_nil, rfl⟩
  exact selectRuns_of_decodeOp s (by decide) rfl

/-! ### Frame rows -/

/-- The request image, split into header, payload and checksum (R50). -/
theorem reqImage_eq_append (m cmd : Byte) (payload : List Byte) (crc : Half) :
    reqImage m cmd payload crc =
      [m, cmd, hi8 (lengthField payload), lo8 (lengthField payload)] ++ payload ++ [hi8 crc, lo8 crc] := by
  rw [reqImage_cons, List.append_assoc]; rfl

/-- The response image, split into header, output and checksum (R51). -/
theorem rspImage_eq_append (m cmd : Byte) (status : Status) (err : Byte) (output : List Byte) (crc : Half) :
    rspImage m cmd status err output crc =
      [m, cmd, statusByte status, err, hi8 (lengthField output), lo8 (lengthField output)] ++ output ++
        [hi8 crc, lo8 crc] := by
  rw [List.append_assoc]; rfl

/-- A frame arriving on a connection is one PROCESS on its bytes (R131). -/
theorem arrive_eq_exec_process (l : Link) (bytes : List Byte) (s : State) :
    arrive l bytes s = exec (.process l.server l.session bytes l.callback) s := rfl

/-- Settles O49: each row is the arrival of its image, and the two rows without output declare length 0. -/
theorem arrivingFrameIsProcessed : Obligations.ArrivingFrameIsProcessed := by
  intro s l cmd err bytes crc m run
  refine ⟨?_, ?_, ?_, rfl, rfl⟩
  · exact congrArg run (reqImage_eq_append m cmd bytes crc)
  · exact congrArg run (rspImage_eq_append m cmd .ok err bytes crc)
  · exact congrArg run (rspImage_eq_append m cmd .error err bytes crc)

/-- An instruction with a connection is a frame row: the arrival of its image there (R57, R131). -/
theorem exec_eq_arrive {i : Instr} {l : Link} (h : arrivalLink i = some l) (s : State) :
    ∃ bytes, exec i s = arrive l bytes s := by
  cases i with
  | req => cases h; exact ⟨_, rfl⟩
  | rspOk => cases h; exact ⟨_, rfl⟩
  | rspErr => cases h; exact ⟨_, rfl⟩
  | rspErrUnknown => cases h; exact ⟨_, rfl⟩
  | rspErrInternal => cases h; exact ⟨_, rfl⟩
  | _ => cases h

/-- Settles O50: a frame row is a PROCESS, which completes on every input from a ready connection. -/
theorem arrivingFramesComplete : Obligations.ArrivingFramesComplete := by
  rintro s i l hl hcb ⟨hv, ht, htable, hf⟩
  obtain ⟨bytes, hexec⟩ := exec_eq_arrive hl s
  obtain ⟨r, hr, hrest, -⟩ := processInput_ok bytes hv htable hf
  refine ⟨_, r.sess, r.frames, ?_, rfl, hrest⟩
  rw [hexec, arrive_eq_exec_process, hcb, exec_process_next ht hf.1 hr]

end Sys2Proof.Machine

/-! ### Input that PROCESS gives up: noise, an oversize header, a wrong checksum (R138) -/

namespace Sys2Proof.Machine

/-- A run moved twice is a run moved once. -/
theorem Run.map_shift_shift (m n : Nat) (a : Res Run) :
    (a.map (Run.shift n [])).map (Run.shift m []) = a.map (Run.shift (m + n) []) := by
  cases a with
  | error e => rfl
  | ok r => simp only [Except.map, Run.shift, List.nil_append, Nat.add_assoc]

/-- Noise alone leaves the session as it was and sends nothing (R138, R141). -/
theorem processInput_noise_alone {c : Config} {x : Session} {noise : List Byte} (hv : c.Valid)
    (hx : Session.Idle x) (hn : ∀ b ∈ noise, b ≠ c.marker) (table : List Binding) (cb : Callback) :
    processInput c table cb x noise = .ok ((Run.start x).shift noise.length []) := by
  have h := processInput_noise (t := table) (cb := cb) [] hv hx hn
  rwa [List.append_nil, processInput_nil table cb (hx.feedable c)] at h

/-- FEED on a byte that is not the marker fails and changes nothing (R85, R151). -/
theorem feed_noise {c : Config} {x : Session} {b : Byte} (hv : c.Valid) (hx : Session.Idle x)
    (hb : b ≠ c.marker) (rest : List Byte) : feed c x (b :: rest) = .ok (.err .badMarker, x) := by
  obtain ⟨-, hd, hc⟩ := hx.feedable c
  rw [feed_eq _ hv hd hc, feedAnswer_noise hx hb]

/-- Settles O40: one byte, then the bytes of the noise one after the other, and noise with no rest. -/
theorem noiseIsDroppedByteByByte : Obligations.NoiseIsDroppedByteByByte := by
  refine ⟨fun c table cb input r b hv hx hb hn => ?_, fun c table cb x noise rest hv hx hn => ?_,
    fun s t k noise cb hv ht hx hn => ?_⟩
  · obtain ⟨hl, hget⟩ := List.getElem?_eq_some_iff.1 hb
    have hresync : Run.resync r = { r with cur := r.cur + 1 } := by rw [Run.resync, hx.decReset_eq]
    refine ⟨?_, ?_, hresync⟩
    · rw [List.drop_eq_getElem_cons hl, hget]
      exact feed_noise hv hx hn _
    · rw [hresync]
      exact processTurn_noise hv hx hb hn
  · exact processInput_noise rest hv hx hn
  · exact exec_process_next ht hx.1 (processInput_noise_alone hv hx hn _ cb)

section
variable {c : Config} {x : Session} {b : Byte} {bs : List Byte}

/-- A successful FEED on the first turn of PROCESS that consumes one byte and completes no frame: what follows the
byte is processed as a call of its own (R134, R137). -/
theorem processInput_takeOne {y : Session} (hv : c.Valid) (hf : Session.Feedable c x)
    (ha : feedAnswer c x (b :: bs) = (.ok 1, y)) (hc : y.decoder.phase ≠ .complete) (table : List Binding)
    (cb : Callback) :
    processInput c table cb x (b :: bs) = (processInput c table cb y bs).map (Run.shift 1 []) := by
  have hrest := feedAnswer_rest (b :: bs) hv hf.2.1 hf.2.2
  obtain ⟨-, -, hinit⟩ := feedAnswer_frame c x (b :: bs)
  rw [ha] at hrest hinit
  rw [processInput_eq hf, show 2 * (b :: bs).length = 2 * bs.length + 1 + 1 by rw [List.length_cons]; omega,
    processLoop_turn (r := Run.start x) hv hf (by simp) ha hc]
  exact processLoop_rest hv [b] bs [] ⟨hinit.trans hf.1, hrest, hc⟩ rfl (Nat.le_succ _)

/-- The missing bytes of a header whose frame does not fit: the first of them is given up (R138, R152). -/
theorem processInput_oversize (hv : c.Valid) (hf : Session.Feedable c x)
    (hp : x.decoder.phase = .awaitLengthField) (he : x.decoder.expected = (b :: bs).length)
    (hn : c.bRx < 6 + (x.afterCopy (b :: bs)).declaredLen) (table : List Binding) (cb : Callback)
    (rest : List Byte) :
    processInput c table cb x (b :: (bs ++ rest)) =
      (processInput c table cb (x.afterCopy (b :: bs)).decReset (bs ++ rest)).map (Run.shift 1 []) := by
  have htake : (b :: (bs ++ rest)).take x.decoder.expected = b :: bs := by
    rw [he, ← List.cons_append, List.take_left]
  refine processInput_giveUp hv hf (feedAnswer_rejects hp ?_ ?_) |>.trans ?_
  · rw [he, List.length_cons, List.length_cons, List.length_append]; omega
  · rw [htake]; omega
  · rw [htake]; rfl

/-- A session that awaits a frame awaits a byte of it: at rest in every phase but Complete the last one is to come
(R22). -/
theorem Session.Awaits.missing_pos {cmd : Byte} {crc : Half} {p missing : List Byte}
    (hx : Session.Awaits c x (reqImage c.marker cmd p crc) missing) (hp : p.length ≤ 65535) :
    0 < missing.length := by
  obtain ⟨hl, hph⟩ := Session.Awaits.length hx hp
  cases hq : x.decoder.phase with
  | awaitMarker => rw [hq] at hph; omega
  | awaitLengthField => rw [hq] at hph; omega
  | awaitPayload => rw [hq] at hph; omega
  | awaitChecksum => rw [hq] at hph; omega
  | complete => exact absurd hq hx.1.2.2

end

/-- Settles O45: in one call the marker is taken first, which leaves a session whose header the second part gives
up. -/
theorem oversizeHeaderIsGivenUp : Obligations.OversizeHeaderIsGivenUp := by
  refine ⟨fun c table cb x cmd l1 l0 rest hv hx hn => ?_, ?_⟩
  · have hy : Session.Feedable c (x.holding .awaitLengthField [c.marker] 3) :=
      Session.holding_feedable_length hx.1 rfl (by simp) rfl
    have hlen : ((x.holding .awaitLengthField [c.marker] 3).afterCopy [cmd, l1, l0]).declaredLen =
        (be16 l1 l0).toNat := by
      rw [Session.holding_afterCopy]; exact Session.declaredLen_holding ..
    have hover := processInput_oversize (b := cmd) (bs := [l1, l0]) hv hy rfl rfl (by rwa [hlen]) table cb rest
    have hreset : ((x.holding .awaitLengthField [c.marker] 3).afterCopy [cmd, l1, l0]).decReset =
        { x with rx := Memory.setBytes x.rx 0 [c.marker, cmd, l1, l0] } := by
      rw [Session.holding_afterCopy, Session.decReset, ← hx.2]; rfl
    rw [processInput_takeOne hv (hx.feedable c) (feedAnswer_marker hx _) (by simp), ← hreset]
    exact (congrArg _ hover).trans (Run.map_shift_shift 1 1 _)
  · intro c table cb x b bs rest hv hf hp he rx hn
    exact processInput_oversize hv hf hp he hn table cb rest

/-- Settles O46: the scan resumes after the first checksum byte still to come, and one at least is to come. -/
theorem badChecksumIsGivenUp : Obligations.BadChecksumIsGivenUp := by
  intro c table cb x cmd crc p missing rest hv hp hcrc hx n
  have hpos := Session.Awaits.missing_pos hx (fits_of_le_nMax hv hp).1
  have hn : n = missing.length - 2 + 1 := by
    change (if missing.length = 1 then 1 else missing.length - 1) = missing.length - 2 + 1
    split <;> omega
  rw [hn]
  exact processInput_wrongChecksum hv hx hp hcrc table cb rest

end Sys2Proof.Machine

/-! ### Requests answered, in one call or several, and frames left in progress (R134, R137, R139, R140) -/

namespace Sys2Proof.Machine

/-- A session that has received a request, once its handler has returned `o`: the output in `tx`, and the outcome
record of the request (R105, R106). -/
def Session.dispatched (c : Config) (y : Session) (cmd : Byte) (p : List Byte) (o : HandlerOutcome) : Session :=
  { y with tx := Memory.setBytes y.tx 6 o.written, req := outcomeRecord c cmd p o }

/-- DISPATCH on a request received, its bound handler within its contract (R105, R135). -/
theorem Session.Received.dispatch_accepted {c : Config} {x y : Session} {cmd : Byte} {p : List Byte}
    {table : List Binding} {h : Handler} {o : HandlerOutcome} (hy : Session.Received c x cmd p y)
    (hv : c.Valid) (hp : p.length ≤ nMax c) (hl : lookupHandler table cmd = some h)
    (ho : acceptOutcome (outCap c) (runHandler h cmd p (outCap c)) = .ok o) :
    dispatchRequest c table y.extracted = .ok (y.dispatched c cmd p o) := by
  obtain ⟨h1, h2⟩ := fits_of_le_nMax hv hp
  have hlen : y.extracted.req.payloadLen.toNat = p.length := by
    rw [Session.extracted_payloadLen, hy.declaredLen h1]
  have hcmd : y.extracted.req.cmdId = cmd := by rw [hy.extracted]
  have hview : Memory.getBytes y.extracted.rx payloadOff p.length = p := hy.payload
  rw [dispatchRequest_found (h := h) (o := o) hv (by rw [hlen, payloadOff]; omega) (by rwa [hcmd])
    (by rwa [hcmd, hlen, hview]), hy.extracted]
  rfl

@[simp] theorem outcomeRecord_cmdId (c : Config) (cmd : Byte) (p : List Byte) (o : HandlerOutcome) :
    (outcomeRecord c cmd p o).cmdId = cmd := CurrentRequest.normalise_cmdId _ _

/-- Settles O41: the request is received, dispatched to its handler, and the record and output encoded in `tx`. -/
theorem validRequestIsAnswered : Obligations.ValidRequestIsAnswered := by
  intro s i t k cmd p h o hv ht hp hi hl ho x req m frame
  obtain ⟨missing, hm, hexec⟩ := hi.exec_eq
  obtain ⟨y, hy, hrun⟩ := processInput_lastBytes hv hm hp
  have hd := hy.dispatch_accepted hv hp hl ho
  have hanswer := (hrun (s.server t).table .conforming).trans (answerRequest_ok hv hd)
  have htx : (y.dispatched s.cfg cmd p o).tx = Memory.setBytes x.tx 6 o.written := by
    rw [Session.dispatched, hy.tx]
  have hframe : responseFrame s.cfg req (Memory.getBytes (y.dispatched s.cfg cmd p o).tx 6 m) = frame := by
    rw [← responseImage_eq_responseFrame s.cfg req (Memory.length_getBytes _ _ _), outcomeRecord_cmdId, htx]
  refine ⟨Session.decReset { y.dispatched s.cfg cmd p o with tx := encodedTx s.cfg (y.dispatched s.cfg cmd p o) },
    ?_, ?_, rfl, rfl, hy.rx, hy.beyond, ?_, ?_⟩
  · rw [hexec, deliver_of_ok ht hm.1.1 hanswer, Res.toOutcome_ok, ← hframe]
    rfl
  · exact hy.sessInit.trans hm.1.1
  · exact (getBytes_encodedTx s.cfg _).trans hframe
  · intro j hj hw
    refine (get_encodedTx_beyond s.cfg (y.dispatched s.cfg cmd p o) hj).trans ?_
    rw [htx, Memory.get_setBytes_of_ge hw]

/-- Settles O44: the first call is the answer to the request, and the loop goes on after it as on the rest alone. -/
theorem backToBackRequestsInOrder : Obligations.BackToBackRequestsInOrder := by
  intro c table cb x cmd p missing rest r hv hx hp hr
  obtain ⟨y, hy, hrun⟩ := processInput_missing hv hx hp
  obtain ⟨fuel, -, hfirst⟩ := hrun table cb []
  rw [List.append_nil, hr] at hfirst
  obtain ⟨r', ha, hloop⟩ := Res.bind_eq_ok hfirst.symm
  obtain ⟨z, hd, -, rfl⟩ := answerRequest_eq_ok hv ha
  rw [processLoop_done (Nat.le_refl _)] at hloop
  cases hloop
  obtain ⟨fuel', hfuel, hboth⟩ := hrun table cb rest
  have hinit : z.sessInit = true := (dispatchRequest_eq_ok hd).1.trans (hy.sessInit.trans hx.1.1)
  refine ⟨rfl, rfl, ?_⟩
  rw [hboth, ha, Res.ok_bind]
  exact processLoop_rest hv missing rest _ (Session.feedable_decReset c hinit) rfl hfuel

/-- Settles O60: the bytes of the call are a part of what is missing, and the last byte is not among them. -/
theorem frameInProgressIsKept : Obligations.FrameInProgressIsKept := by
  intro s t k cmd crc p now later cb hv ht hl x a hx hfit y
  have hbound : p.length ≤ 65535 ∧ (p.length + 6 ≤ s.cfg.bRx ∨ a < 4) := by
    rcases hfit with hp | ⟨hp, ha⟩
    · obtain ⟨h1, h2⟩ := fits_of_le_nMax hv hp
      exact ⟨h1, .inl (by omega)⟩
    · exact ⟨hp, .inr ha⟩
  obtain ⟨hy, hrun⟩ := processInput_fragment hv hbound.1 hl hx hbound.2
  exact ⟨exec_process_next ht hx.1.1 (hrun _ cb), hy⟩

end Sys2Proof.Machine

/-! ### Requests whose id has no binding (R105, R154) -/

namespace Sys2Proof.Machine

/-- A session that has received a request, once DISPATCH has found no binding of its id: the record of
CommandUnknown (R105, R154). -/
def Session.commandUnknown (y : Session) (cmd : Byte) (p : List Byte) : Session :=
  { y with req := { cmdId := cmd, payloadLen := lengthField p, status := .error, errorCode := 1, outputLen := 0 } }

/-- DISPATCH on a request received whose id has no binding (R105, R154). -/
theorem Session.Received.dispatch_unbound {c : Config} {x y : Session} {cmd : Byte} {p : List Byte}
    {table : List Binding} (hy : Session.Received c x cmd p y) (hl : lookupHandler table cmd = none) :
    dispatchRequest c table y.extracted = .ok (y.commandUnknown cmd p) := by
  have hcmd : y.extracted.req.cmdId = cmd := by rw [hy.extracted]
  rw [dispatchRequest_unknown (by rwa [hcmd]), hy.extracted]
  rfl

/-- The length field of a response without output (R51). -/
theorem halfBytes_lengthField_nil : halfBytes (lengthField []) = [0, 0] := by decide

/-- An error response without output is the RSP.ERR word over its six header bytes (R51, R63). -/
theorem responseImage_error_nil (c : Config) (cmd err : Byte) :
    responseImage c cmd .error err [] =
      rspImage c.marker cmd .error err [] (crc16Fn c [c.marker, cmd, 1, err, 0, 0]) := by
  rw [responseImage, halfBytes_lengthField_nil, List.append_nil, statusByte]

/-- The response frame of CommandUnknown is the RSP.ERR.UNKNOWN word of R51, whatever output bytes are read for it:
its record declares none. -/
theorem responseFrame_commandUnknown (c : Config) (y : Session) (cmd : Byte) (p : List Byte) (l : Link)
    (tx : Memory) :
    responseFrame c (y.commandUnknown cmd p).req
        (Memory.getBytes tx 6 (y.commandUnknown cmd p).req.outputLen.toNat) =
      (encode c.marker (.rspErrUnknown l cmd (crc16Fn c [c.marker, cmd, 1, 1, 0, 0]))).word := by
  rw [← responseImage_eq_responseFrame c _ (Memory.length_getBytes _ _ _)]
  exact responseImage_error_nil c cmd 1

/-- Settles O42: the request is received, DISPATCH finds no binding, and the record of CommandUnknown is encoded,
sent and the decoder reset. -/
theorem unknownCommandIsAnswered : Obligations.UnknownCommandIsAnswered := by
  intro s i t k cmd p hv ht hp hi hunbound
  obtain ⟨missing, hm, hexec⟩ := hi.exec_eq
  obtain ⟨y, hy, hrun⟩ := processInput_lastBytes hv hm hp
  have hd := hy.dispatch_unbound (lookupHandler_eq_none hunbound)
  have hanswer := (hrun (s.server t).table .conforming).trans (answerRequest_ok hv hd)
  refine ⟨_, by rw [hexec, deliver_of_ok ht hm.1.1 hanswer, Res.toOutcome_ok], ?_, ?_⟩
  · rw [responseFrame_commandUnknown s.cfg y cmd p { server := t, session := k, callback := .conforming }]
    rfl
  · rw [State.session_setResult, State.session_addSent, State.session_setSession_same]
    exact ⟨hy.sessInit.trans hm.1.1, rfl⟩

end Sys2Proof.Machine

namespace Sys2Proof

/-! ### The decoder and the encoder (R50, R51, R60) -/

@[simp] theorem Link.link_args (l : Link) : l.args.link = l := rfl

/-- A request image of a payload that fits its length field decodes to its row (R50). -/
theorem decodeReq_reqImage (marker : Byte) (a : Args) (cmd : Byte) {p : List Byte} (crc : Half)
    (hp : p.length ≤ 65535) : decodeReq marker a (reqImage marker cmd p crc) = .ok (.req a.link cmd p crc) := by
  simp only [reqImage, halfBytes, List.cons_append, List.nil_append, decodeReq, ne_eq, not_true_eq_false,
    if_false, be16_of_lengthField hp]
  rw [← halfBytes, splitBody_append]

/-- The row of a response: the one of its status, for status 1 the most specific that fits (R51, R154, R155). -/
def responseRow (l : Link) (cmd : Byte) (status : Status) (err : Byte) (output : List Byte) (crc : Half) : Instr :=
  match status with
  | .ok => .rspOk l cmd err output crc
  | .error => errorRow l cmd err output crc

/-- A response image of an output that fits its length field decodes to its row (R51). -/
theorem decodeRsp_rspImage (marker : Byte) (a : Args) (cmd : Byte) (status : Status) (err : Byte)
    {output : List Byte} (crc : Half) (ho : output.length ≤ 65535) :
    decodeRsp marker a (rspImage marker cmd status err output crc) =
      .ok (responseRow a.link cmd status err output crc) := by
  simp only [rspImage, halfBytes, List.cons_append, List.nil_append, decodeRsp, ne_eq, not_true_eq_false,
    if_false, be16_of_lengthField ho]
  rw [← halfBytes, splitBody_append]
  cases status <;> rfl

/-- An error response without a row of its own keeps the general row (R51). -/
theorem errorRow_of_not_hasOwnErrorRow (l : Link) (cmd : Byte) {err : Byte} {output : List Byte} (crc : Half)
    (h : hasOwnErrorRow err output = false) : errorRow l cmd err output crc = .rspErr l cmd err output crc := by
  have h1 : ¬ (err = 1 ∧ output = []) := by rintro ⟨rfl, rfl⟩; cases h
  have h4 : ¬ (err = 4 ∧ output = []) := by rintro ⟨rfl, rfl⟩; cases h
  rw [errorRow, if_neg h1, if_neg h4]

/-- Settles O2: a frame's image splits back into its fields, and each select code is the one its arm of the decoder
tests. -/
theorem decodeEncodeRoundTrip : Obligations.DecodeEncodeRoundTrip := by
  intro marker i hw
  cases i with
  | req l cmd p crc => exact decodeReq_reqImage marker l.args cmd crc (of_decide_eq_true hw)
  | rspOk l cmd err output crc =>
    exact decodeRsp_rspImage marker l.args cmd .ok err crc (of_decide_eq_true hw)
  | rspErr l cmd err output crc =>
    obtain ⟨hl, hrow⟩ := Bool.and_eq_true_iff.1 hw
    refine (decodeRsp_rspImage marker l.args cmd .error err crc (of_decide_eq_true hl)).trans ?_
    exact congrArg _ (errorRow_of_not_hasOwnErrorRow l cmd crc (by simpa using hrow))
  | rspErrUnknown l cmd crc => exact decodeRsp_rspImage marker l.args cmd .error 1 (output := []) crc (by decide)
  | rspErrInternal l cmd crc => exact decodeRsp_rspImage marker l.args cmd .error 4 (output := []) crc (by decide)
  | encodeRequest cmd p => exact if_pos hw
  | _ => rfl


/-- What decodes as a request is the image of a payload that fits its length field (R50). -/
theorem decodeReq_eq_ok {marker : Byte} {a : Args} {w : List Byte} {i : Instr} (h : decodeReq marker a w = .ok i) :
    ∃ cmd p crc, p.length ≤ 65535 ∧ w = reqImage marker cmd p crc ∧ i = .req a.link cmd p crc := by
  unfold decodeReq at h
  split at h
  · next m cmd l1 l0 body =>
    split at h
    · cases h
    · next hm =>
      split at h
      · next p crc hs =>
        cases h
        obtain ⟨hlen, rfl⟩ := splitBody_eq_some hs
        refine ⟨cmd, p, crc, hlen ▸ Machine.be16_toNat_le l1 l0, ?_, rfl⟩
        rw [reqImage, lengthField_of_toNat hlen, halfBytes_be16, not_not.1 hm]
        rfl
      · cases h
  · cases h

/-- What decodes as a response is the image of a status and an output that fits its length field (R51, R53). -/
theorem decodeRsp_eq_ok {marker : Byte} {a : Args} {w : List Byte} {i : Instr} (h : decodeRsp marker a w = .ok i) :
    ∃ cmd status err output crc, output.length ≤ 65535 ∧ w = rspImage marker cmd status err output crc ∧
      i = responseRow a.link cmd status err output crc := by
  unfold decodeRsp at h
  split at h
  · next m cmd st err l1 l0 body =>
    split at h
    · cases h
    · next hm =>
      split at h
      · cases h
      · next output crc hs =>
        obtain ⟨hlen, rfl⟩ := splitBody_eq_some hs
        have hfit : output.length ≤ 65535 := hlen ▸ Machine.be16_toNat_le l1 l0
        have himage (status : Status) : rspImage marker cmd status err output crc =
            m :: cmd :: statusByte status :: err :: l1 :: l0 :: (output ++ halfBytes crc) := by
          rw [rspImage, lengthField_of_toNat hlen, halfBytes_be16, not_not.1 hm]
          rfl
        split at h
        · next hst =>
          cases h
          exact ⟨cmd, .ok, err, output, crc, hfit, by rw [himage, hst, statusByte], rfl⟩
        · split at h
          · next hst =>
            cases h
            exact ⟨cmd, .error, err, output, crc, hfit, by rw [himage, hst, statusByte], rfl⟩
          · cases h
  · cases h

/-- An instruction is well-formed and its encoding has a format and a word. -/
def Instr.EncodesAs (marker : Byte) (i : Instr) (fmt : Format) (word : List Byte) : Prop :=
  i.wellFormed = true ∧ (encode marker i).fmt = fmt ∧ (encode marker i).word = word

/-- The row of a response encodes to its image (R51, R154, R155). -/
theorem responseRow_encodesAs (marker : Byte) (l : Link) (cmd : Byte) (status : Status) (err : Byte)
    {output : List Byte} (crc : Half) (h : output.length ≤ 65535) :
    (responseRow l cmd status err output crc).EncodesAs marker .rsp (rspImage marker cmd status err output crc) := by
  have hfit : lengthFits output = true := decide_eq_true h
  cases status with
  | ok => exact ⟨hfit, rfl, rfl⟩
  | error =>
    rw [responseRow, errorRow]
    split
    · next hrow => obtain ⟨rfl, rfl⟩ := hrow; exact ⟨rfl, rfl, rfl⟩
    · next h1 =>
      split
      · next hrow => obtain ⟨rfl, rfl⟩ := hrow; exact ⟨rfl, rfl, rfl⟩
      · next h4 =>
        refine ⟨?_, rfl, rfl⟩
        have hown : hasOwnErrorRow err output = false := by
          rw [← Bool.not_eq_true]
          simpa [hasOwnErrorRow, or_and_right] using ⟨not_and.1 h1, not_and.1 h4⟩
        rw [Instr.wellFormed, hfit, hown]
        rfl

/-- An operation whose decoder needs a byte sequence decodes only where it is defined (R83, R134). -/
theorem Args.definedBytes_bind_eq_ok {a : Args} {f : List Byte → Except DecodeError Instr} {i : Instr}
    (h : (a.definedBytes >>= f) = .ok i) : ∃ bs, a.bytes = some bs ∧ f bs = .ok i := by
  unfold Args.definedBytes at h
  cases hb : a.bytes with
  | none => rw [hb] at h; cases h
  | some bs => rw [hb] at h; exact ⟨bs, rfl, h⟩

/-- A select code is its byte. -/
theorem singleton_eq_of_toNat {b code : Byte} (h : b.toNat = code.toNat) : [code] = [b] := by
  rw [BitVec.eq_of_toNat_eq h]

/-- What decodes as an operation is its select code, phase bits included (R60). -/
theorem decodeOp_encodesAs {a : Args} {w : List Byte} {i : Instr} (h : decodeOp a w = .ok i) (marker : Byte) :
    i.EncodesAs marker .op w := by
  unfold decodeOp at h
  split at h
  · next b =>
    split at h
    -- no operand to check
    case h_1 hb | h_2 hb | h_3 hb | h_5 hb | h_6 hb | h_7 hb | h_8 hb | h_9 hb =>
      cases h
      exact ⟨rfl, rfl, singleton_eq_of_toNat hb⟩
    -- ENCODE_REQUEST: a payload that fits its length field
    case h_10 hb =>
      obtain ⟨p, -, hp⟩ := Args.definedBytes_bind_eq_ok h
      split at hp
      · next hfit => cases hp; exact ⟨hfit, rfl, singleton_eq_of_toNat hb⟩
      · cases hp
    -- PROCESS and the FEED forms: a defined chunk
    case h_11 hb | h_12 hb | h_13 hb | h_14 hb | h_15 hb | h_16 hb =>
      obtain ⟨bs, -, hbs⟩ := Args.definedBytes_bind_eq_ok h
      cases hbs
      exact ⟨rfl, rfl, singleton_eq_of_toNat hb⟩
    -- FEED without its phase bits, undefined phase codes, unassigned selects
    case h_4 | h_17 | h_18 | h_19 | h_20 => cases h
  · cases h

/-- Settles O3: each format's decoder accepts nothing but an encoding. -/
theorem decodedWordIsTheEncodedWord : Obligations.DecodedWordIsTheEncodedWord := by
  intro marker c i h
  obtain ⟨fmt, w, a⟩ := c
  cases fmt with
  | req =>
    obtain ⟨cmd, p, crc, hp, rfl, rfl⟩ := decodeReq_eq_ok h
    exact ⟨decide_eq_true hp, rfl, rfl⟩
  | rsp =>
    obtain ⟨cmd, status, err, output, crc, ho, rfl, rfl⟩ := decodeRsp_eq_ok h
    exact responseRow_encodesAs marker a.link cmd status err crc ho
  | op => exact decodeOp_encodesAs h marker

end Sys2Proof

namespace Sys2Proof.Machine

/-! ### What an instruction that answers does to the state -/

/-- A call that sends nothing leaves the transmitted frames. -/
@[simp] theorem State.addSent_nil (s : State) (k : Nat) : s.addSent k [] = s := by
  rw [State.addSent, List.map_nil, List.append_nil]

/-- What an instruction can do to the state: record a result; put a session under the handle it names and send frames
for it; empty a table; append a binding to one. The session put is one that keeps the invariant. -/
inductive Instr.Effect (i : Instr) (s : State) : State → Prop
  | result (r : OpResult) : Effect i s (s.setResult r)
  | session {k : Nat} (y : Session) (frames : List (List Byte)) (r : OpResult) (hk : sessionTarget i = some k)
      (hy : s.Inv → Session.Inv s.cfg y) : Effect i s (((s.setSession k y).addSent k frames).setResult r)
  | table (t : Nat) (hi : i = .tableInit t) :
      Effect i s ((s.setServer t { srvInit := true, table := [] }).setResult .none)
  | binding (t : Nat) (cmd : Byte) (h : Handler) (hi : i = .register t cmd (some h)) :
      Effect i s ((s.setServer t { s.server t with table := (s.server t).table ++ [(cmd, h)] }).setResult
        (.register .ok))

section
variable {i : Instr} {s u : State} {k : Nat}

/-- A session put under the handle the instruction names, with nothing sent. -/
theorem Instr.Effect.of_setSession {y : Session} {r : OpResult} (hk : sessionTarget i = some k)
    (hy : s.Inv → Session.Inv s.cfg y) : Instr.Effect i s ((s.setSession k y).setResult r) := by
  have h := Instr.Effect.session y [] r hk hy
  rwa [State.addSent_nil] at h

/-- The effect of a FEED form (R84). -/
theorem Instr.Effect.of_feedForm {p : Phase} {chunk : List Byte} (hk : sessionTarget i = some k)
    (h : feedForm p k chunk s = .ok u) : Instr.Effect i s u := by
  obtain ⟨-, -, -, -, r, y, hf, rfl⟩ := feedForm_eq_ok h
  refine Instr.Effect.of_setSession hk fun hi => ?_
  obtain ⟨hd, hc, ha⟩ := feed_eq_ok_answer hi.1 hf
  have hinv := feedAnswer_inv chunk hi.1 (hi.session k) hd hc
  rwa [ha] at hinv

/-- The effect of a PROCESS, and of a frame row (R131, R134). -/
theorem Instr.Effect.of_deliver {t : Nat} {input : List Byte} {cb : Callback} (hk : sessionTarget i = some k)
    (h : deliver t k input cb s = .ok u) : Instr.Effect i s u := by
  obtain ⟨-, hinit, r, hr, rfl⟩ := deliver_eq_ok h
  exact Instr.Effect.session r.sess r.frames .none hk fun hi => (processInput_inv hi.1 (hi.session k) hinit hr).1

end

/-- SESSION_INIT's session satisfies the invariant (R130, R176). -/
theorem Session.inv_fresh {c : Config} (hv : c.Valid) : Session.Inv c Session.fresh :=
  ⟨⟨.nil, by simp [Session.fresh]⟩, by simp [Session.fresh], ⟨.nil, by simp [Session.fresh]⟩,
    by simp [Session.fresh], .inl (by simp [Session.fresh, Session.decInv]),
    by simpa [Session.fresh] using hv.1, by simp [Session.fresh]⟩

/-- An instruction that answers has one of the four effects. -/
theorem exec_effect {i : Instr} {s u : State} (h : exec i s = .next u) : Instr.Effect i s u := by
  cases i with
  | req | rspOk | rspErr | rspErrUnknown | rspErrInternal | process =>
    exact Instr.Effect.of_deliver rfl (Res.toOutcome_eq_next h)
  | feedAm | feedAlf | feedAp | feedAc | feedCp =>
    exact Instr.Effect.of_feedForm rfl (Res.toOutcome_eq_next h)
  | crc16 bytes =>
    cases bytes with
    | none => cases h
    | some bs => cases h; exact .result _
  | sessionInit k =>
    cases h
    exact Instr.Effect.of_setSession rfl fun hi => Session.inv_fresh hi.1
  | decReset k =>
    obtain ⟨-, rfl⟩ := execDecReset_eq_next h
    exact Instr.Effect.of_setSession rfl fun hi => Session.inv_decReset (hi.session k)
  | tableInit t => cases h; exact .table t rfl
  | register t cmd handler =>
    obtain ⟨v, hv, hcases⟩ := execRegister_cases t cmd handler s
    cases hv.symm.trans h
    rcases hcases with ⟨e, rfl⟩ | ⟨g, rfl, rfl⟩
    · exact .result _
    · exact .binding t cmd g rfl
  | lookup t cmd =>
    obtain ⟨-, rfl⟩ := execLookup_eq_next h
    exact .result _
  | dispatch t k =>
    obtain ⟨-, -, y, hy, rfl⟩ := execDispatch_eq_next h
    exact Instr.Effect.of_setSession rfl fun hi => dispatchRequest_inv (hi.session k) hy
  | encodeResponse k =>
    obtain ⟨-, n, y, hy, rfl⟩ := execEncodeResponse_eq_next h
    refine Instr.Effect.of_setSession rfl fun hi => ?_
    obtain ⟨-, -, rfl⟩ := encodeFrame_eq_ok hi.1 hy
    exact encodedTx_inv hi.1 (hi.session k)
  | encodeRequest cmd p =>
    obtain ⟨-, -, hu⟩ := Res.bind_eq_ok (Res.toOutcome_eq_next h)
    cases hu
    exact .result _

section
variable {i : Instr} {s u : State}

theorem Instr.Effect.cfg_eq (h : Instr.Effect i s u) : u.cfg = s.cfg := by cases h <;> rfl

theorem Instr.Effect.port_eq (h : Instr.Effect i s u) : u.port = s.port := by cases h <;> rfl

/-- Only the session named is written (R27). -/
theorem Instr.Effect.session_eq (h : Instr.Effect i s u) {k : Nat} (hk : sessionTarget i ≠ some k) :
    u.session k = s.session k := by
  cases h with
  | result r => rfl
  | session y frames r hj _ => exact State.session_setSession_ne _ _ _ _ fun e => hk (e ▸ hj)
  | table t _ => rfl
  | binding t cmd g _ => rfl

/-- The invariant is kept. -/
theorem Instr.Effect.inv (h : Instr.Effect i s u) (hi : s.Inv) : u.Inv := by
  cases h with
  | result r => exact hi.setResult
  | session y frames r _ hy => exact ((hi.setSession (hy hi)).addSent).setResult
  | table t _ => exact hi.setServer.setResult
  | binding t cmd g _ => exact hi.setServer.setResult

end

/-- Settles O54: no effect writes the parameters or the port. -/
theorem parametersNeverChange : Obligations.ParametersNeverChange := by
  intro i s t h
  have heff := exec_effect h
  exact ⟨heff.cfg_eq, heff.port_eq⟩

/-- Settles O55: only the effect on the session named writes a session. -/
theorem otherSessionsUntouched : Obligations.OtherSessionsUntouched := by
  intro i s t k h hk
  exact (exec_effect h).session_eq hk

/-- Settles O56: of the effects on a table, emptying one is TABLE_INIT's and appending to one is REGISTER's. -/
theorem tablesOnlyGrow : Obligations.TablesOnlyGrow := by
  intro i s t j h hn
  have hsame : (s.server j).table = (s.server j).table ++ [] := (List.append_nil _).symm
  cases exec_effect h with
  | result r => exact ⟨rfl, [], hsame, absurd rfl⟩
  | session y frames r _ _ => exact ⟨rfl, [], hsame, absurd rfl⟩
  | table n hi => exact absurd hi (hn n)
  | binding n cmd g hi =>
    by_cases hj : j = n
    · subst hj
      rw [State.server_setResult, State.server_setServer_same]
      exact ⟨rfl, [(cmd, g)], rfl, fun _ => ⟨cmd, g, hi, rfl⟩⟩
    · rw [State.server_setResult, State.server_setServer, if_neg hj]
      exact ⟨rfl, [], hsame, absurd rfl⟩

/-! ### Steps (R6, R168) -/

/-- With an empty port a step answers the same state (R168). -/
theorem step_of_port_nil {s : State} (hp : s.port = []) : step s = .next s := by
  simp only [step, hp]

/-- A transaction that does not decode is refused. -/
theorem step_of_decode_error {s : State} {c : Command} {rest : List Command} {e : DecodeError}
    (hp : s.port = c :: rest) (hd : decode s.cfg.marker (s.completeSelect c) = .error e) :
    step s = .refused (.undecodable e) := by
  simp only [step, hp, hd]

/-- What a step can do: hold its state, refuse a transaction that does not decode, or run one that does, taken off the
port. -/
theorem step_cases (s : State) :
    (s.port = [] ∧ step s = .next s) ∨
      ∃ c rest, s.port = c :: rest ∧
        ((∃ e, decode s.cfg.marker (s.completeSelect c) = .error e ∧ step s = .refused (.undecodable e)) ∨
          ∃ i, decode s.cfg.marker (s.completeSelect c) = .ok i ∧ step s = exec i { s with port := rest }) := by
  cases hp : s.port with
  | nil => exact .inl ⟨rfl, step_of_port_nil hp⟩
  | cons c rest =>
    refine .inr ⟨c, rest, rfl, ?_⟩
    cases hd : decode s.cfg.marker (s.completeSelect c) with
    | error e => exact .inl ⟨e, rfl, step_of_decode_error hp hd⟩
    | ok i => exact .inr ⟨i, rfl, step_of_decode hp hd⟩

/-- Settles O52: an idle step keeps the state, and every effect of an instruction keeps the invariant. -/
theorem stepKeepsInvariant : Obligations.StepKeepsInvariant := by
  intro s t hi h
  rcases step_cases s with ⟨-, hs⟩ | ⟨c, rest, -, ⟨e, -, hs⟩ | ⟨i, -, hs⟩⟩
  · cases hs.symm.trans h; exact hi
  · cases hs.symm.trans h
  · exact (exec_effect (hs.symm.trans h)).inv hi.withPort

/-! ### No fault (R37) -/

section
variable {f : Fault}

theorem Res.toOutcome_ne_fault {a : Res State} (h : a ≠ .error (.fault f)) : Res.toOutcome a ≠ .fault f := by
  match a with
  | .ok _ => exact nofun
  | .error (.refuse _) => exact nofun
  | .error (.fault _) => exact fun e => by cases e; exact h rfl

/-- A sequence raises a fault only where one of its parts does. -/
theorem Res.bind_ne_fault {α β : Type} {a : Res α} {g : α → Res β} (ha : a ≠ .error (.fault f))
    (hg : ∀ v, a = .ok v → g v ≠ .error (.fault f)) : (a >>= g) ≠ .error (.fault f) := by
  cases a with
  | error e => exact fun h => ha (by cases h; rfl)
  | ok v => exact hg v rfl

theorem State.readySession_ne_fault (s : State) (k : Nat) : s.readySession k ≠ .error (.fault f) := by
  unfold State.readySession
  split <;> exact nofun

theorem State.readyServer_ne_fault (s : State) (t : Nat) : s.readyServer t ≠ .error (.fault f) := by
  unfold State.readyServer
  split <;> exact nofun

theorem require_ne_fault (b : Bool) (e : Refusal) : require b e ≠ .error (.fault f) := by
  cases b <;> exact nofun

/-- An answer is no fault. -/
theorem Res.ok_ne_fault {α : Type} (v : α) : (.ok v : Res α) ≠ .error (.fault f) := nofun

end

/-- No instruction raises a fault from a state of the invariant (R37). -/
theorem exec_ne_fault {s : State} (hi : s.Inv) (i : Instr) (f : Fault) : exec i s ≠ .fault f := by
  cases i with
  | req | rspOk | rspErr | rspErrUnknown | rspErrInternal | process =>
    exact Res.toOutcome_ne_fault (deliver_no_fault hi f)
  | feedAm | feedAlf | feedAp | feedAc | feedCp => exact Res.toOutcome_ne_fault (feedForm_no_fault hi f)
  | crc16 bytes => cases bytes <;> exact nofun
  | sessionInit k => exact nofun
  | decReset k =>
    exact Res.toOutcome_ne_fault (Res.bind_ne_fault (s.readySession_ne_fault k) fun _ _ => Res.ok_ne_fault _)
  | tableInit t => exact nofun
  | register t cmd handler =>
    obtain ⟨u, hu, -⟩ := execRegister_cases t cmd handler s
    exact fun e => by cases hu.symm.trans e
  | lookup t cmd =>
    exact Res.toOutcome_ne_fault (Res.bind_ne_fault (s.readyServer_ne_fault t) fun _ _ => Res.ok_ne_fault _)
  | dispatch t k =>
    refine Res.toOutcome_ne_fault (Res.bind_ne_fault (s.readyServer_ne_fault t) fun v _ =>
      Res.bind_ne_fault (s.readySession_ne_fault k) fun x hx => Res.bind_ne_fault ?_ fun _ _ => Res.ok_ne_fault _)
    obtain ⟨-, rfl⟩ := State.readySession_eq_ok hx
    obtain ⟨-, -, -, -, -, hview, -⟩ := hi.session k
    exact dispatchRequest_no_fault hi.1 (by unfold payloadOff; omega)
  | encodeResponse k =>
    exact Res.toOutcome_ne_fault (Res.bind_ne_fault (s.readySession_ne_fault k) fun x _ =>
      Res.bind_ne_fault (encodeFrame_no_fault hi.1) fun _ _ => Res.ok_ne_fault _)
  | encodeRequest cmd p =>
    exact Res.toOutcome_ne_fault (Res.bind_ne_fault (require_ne_fault _ _) fun _ _ => Res.ok_ne_fault _)

/-- Settles O53: a step holds, refuses, or runs an instruction, and no instruction raises a fault. -/
theorem stepNeverFaults : Obligations.StepNeverFaults := by
  intro s hi f
  rcases step_cases s with ⟨-, hs⟩ | ⟨c, rest, -, ⟨e, -, hs⟩ | ⟨i, -, hs⟩⟩
  · rw [hs]; exact nofun
  · rw [hs]; exact nofun
  · rw [hs]; exact exec_ne_fault hi.withPort i f

end Sys2Proof.Machine

namespace Sys2Proof.Machine

/-! ### A table word placed on the port (R62) -/

/-- A transaction that decodes as it stands is no FEED without its phase bits, so nothing completes it (R60). -/
theorem State.completeSelect_of_decode {marker : Byte} {c : Command} {i : Instr} (h : decode marker c = .ok i)
    (s : State) : s.completeSelect c = c := by
  obtain ⟨fmt, w, a⟩ := c
  cases fmt with
  | req | rsp => rfl
  | op =>
    have hw : w ≠ [0x3] := by rintro rfl; cases h
    exact if_neg hw

/-- The instruction a transaction decodes to as it stands is the next to run once it is issued (R60). -/
theorem step_issueNext {s : State} {c : Command} {i : Instr} (h : decode s.cfg.marker c = .ok i) :
    step (s.issueNext c) = exec i s :=
  step_of_decode rfl (by rw [State.completeSelect_of_decode h]; exact h)

@[simp] theorem State.selectForm_cfg (s : State) (c : Command) : (s.selectForm c).cfg = s.cfg := by
  unfold State.selectForm
  split
  · dsimp only
    split <;> rfl
  · rfl

/-- Settles O7: selecting the form leaves the marker, and a table word decodes as it stands. -/
theorem placedWordRunsNext : Obligations.PlacedWordRunsNext := by
  intro s nbits w i hm h
  have hd : decode Config.default.marker (tableCommand nbits w) = .ok i := by
    unfold decodeTableWord at h
    cases hd : decode Config.default.marker (tableCommand nbits w) with
    | error e => rw [hd] at h; cases h
    | ok j => rw [hd] at h; cases h; rfl
  exact step_issueNext (by rw [State.selectForm_cfg, hm]; exact hd)

/-! ### Buffers (R36) -/

/-- Settles O9: an offset of the range reads its byte, every other one as before. -/
theorem bufferWriteTouchesOnlyItsRange : Obligations.BufferWriteTouchesOnlyItsRange := by
  intro m a j bs
  refine ⟨fun i b hb => ?_, fun hj => ?_⟩
  · obtain ⟨hi, hget⟩ := List.getElem?_eq_some_iff.1 hb
    rw [Memory.get_setBytes, if_pos (by omega), Nat.add_sub_cancel_left, List.getD_eq_getElem _ _ hi, hget]
  · rcases hj with hlt | hge
    · exact Memory.get_setBytes_of_lt hlt
    · exact Memory.get_setBytes_of_ge hge

/-! ### The CRC (R72, R73) -/

/-- Settles O11: the bytes before leave one register, the two bytes take it apart, and nothing after it brings the two
registers together. -/
theorem oneByteChangeChangesChecksum : Obligations.OneByteChangeChangesChecksum := by
  intro p before after b b' hp hb h
  unfold CrcParams.run at h
  rw [BitVec.xor_left_inj] at h
  replace h := reflectIf_injective p.refout h
  rw [List.foldl_append, List.foldl_append, List.foldl_cons, List.foldl_cons] at h
  have hregister := crcFold_injective _ hp after h
  have hbyte := crcByte_injective_byte hp hregister
  exact hb (reflectIf_injective p.refin hbyte)

/-! ### FEED refused (R60, R83) -/

/-- FEED where `DecInv` does not hold is refused (R83). -/
theorem feed_not_atRest {c : Config} {x : Session} (chunk : List Byte) (hc : x.decoder.phase ≠ .complete)
    (hd : x.decInv c = false) : feed c x chunk = .error (.refuse .feedPrecondition) := by
  simp only [feed, hc, if_false, hd, Bool.false_eq_true]

section
variable {s : State} {k : Nat} {p : Phase} (chunk : List Byte)

/-- A FEED form whose phase is not the phase register's is refused (R60). -/
theorem feedForm_mismatch (hi : (s.session k).sessInit = true) (hp : (s.session k).decoder.phase ≠ p) :
    feedForm p k chunk s = .error (.refuse .phaseMismatch) := by
  simp only [feedForm, State.readySession_ok s k hi, Res.ok_bind, hp, decide_false, require_false, Res.error_bind]

/-- A FEED form in its phase, on a session that does not satisfy `DecInv`, is refused (R83). -/
theorem feedForm_not_atRest (hi : (s.session k).sessInit = true) (hp : (s.session k).decoder.phase = p)
    (hc : p ≠ .complete) (hd : (s.session k).decInv s.cfg = false) :
    feedForm p k chunk s = .error (.refuse .feedPrecondition) := by
  subst hp
  simp only [feedForm, State.readySession_ok s k hi, Res.ok_bind, decide_true, require_true,
    feed_not_atRest chunk hc hd, Res.error_bind]

end

/-- Settles O18: the phase is tested first; a failed FEED leaves a session that is not at rest. -/
theorem feedOutsideRestRefused : Obligations.FeedOutsideRestRefused := by
  intro s k chunk p hi
  refine ⟨fun hp => ?_, fun hp hc hd => ?_⟩
  · rw [exec_feedInstr, feedForm_mismatch chunk hi hp, Res.toOutcome_refuse]
  · have hrest : (s.session k).decInv s.cfg = false := by
      rcases hd with hd | hfail
      · exact hd
      · exact (Session.not_atRest_of_afterFailure hfail).1
    rw [exec_feedInstr, feedForm_not_atRest chunk hi hp hc hrest, Res.toOutcome_refuse]

/-! ### What every FEED does (R84, R92, R93, R95) -/

/-- Settles O20: `feedAnswer_progress` read through FEED's answer. -/
theorem feedMakesProgress : Obligations.FeedMakesProgress := by
  intro c x y chunk r hv hne h
  obtain ⟨hd, hc, ha⟩ := feed_eq_ok_answer hv h
  cases r with
  | err kind => trivial
  | ok n =>
    obtain ⟨hle, hzero, -⟩ := feedAnswer_progress hd hc hne ha
    refine ⟨hle, fun hn => ?_⟩
    obtain ⟨hp, he, rfl⟩ := hzero hn
    exact ⟨hp, he, rfl⟩

/-- FEED stays in its phase or moves to the next, and only AwaitMarker fails with BadMarker (R84, R85, R151). -/
theorem feedAnswer_phase (c : Config) (x : Session) (chunk : List Byte) :
    ((feedAnswer c x chunk).2.decoder.phase = x.decoder.phase ∨
        (feedAnswer c x chunk).2.decoder.phase.code = x.decoder.phase.code + 1) ∧
      ((feedAnswer c x chunk).1 = .err .badMarker → x.decoder.phase = .awaitMarker) := by
  cases hp : x.decoder.phase with
  | awaitMarker =>
    refine ⟨?_, fun _ => rfl⟩
    cases chunk with
    | nil => simp only [feedAnswer, hp, true_or]
    | cons b bs =>
      simp only [feedAnswer, hp]
      split
      · exact .inr rfl
      · exact .inl hp
  | awaitLengthField =>
    simp only [feedAnswer, hp]
    split
    · exact ⟨.inl hp, nofun⟩
    · split
      · exact ⟨.inl hp, nofun⟩
      · exact ⟨.inr rfl, nofun⟩
  | awaitPayload =>
    simp only [feedAnswer, hp]
    split
    · exact ⟨.inl hp, nofun⟩
    · exact ⟨.inr rfl, nofun⟩
  | awaitChecksum =>
    simp only [feedAnswer, hp]
    split
    · exact ⟨.inl hp, nofun⟩
    · split
      · exact ⟨.inr rfl, nofun⟩
      · exact ⟨.inl hp, nofun⟩
  | complete =>
    simp only [feedAnswer, hp, true_or, true_and]
    nofun

/-- Settles O21: one phase per call, and what COPY stores is added to `accumulated`. -/
theorem feedMovesAtMostOnePhase : Obligations.FeedMovesAtMostOnePhase := by
  intro c x y chunk r hv h
  obtain ⟨hd, -, ha⟩ := feed_eq_ok_answer hv h
  obtain ⟨hphase, -⟩ := feedAnswer_phase c x chunk
  obtain ⟨bs, -, hacc, -⟩ := feedAnswer_rx c x chunk hd
  rw [ha] at hphase hacc
  exact ⟨hphase, hacc ▸ Nat.le_add_right _ _⟩

section
variable {c : Config} {x : Session}

/-- The row FrameTooLong of R95. -/
theorem Session.decoder_eq_of_frameTooLong (h : x.afterFailure c = true)
    (hp : x.decoder.phase = .awaitLengthField) :
    x.decoder = { phase := .awaitLengthField, accumulated := 4, expected := x.declaredLen } := by
  simp only [Session.afterFailure, hp, decide_eq_true_eq] at h
  obtain ⟨ha, he, -⟩ := h
  exact congr (congrArg₂ Decoder.mk hp ha) he

/-- The row ChecksumError of R95. -/
theorem Session.decoder_eq_of_checksumError (h : x.afterFailure c = true)
    (hp : x.decoder.phase = .awaitChecksum) :
    x.decoder = { phase := .awaitChecksum, accumulated := 6 + x.declaredLen, expected := 0 } := by
  simp only [Session.afterFailure, hp, decide_eq_true_eq] at h
  obtain ⟨ha, he, -⟩ := h
  exact congr (congrArg₂ Decoder.mk hp ha) he

end

/-- Settles O22: success leaves the session at rest, and each failure leaves its row of R95. -/
theorem feedLeavesDecoderAtRestOrFailed : Obligations.FeedLeavesDecoderAtRestOrFailed := by
  intro c x y chunk r hv h
  obtain ⟨hd, hc, ha⟩ := feed_eq_ok_answer hv h
  have hrest := feedAnswer_rest chunk hv hd hc
  obtain ⟨-, hmarker⟩ := feedAnswer_phase c x chunk
  rw [ha] at hrest hmarker
  cases r with
  | ok n => exact hrest
  | err kind =>
    cases kind with
    | badMarker =>
      obtain rfl : y = x := hrest
      exact ⟨rfl, hmarker rfl, hd⟩
    | frameTooLong =>
      obtain ⟨hfail, hp⟩ := hrest
      exact ⟨(Session.not_atRest_of_afterFailure hfail).1, Session.decoder_eq_of_frameTooLong hfail hp⟩
    | checksumError =>
      obtain ⟨hfail, hp⟩ := hrest
      exact ⟨(Session.not_atRest_of_afterFailure hfail).1, Session.decoder_eq_of_checksumError hfail hp⟩

/-- Settles O23: what FEED stores goes from the old `accumulated` to the new one, and is no more than was expected but
for a marker, which is stored at offset 0. -/
theorem feedStaysInsideReceiveBuffer : Obligations.FeedStaysInsideReceiveBuffer := by
  intro c x hv hd
  have hbound := Session.accumulated_add_expected_le hv hd
  refine ⟨hbound, fun chunk r y j h => ?_⟩
  obtain ⟨-, hc, ha⟩ := feed_eq_ok_answer hv h
  obtain ⟨bs, hrx, hacc, -, hmarker, hcopy⟩ := feedAnswer_rx c x chunk hd
  have hframe := feedAnswer_frame c x chunk
  rw [ha] at hrx hacc hframe
  dsimp only at hacc
  refine ⟨fun hj => ?_, ?_, hframe⟩
  · rw [hrx]
    rcases hj with hlt | hge
    · exact Memory.get_setBytes_of_lt hlt
    · exact Memory.get_setBytes_of_ge (hacc ▸ hge)
  · by_cases hp : x.decoder.phase = .awaitMarker
    · obtain ⟨h0, -⟩ := (Session.decInv_awaitMarker hp).1 hd
      have hone := hmarker hp
      have hrxcap := hv.1
      omega
    · have hexpected := hcopy hp
      omega

end Sys2Proof.Machine

namespace Sys2Proof.Machine

/-! ### A binding registered and looked up (R43) -/

/-- Settles O30: REGISTER appends the binding, and the search passes over those before it. -/
theorem registeredBindingIsVisible : Obligations.RegisteredBindingIsVisible := by
  intro s t cmd h hi hne
  refine ⟨_, exec_register_some hi cmd h, ?_⟩
  rw [exec_lookup_ready (by simp), State.server_setResult, State.server_setServer_same, lookupHandler_append hne,
    lookupHandler_cons_same]

/-! ### A failing handler, and a callback that breaks its obligations (R106, R155, R169) -/

/-- The record of a request whose handler returned negative with status OK, set or left at its default: Internal
(R106, R155). -/
theorem outcomeRecord_internal {c : Config} {o : HandlerOutcome} (hneg : retNegative c o.ret = true)
    (hst : o.status ≠ some .error) (cmd : Byte) (p : List Byte) :
    outcomeRecord c cmd p o =
      { cmdId := cmd, payloadLen := lengthField p, status := .error, errorCode := 4, outputLen := 0 } := by
  have hok : o.status.getD .ok = .ok := by
    rcases hs : o.status with _ | _ | _
    · rfl
    · rfl
    · exact absurd hs hst
  have hdown : retNegative c o.ret = true ∧ o.status.getD .ok = .ok := ⟨hneg, hok⟩
  refine (CurrentRequest.normalise_afterHandler
    { cmdId := cmd, payloadLen := lengthField p, status := .ok, errorCode := 0, outputLen := 0 } o _).trans ?_
  rw [if_pos hdown, if_pos hdown, if_pos hdown]

/-- The response frame of Internal is the RSP.ERR.INTERNAL word of R51, whatever output bytes are read for it: its
record declares none. -/
theorem responseFrame_internal {r : CurrentRequest} {cmd : Byte} {n : Half}
    (hr : r = { cmdId := cmd, payloadLen := n, status := .error, errorCode := 4, outputLen := 0 }) (c : Config)
    (l : Link) (tx : Memory) :
    responseFrame c r (Memory.getBytes tx 6 r.outputLen.toNat) =
      (encode c.marker (.rspErrInternal l cmd (crc16Fn c [c.marker, cmd, 1, 4, 0, 0]))).word := by
  subst hr
  rw [← responseImage_eq_responseFrame c _ (Memory.length_getBytes _ _ _)]
  exact responseImage_error_nil c cmd 4

/-- Settles O43: the record is Internal's, and its response the RSP.ERR.INTERNAL word. -/
theorem internalFailureIsAnswered : Obligations.InternalFailureIsAnswered := by
  intro s i t k cmd p h o hv ht hp hi hl ho hneg hst
  obtain ⟨missing, hm, hexec⟩ := hi.exec_eq
  obtain ⟨y, hy, hrun⟩ := processInput_lastBytes hv hm hp
  have hd := hy.dispatch_accepted hv hp hl ho
  have hanswer := (hrun (s.server t).table .conforming).trans (answerRequest_ok hv hd)
  have hrecord := outcomeRecord_internal hneg hst cmd p
  refine ⟨_, by rw [hexec, deliver_of_ok ht hm.1.1 hanswer, Res.toOutcome_ok], ?_, ?_⟩
  · rw [responseFrame_internal (r := (y.dispatched s.cfg cmd p o).req) hrecord s.cfg { server := t, session := k, callback := .conforming }]
    rfl
  · rw [State.session_setResult, State.session_addSent, State.session_setSession_same]
    exact ⟨hy.sessInit.trans hm.1.1, rfl⟩

/-- The dispatcher answers where every handler of the table conforms and the payload view lies inside `rx` (R104,
R105). -/
theorem dispatchRequest_conforming {c : Config} {table : List Binding} {x : Session} (hv : c.Valid)
    (htable : TableConforming c table) (hn : payloadOff + x.req.payloadLen.toNat ≤ c.bRx) :
    ∃ y, dispatchRequest c table x = .ok y := by
  cases hl : lookupHandler table x.req.cmdId with
  | none => exact ⟨_, dispatchRequest_unknown hl⟩
  | some h =>
    obtain ⟨o, ho⟩ := htable _ (lookupHandler_mem hl) x.req.cmdId
      (Memory.getBytes x.rx payloadOff x.req.payloadLen.toNat)
    exact ⟨_, dispatchRequest_found hv hn hl ho⟩

/-- The answer to a completed request is refused with the callback that breaks an obligation (R139, R169). -/
theorem answerRequest_breaching {c : Config} {table : List Binding} {r : Run} {y : Session} (hv : c.Valid)
    (hd : dispatchRequest c table r.sess.extracted = .ok y) (b : Breach) :
    answerRequest c table (.breaching b) r = .error (.refuse (.callbackBreach b)) := by
  obtain ⟨-, -, -, -, -, hm, -⟩ := dispatchRequest_eq_ok hd
  have htx := hv.2.1
  have hcap : y.req.outputLen.toNat ≤ c.bTx - 8 := hm
  simp only [answerRequest, extractRequest_ok hv, Res.ok_bind, hd, encodeFrame_ok hv hm]
  rw [if_pos (by omega), memRead_ok (.inr (by rw [capacity]; omega)), Res.ok_bind, callTransmit, Res.error_bind]

/-- Settles O48: the dispatcher answers, its response is encoded, and the callback stops the call. -/
theorem callbackBreachRefused : Obligations.CallbackBreachRefused := by
  intro s i t k cmd p b hv ht htable hp hi
  obtain ⟨missing, rest, hm, hexec⟩ := hi.exec_eq
  obtain ⟨y, hy, hstop⟩ := processInput_refused hv hm hp
  obtain ⟨h1, h2⟩ := fits_of_le_nMax hv hp
  have hview : payloadOff + y.extracted.req.payloadLen.toNat ≤ s.cfg.bRx := by
    rw [Session.extracted_payloadLen, hy.declaredLen h1, payloadOff]
    omega
  obtain ⟨z, hz⟩ := dispatchRequest_conforming hv htable hview
  have hanswer := answerRequest_breaching (r := { sess := y, cur := missing.length, frames := [] }) hv hz b
  rw [hexec, deliver_of_error ht hm.1.1 (hstop _ _ rest _ hanswer), Res.toOutcome_refuse]

/-! ### Who writes the buffers (R33, R16) -/

/-- What a session written under a handle shares with the old one there, the session of every handle keeps. -/
theorem State.session_setSession_congr {β : Type} (f : Session → β) {s : State} {k : Nat} {y : Session}
    (h : f y = f (s.session k)) (m : Nat) : f ((s.setSession k y).session m) = f (s.session m) := by
  by_cases hm : m = k
  · subst hm; rw [State.session_setSession_same, h]
  · rw [State.session_setSession_ne _ _ _ _ hm]

section
variable {s u : State} {k : Nat}

/-- A FEED form leaves `tx` (R33). -/
theorem feedForm_tx {p : Phase} {chunk : List Byte} (hv : s.cfg.Valid) (h : feedForm p k chunk s = .ok u) (m : Nat) :
    (u.session m).tx = (s.session m).tx := by
  obtain ⟨-, -, -, -, r, y, hf, rfl⟩ := feedForm_eq_ok h
  obtain ⟨-, -, ha⟩ := feed_eq_ok_answer hv hf
  obtain ⟨htx, -, -⟩ := feedAnswer_frame s.cfg (s.session k) chunk
  rw [ha] at htx
  exact State.session_setSession_congr Session.tx htx m

/-- A PROCESS that sends nothing leaves `tx` (R33). -/
theorem deliver_silent {t : Nat} {input : List Byte} {cb : Callback} (hv : s.cfg.Valid)
    (h : deliver t k input cb s = .ok u) (hsent : u.sent = s.sent) (m : Nat) :
    (u.session m).tx = (s.session m).tx := by
  obtain ⟨-, hinit, r, hr, rfl⟩ := deliver_eq_ok h
  have hframes : r.frames = [] := List.map_eq_nil_iff.1 (List.append_right_eq_self.1 hsent)
  exact State.session_setSession_congr Session.tx (processInput_silent hv hinit hr hframes) m

/-- DISPATCH leaves `rx`, and `tx` outside the output view (R33, R16). -/
theorem exec_dispatch_frame {t : Nat} (h : exec (.dispatch t k) s = .next u) (hv : s.cfg.Valid) (m j : Nat) :
    (u.session m).rx = (s.session m).rx ∧
      (j < 6 ∨ s.cfg.bTx - 2 ≤ j → Memory.get (u.session m).tx j = Memory.get (s.session m).tx j) := by
  obtain ⟨-, -, y, hy, rfl⟩ := execDispatch_eq_next h
  obtain ⟨-, -, hrx, -, -, -, bs, htx, hbs, -⟩ := dispatchRequest_eq_ok hy
  refine ⟨State.session_setSession_congr Session.rx hrx m, fun hj =>
    State.session_setSession_congr (fun x => Memory.get x.tx j) ?_ m⟩
  have hcap := hv.2.1
  unfold outCap at hbs
  rw [htx, outputOff]
  rcases hj with hlt | hge
  · exact Memory.get_setBytes_of_lt hlt
  · exact Memory.get_setBytes_of_ge (by omega)

/-- ENCODE_RESPONSE leaves the output bytes it frames (R115, R16). -/
theorem get_encodedTx_output (c : Config) (x : Session) {j : Nat} (h6 : 6 ≤ j)
    (hj : j < 6 + x.req.outputLen.toNat) : Memory.get (encodedTx c x) j = Memory.get x.tx j := by
  rw [encodedTx, Memory.get_setBytes_of_lt hj, Memory.get_setBytes_of_ge (by simpa using h6)]

/-- ENCODE_RESPONSE leaves `rx`, and `tx` but the header and the checksum (R33, R16). -/
theorem exec_encodeResponse_frame (h : exec (.encodeResponse k) s = .next u) (hv : s.cfg.Valid) (m j : Nat) :
    (u.session m).rx = (s.session m).rx ∧
      (6 ≤ j ∧ j < 6 + (s.session m).req.outputLen.toNat ∨ 8 + (s.session m).req.outputLen.toNat ≤ j →
        Memory.get (u.session m).tx j = Memory.get (s.session m).tx j) := by
  obtain ⟨-, n, y, hy, rfl⟩ := execEncodeResponse_eq_next h
  obtain ⟨-, -, rfl⟩ := encodeFrame_eq_ok hv hy
  refine ⟨State.session_setSession_congr Session.rx (y := { s.session k with tx := encodedTx s.cfg (s.session k) }) rfl m,
    fun hj => ?_⟩
  rw [State.session_setResult]
  by_cases hm : m = k
  · subst hm
    rw [State.session_setSession_same]
    rcases hj with ⟨h6, hlt⟩ | hge
    · exact get_encodedTx_output s.cfg _ h6 hlt
    · exact get_encodedTx_beyond s.cfg _ hge
  · rw [State.session_setSession_ne _ _ _ _ hm]

end

/-- Settles O57: the operations that name no session write none; DEC_RESET, FEED, DISPATCH, ENCODE_RESPONSE and PROCESS
each by its frame. -/
theorem bufferOwnership : Obligations.BufferOwnership := by
  refine ⟨fun i s u k j hv h => ?_, fun c table cb r r' hv h => ?_⟩
  · cases i with
    | crc16 | tableInit | register | lookup | encodeRequest =>
      have hsame : u.session k = s.session k := (exec_effect h).session_eq nofun
      rw [hsame]
      exact ⟨rfl, rfl⟩
    | sessionInit => exact ⟨trivial, trivial⟩
    | decReset a =>
      obtain ⟨-, rfl⟩ := execDecReset_eq_next h
      exact ⟨congrArg (Memory.get · j) (State.session_setSession_congr Session.rx (Session.decReset_rx (s.session a)) k),
        congrArg (Memory.get · j) (State.session_setSession_congr Session.tx (Session.decReset_tx (s.session a)) k)⟩
    | feedAm | feedAlf | feedAp | feedAc | feedCp =>
      exact ⟨trivial, congrArg (Memory.get · j) (feedForm_tx hv (Res.toOutcome_eq_next h) k)⟩
    | dispatch t a =>
      obtain ⟨hrx, htx⟩ := exec_dispatch_frame h hv k j
      exact ⟨congrArg (Memory.get · j) hrx, htx⟩
    | encodeResponse a =>
      obtain ⟨hrx, htx⟩ := exec_encodeResponse_frame h hv k j
      exact ⟨congrArg (Memory.get · j) hrx, htx⟩
    | req | rspOk | rspErr | rspErrUnknown | rspErrInternal | process =>
      exact ⟨trivial, fun hsent => congrArg (Memory.get · j) (deliver_silent hv (Res.toOutcome_eq_next h) hsent k)⟩
  · obtain ⟨y, hd, -, rfl⟩ := answerRequest_eq_ok hv h
    obtain ⟨-, -, hrx, -⟩ := dispatchRequest_eq_ok hd
    exact hrx

/-! ### The command port, select codes and table words of the spec (R60, R168) -/

/-- Settles O1: the words evaluated. -/
theorem knownWordsDecode : Obligations.KnownWordsDecode := ⟨rfl, rfl, rfl, rfl, rfl, rfl⟩

/-- Selects 0xB to 0xF name no operation (R60). -/
theorem decodeOp_unassigned (a : Args) {b : Byte} (hlo : 0xB ≤ b.toNat) (hhi : b.toNat ≤ 0xF) :
    decodeOp a [b] = .error (.unassignedSelect b) := by
  unfold decodeOp
  dsimp only
  generalize b.toNat = n at hlo hhi
  interval_cases n <;> rfl

/-- Phase codes 5 to 7 name no phase (R58). -/
theorem decodeOp_undefinedPhase (a : Args) {b : Byte} (hlo : 0x1D ≤ b.toNat) (hhi : b.toNat ≤ 0x1F) :
    decodeOp a [b] = .error (.undefinedPhase b) := by
  unfold decodeOp
  dsimp only
  generalize b.toNat = n at hlo hhi
  interval_cases n <;> rfl

/-- An operation's select other than FEED's, its decoder failing, is refused. -/
theorem step_of_decodeOp_error {s : State} {a : Args} {code : Byte} {rest : List Command} {e : DecodeError}
    (hp : s.port = opCommand code a :: rest) (hcode : code ≠ 0x3) (hd : decodeOp a [code] = .error e) :
    step s = .refused (.undecodable e) :=
  step_of_decode_error hp (by rw [State.completeSelect_opCommand s a hcode]; exact hd)

/-- Settles O4: neither range holds FEED's select, so the phase register completes nothing. -/
theorem unassignedSelectsRefused : Obligations.UnassignedSelectsRefused := by
  rintro s ⟨fmt, w, a⟩ rest b hp rfl rfl
  have hne (h : 3 < b.toNat) : b ≠ 0x3 := by rintro rfl; exact absurd h (by decide)
  refine ⟨fun hlo hhi => ?_, fun hlo hhi => ?_⟩
  · exact step_of_decodeOp_error hp (hne (by omega)) (decodeOp_unassigned a hlo hhi)
  · exact step_of_decodeOp_error hp (hne (by omega)) (decodeOp_undefinedPhase a hlo hhi)

/-- Settles O5, which is `step_of_decode`. -/
theorem stepRunsDecodedInstruction : Obligations.StepRunsDecodedInstruction :=
  fun _ _ _ _ => step_of_decode

/-- Settles O6, which is `step_of_port_nil`. -/
theorem emptyPortHoldsState : Obligations.EmptyPortHoldsState :=
  fun _ => step_of_port_nil

/-- Settles O8: the two reads after a write, and the fields each write leaves. -/
theorem handleWriteTouchesOneEntry : Obligations.HandleWriteTouchesOneEntry := by
  refine ⟨fun s k j x => ?_, fun s t j v => ?_⟩
  · exact ⟨s.session_setSession_same k x, s.session_setSession_ne k j x, rfl, rfl, rfl, rfl, rfl⟩
  · exact ⟨s.server_setServer_same t v, fun hj => by rw [State.server_setServer, if_neg hj], rfl, rfl, rfl, rfl, rfl⟩

/-! ### The encoders (R116, R117) -/

/-- Settles O34: the encoder's first test. -/
theorem encodeResponseTooLongRefused : Obligations.EncodeResponseTooLongRefused := by
  intro s k hi hm
  simp only [exec, execEncodeResponse, State.readySession_ok s k hi, Res.ok_bind, encodeFrame_tooLong hm,
    Res.error_bind, Res.toOutcome_refuse]

/-- A request's bytes before its checksum (R50, R117). -/
theorem take_reqImage (c : Config) (cmd : Byte) (p : List Byte) (crc : Half) :
    (reqImage c.marker cmd p crc).take (4 + p.length) = requestHead c cmd p := by
  have hl : (requestHead c cmd p).length = 4 + p.length := by
    simp only [requestHead, List.length_cons, List.length_append, length_halfBytes]
    omega
  have himage : reqImage c.marker cmd p crc = requestHead c cmd p ++ halfBytes crc := by
    simp only [reqImage, requestHead, List.cons_append, List.append_assoc]
  rw [himage, ← hl, List.take_left]

/-- Settles O35: the frame of a payload that fits is its image with the checksum of its head, and a longer one is
refused. -/
theorem encodeRequestBuildsFrame : Obligations.EncodeRequestBuildsFrame := by
  intro s cmd p
  refine ⟨fun hp => ⟨?_, crc16Fn s.cfg (requestHead s.cfg cmd p), ?_, ?_⟩, fun hp => ?_⟩
  · exact selectRuns_of_decodeOp s (by decide) (if_pos (decide_eq_true hp))
  · have hfit : lengthFits p = true := decide_eq_true hp
    simp only [exec, execEncodeRequest, hfit, require_true, Res.ok_bind, Res.toOutcome_ok, requestFrame_eq_reqImage]
    rfl
  · rw [take_reqImage]
  · have hfit : lengthFits p = false := decide_eq_false (Nat.not_le.2 hp)
    simp only [exec, execEncodeRequest, hfit, require_false, Res.error_bind, Res.toOutcome_refuse]

/-! ### Reset and initialisation (R169, R175, R176) -/

/-- Settles O37: reset holds what the two initialisations write. -/
theorem resetEqualsTheTwoInitialisations : Obligations.ResetEqualsTheTwoInitialisations := by
  refine ⟨fun t h => ?_, fun t h => ?_, rfl, rfl⟩
  · cases h; rfl
  · cases h; rfl

/-- Settles O51: reset lists one session, the one SESSION_INIT gives. -/
theorem resetSatisfiesInvariant : Obligations.ResetSatisfiesInvariant := by
  unfold Obligations.ResetSatisfiesInvariant
  decide

section
variable {s : State} {t k : Nat}

/-- A FEED form on a session SESSION_INIT has not run on (R169, D23). -/
theorem exec_feedInstr_sessionNotInitialised (hk : (s.session k).sessInit = false) (p : Phase) (chunk : List Byte) :
    exec (Phase.feedInstr p k chunk) s = .refused .sessionNotInitialised := by
  rw [exec_feedInstr, feedForm, State.readySession_refuse s k hk, Res.error_bind, Res.toOutcome_refuse]

/-- ENCODE_RESPONSE on a session SESSION_INIT has not run on (R169, D23). -/
theorem exec_encodeResponse_sessionNotInitialised (hk : (s.session k).sessInit = false) :
    exec (.encodeResponse k) s = .refused .sessionNotInitialised := by
  simp only [exec, execEncodeResponse, State.readySession_refuse s k hk, Res.error_bind, Res.toOutcome_refuse]

/-- DISPATCH on a session SESSION_INIT has not run on (R169, D23). -/
theorem exec_dispatch_sessionNotInitialised (ht : (s.server t).srvInit = true)
    (hk : (s.session k).sessInit = false) : exec (.dispatch t k) s = .refused .sessionNotInitialised := by
  simp only [exec, execDispatch, State.readyServer_ok s t ht, State.readySession_refuse s k hk, Res.ok_bind,
    Res.error_bind, Res.toOutcome_refuse]

/-- DISPATCH on a server TABLE_INIT has not run on (R169, D23). -/
theorem exec_dispatch_serverNotInitialised (ht : (s.server t).srvInit = false) :
    exec (.dispatch t k) s = .refused .serverNotInitialised := by
  simp only [exec, execDispatch, State.readyServer_refuse s t ht, Res.error_bind, Res.toOutcome_refuse]

/-- LOOKUP on a server TABLE_INIT has not run on (R169, D23). -/
theorem exec_lookup_serverNotInitialised (ht : (s.server t).srvInit = false) (cmd : Byte) :
    exec (.lookup t cmd) s = .refused .serverNotInitialised := by
  simp only [exec, execLookup, State.readyServer_refuse s t ht, Res.error_bind, Res.toOutcome_refuse]

end

/-- Settles O58: each operation reads its session first, DISPATCH and PROCESS after their server. -/
theorem uninitialisedSessionRefused : Obligations.UninitialisedSessionRefused := by
  intro s t k chunk p cb hk
  exact ⟨exec_decReset_refused hk, exec_feedInstr_sessionNotInitialised hk p chunk,
    exec_encodeResponse_sessionNotInitialised hk, fun ht =>
      ⟨exec_dispatch_sessionNotInitialised ht hk, exec_process_sessionNotInitialised ht hk⟩⟩

/-- Settles O59: each operation reads its server first. -/
theorem uninitialisedServerRefused : Obligations.UninitialisedServerRefused := by
  intro s t k cmd input cb ht
  exact ⟨exec_lookup_serverNotInitialised ht cmd, exec_dispatch_serverNotInitialised ht,
    exec_process_serverNotInitialised ht⟩

end Sys2Proof.Machine
